-- ==== Sys2Proof/Word.lean ====
section
/-! DEFINITION. The bit widths of the P2BN254 unit: chunks and field registers of 256 bits, bus registers and command
words of 32 bits (00_scope.md R6, 20_memory.md R62). -/

namespace Sys2Proof

/-- The content of a field register, of a leaf or of a constant entry (00_scope.md R6, R11). -/
abbrev Word := BitVec 256

/-- A register of the bus window and a command word (20_memory.md R62, 30_encoding.md R90). -/
abbrev Word32 := BitVec 32

/-- One byte of the byte-addressed view of the window (20_memory.md R65). -/
abbrev Byte := BitVec 8

end Sys2Proof
end

