-- ==== Sys2Proof/Config.lean ====
section
/-! DEFINITION. The implementation parameters of 00_scope.md R6, the constants derived from them (R7), and the one
parameter the spec leaves to the platform (the position of the bus window, 20_memory.md R61). -/

namespace Sys2Proof.Config

/-- The field modulus `p` (00_scope.md R6). -/
def p : Nat := 0x30644e72e131a029b85045b68181585d2833e84879b9709143e1f593f0000001

/-- The Montgomery radix `R` = 2^256 (00_scope.md R6, 92_eei_decisions.md D8). -/
def R : Nat := 2 ^ 256

/-- `Rinv` = R^-1 mod p (00_scope.md R7). `Laws/Field.lean` proves that it is. -/
def Rinv : Nat := 0x15ebf95182c5551cc8260de4aeb85d5d090ef5a9e111ec87dc5ba0056db1194e

/-- `TSET`, the supported state widths (00_scope.md R6). -/
def tset : List Nat := [2, 3, 4, 8, 12, 16, 20, 24]

/-- `DSET`, the supported S-box exponents (00_scope.md R6). -/
def dset : List Nat := [3, 5, 7, 11]

/-- `TMAX`, columns of the round-constant store and entries of the diagonal store (00_scope.md R6). -/
def tmax : Nat := 24

/-- `NR_MAX`, rows of the round-constant store (00_scope.md R6). -/
def nrMax : Nat := 128

/-- `LMAX`, entries of the leaf memory (00_scope.md R6). -/
def lmax : Nat := 1024

/-- `MERKLE_T`, the state width the Merkle commands need (00_scope.md R6). -/
def merkleT : Nat := 3

/-- The constant of the `ID` register (10_state.md R30). -/
def id : Word32 := 0x50324207

/-- The size of the bus window in bytes (20_memory.md R61). -/
def windowBytes : Nat := 256

/-- Where the platform places the window, counted in windows; no rule of the unit reads it (20_memory.md R61,
92_eei_decisions.md D4, the one OPEN parameter; log entry 9). -/
opaque windowIndex : Nat

/-- `BASE`: the window is naturally aligned, so its address is a multiple of its size (20_memory.md R61). -/
def base : Nat := windowBytes * windowIndex

end Sys2Proof.Config
end

