-- ==== Sys2Proof/Machine/Field.lean ====
section
/-! DEFINITION. The arithmetic of the prime field on representatives in [0, p) (41_field_arith.md R140) and the two
encodings of a field value (00_scope.md R11). Every result is computed exactly in Nat or Int and reduced once. -/

namespace Sys2Proof.Machine

/-- `mont(v)` = (v * R) mod p, the accelerated encoding of a field value (00_scope.md R11). -/
def mont (v : Nat) : Nat := v * Config.R % Config.p

/-- `val(w)` = (w * Rinv) mod p, the field value a word stands for (00_scope.md R11). -/
def val (w : Nat) : Nat := w * Config.Rinv % Config.p

/-- (a + b) mod p (41_field_arith.md R141). -/
def fadd (a b : Nat) : Nat := (a + b) % Config.p

/-- (a - b) mod p, the least non-negative residue (41_field_arith.md R142, 00_scope.md R8). -/
def fsub (a b : Nat) : Nat := (((a : Int) - (b : Int)) % (Config.p : Int)).toNat

/-- (a * b) mod p on field values (41_field_arith.md R143, value level). -/
def fmul (a b : Nat) : Nat := a * b % Config.p

/-- The Montgomery product of two words (41_field_arith.md R143, word level). -/
def montMul (a b : Nat) : Nat := a * b * Config.Rinv % Config.p

/-- `double(a)` (41_field_arith.md R145). -/
def fdbl (a : Nat) : Nat := 2 * a % Config.p

/-- `b^e mod p` by repeated squaring over the low `fuel` bits of `e`. -/
def powMod (b : Nat) : (fuel e : Nat) → Nat
  | 0, _ => 1 % Config.p
  | fuel + 1, e =>
    let h := powMod b fuel (e / 2)
    if e % 2 = 1 then h * h % Config.p * b % Config.p else h * h % Config.p

/-- `a^-1 mod p`. The spec fixes the result and not the method (41_field_arith.md R147); the model takes the exponent
p - 2 (log entry 12), and `Laws/Field.lean` proves that the result is the inverse. -/
def finv (a : Nat) : Nat := powMod a 254 (Config.p - 2)

/-- The sum of a list of field values, reduced. -/
def fsum (l : List Nat) : Nat := l.sum % Config.p

end Sys2Proof.Machine
end

