-- ==== Sys2Proof/Syntax.lean ====
section
/-! DEFINITION. The 33 commands (30_encoding.md R95), one constructor per row of the opcode table. -/

namespace Sys2Proof

/-- The number of a field register; every value of the 5-bit field names one (30_encoding.md R93, 10_state.md R21). -/
abbrev Reg := Fin 32

/-- A command. Operands stand in the order of 30_encoding.md R95; numbers are the sub-fields of R94. -/
inductive Instr where
  /-- NOP (R120) -/
  | nop
  /-- LDC fd (R121) -/
  | ldc (fd : Reg)
  /-- LDR fd (R122) -/
  | ldr (fd : Reg)
  /-- STC fs (R123) -/
  | stc (fs : Reg)
  /-- STR fs (R124) -/
  | str (fs : Reg)
  /-- LDI fd, imm16 (R125) -/
  | ldi (fd : Reg) (imm : Nat)
  /-- MOV fd, fs1 (R126) -/
  | mov (fd fs1 : Reg)
  /-- TOMONT fd, fs1 (R127) -/
  | tomont (fd fs1 : Reg)
  /-- FROMMONT fd, fs1 (R128) -/
  | frommont (fd fs1 : Reg)
  /-- ADD fd, fs1, fs2 (R141) -/
  | add (fd fs1 fs2 : Reg)
  /-- SUB fd, fs1, fs2 (R142) -/
  | sub (fd fs1 fs2 : Reg)
  /-- MUL fd, fs1, fs2 (R143) -/
  | mul (fd fs1 fs2 : Reg)
  /-- NEG fd, fs1 (R144) -/
  | neg (fd fs1 : Reg)
  /-- DBL fd, fs1 (R145) -/
  | dbl (fd fs1 : Reg)
  /-- SQR fd, fs1 (R146) -/
  | sqr (fd fs1 : Reg)
  /-- INV fd, fs1 (R147) -/
  | inv (fd fs1 : Reg)
  /-- EQ fs1, fs2 (R148) -/
  | eq (fs1 fs2 : Reg)
  /-- PSETTD t, d (R161) -/
  | psettd (t d : Nat)
  /-- PSETRND rounds_f, rounds_p (R162) -/
  | psetrnd (roundsF roundsP : Nat)
  /-- PSETRC fs, row, col (R163) -/
  | psetrc (fs : Reg) (row col : Nat)
  /-- PSETDG fs, col (R164) -/
  | psetdg (fs : Reg) (col : Nat)
  /-- PCOMMIT (R165) -/
  | pcommit
  /-- ARC row (R182) -/
  | arc (row : Nat)
  /-- ARCP row (R183) -/
  | arcp (row : Nat)
  /-- SBOX fd, fs1 (R184) -/
  | sbox (fd fs1 : Reg)
  /-- SBOXF (R185) -/
  | sboxf
  /-- MEXT (R189) -/
  | mext
  /-- MINT (R192) -/
  | mint
  /-- PERM w (R194) -/
  | perm (w : Nat)
  /-- CMPR fd, fs1, fs2 (R211) -/
  | cmpr (fd fs1 fs2 : Reg)
  /-- LWR fs, idx (R212) -/
  | lwr (fs : Reg) (idx : Nat)
  /-- LRD fd, idx (R213) -/
  | lrd (fd : Reg) (idx : Nat)
  /-- ACCUM fd, n (R215) -/
  | accum (fd : Reg) (n : Nat)
deriving DecidableEq, Repr

end Sys2Proof
end

