-- ==== Sys2Proof/WellFormed.lean ====
section
/-! DEFINITION. Which commands have an encoding: each numeric operand fits the field of 30_encoding.md R94 that holds
it. Register operands always fit (R93). A range that a command itself checks (a column of 24, a leaf index of 1024) is
no matter of well-formedness: such a command is encodable and faults when it runs. -/

namespace Sys2Proof

/-- Every numeric operand fits its field (30_encoding.md R92, R94). -/
def Instr.wellFormed : Instr → Bool
  | .nop => true
  | .ldc _ => true
  | .ldr _ => true
  | .stc _ => true
  | .str _ => true
  | .ldi _ imm => decide (imm < 2 ^ 16)
  | .mov _ _ => true
  | .tomont _ _ => true
  | .frommont _ _ => true
  | .add _ _ _ => true
  | .sub _ _ _ => true
  | .mul _ _ _ => true
  | .neg _ _ => true
  | .dbl _ _ => true
  | .sqr _ _ => true
  | .inv _ _ => true
  | .eq _ _ => true
  | .psettd t d => decide (t < 2 ^ 5) && decide (d < 2 ^ 4)
  | .psetrnd roundsF roundsP => decide (roundsF < 2 ^ 8) && decide (roundsP < 2 ^ 8)
  | .psetrc _ row col => decide (row < 2 ^ 7) && decide (col < 2 ^ 5)
  | .psetdg _ col => decide (col < 2 ^ 5)
  | .pcommit => true
  | .arc row => decide (row < 2 ^ 16)
  | .arcp row => decide (row < 2 ^ 16)
  | .sbox _ _ => true
  | .sboxf => true
  | .mext => true
  | .mint => true
  | .perm w => decide (w < 2 ^ 16)
  | .cmpr _ _ _ => true
  | .lwr _ idx => decide (idx < 2 ^ 16)
  | .lrd _ idx => decide (idx < 2 ^ 16)
  | .accum _ n => decide (n < 2 ^ 16)

end Sys2Proof
end

