-- ==== Sys2Proof/Decode.lean ====
section
/-! DEFINITION. Command words: the seven formats of 30_encoding.md R92, the decoder (R95, R96, R98), the encoder (R99),
and the machine-readable table of R95 (match and mask) beside them. -/

namespace Sys2Proof

/-- Why a word, or a run of bytes, is no command (30_encoding.md R96). -/
inductive DecodeError where
  /-- The opcode is in no row of R95 (R96, case a). -/
  | unassignedOpcode
  /-- A must-be-zero bit of the format or of a sub-field is one (R96, case b). -/
  | mustBeZero
  /-- Not four bytes: a command is one 32-bit word (R90). -/
  | notOneWord
deriving DecidableEq, Repr

/-- `v[lo + width - 1 : lo]` of a number (00_scope.md R9). -/
def slice (v lo width : Nat) : Nat := v / 2 ^ lo % 2 ^ width

/-- A 5-bit register field at bit `lo` (30_encoding.md R93). -/
def regField (v lo : Nat) : Reg := Fin.ofNat 32 (slice v lo 5)

/-- Accept the command when the must-be-zero bits are zero (30_encoding.md R96, case b). -/
def accept (mustBeZero : Nat) (i : Instr) : Except DecodeError Instr :=
  if mustBeZero = 0 then .ok i else .error .mustBeZero

/-- Format N: bits [23:0] are zero. -/
def formatN (v : Nat) (i : Instr) : Except DecodeError Instr := accept (slice v 0 24) i

/-- Format A: `ra` in [23:19], bits [18:0] are zero. -/
def formatA (v : Nat) (mk : Reg → Instr) : Except DecodeError Instr :=
  accept (slice v 0 19) (mk (regField v 19))

/-- Format R2: `fd` in [23:19], `fs1` in [18:14], bits [13:0] are zero. -/
def formatR2 (v : Nat) (mk : Reg → Reg → Instr) : Except DecodeError Instr :=
  accept (slice v 0 14) (mk (regField v 19) (regField v 14))

/-- Format R3: `fd` in [23:19], `fs1` in [18:14], `fs2` in [13:9], bits [8:0] are zero. -/
def formatR3 (v : Nat) (mk : Reg → Reg → Reg → Instr) : Except DecodeError Instr :=
  accept (slice v 0 9) (mk (regField v 19) (regField v 14) (regField v 9))

/-- Format C: bits [23:19] are zero, `fs1` in [18:14], `fs2` in [13:9], bits [8:0] are zero. -/
def formatC (v : Nat) (mk : Reg → Reg → Instr) : Except DecodeError Instr :=
  accept (slice v 19 5 + slice v 0 9) (mk (regField v 14) (regField v 9))

/-- Format I: `ra` in [23:19], bits [18:16] are zero, `imm16` in [15:0], of which `immZero` must be zero (R94). -/
def formatI (v immZero : Nat) (mk : Reg → Instr) : Except DecodeError Instr :=
  accept (slice v 16 3 + immZero) (mk (regField v 19))

/-- Format J: bits [23:16] are zero, `imm16` in [15:0], of which `immZero` must be zero (R94). -/
def formatJ (v immZero : Nat) (i : Instr) : Except DecodeError Instr :=
  accept (slice v 16 8 + immZero) i

/-- Decode a command word (30_encoding.md R95, R98): the opcode selects the row, the row's format and sub-fields (R92,
R94) give the operands and the bits that must be zero. Total; every word of R96 is rejected by name. -/
def decode (w : Word32) : Except DecodeError Instr :=
  let v := w.toNat
  let imm := slice v 0 16
  match slice v 24 8 with
  | 0x00 => formatN v .nop
  | 0x10 => formatA v .ldc
  | 0x11 => formatA v .ldr
  | 0x12 => formatA v .stc
  | 0x13 => formatA v .str
  | 0x14 => formatI v 0 (.ldi · imm)
  | 0x15 => formatR2 v .mov
  | 0x16 => formatR2 v .tomont
  | 0x17 => formatR2 v .frommont
  | 0x20 => formatR3 v .add
  | 0x21 => formatR3 v .sub
  | 0x22 => formatR3 v .mul
  | 0x23 => formatR2 v .neg
  | 0x24 => formatR2 v .dbl
  | 0x25 => formatR2 v .sqr
  | 0x26 => formatR2 v .inv
  | 0x27 => formatC v .eq
  | 0x30 => formatJ v (slice v 5 3 + slice v 12 4) (.psettd (slice v 0 5) (slice v 8 4))
  | 0x31 => formatJ v 0 (.psetrnd (slice v 8 8) (slice v 0 8))
  | 0x32 => formatI v (slice v 12 4) (.psetrc · (slice v 5 7) (slice v 0 5))
  | 0x33 => formatI v (slice v 5 11) (.psetdg · (slice v 0 5))
  | 0x34 => formatN v .pcommit
  | 0x40 => formatJ v 0 (.arc imm)
  | 0x41 => formatJ v 0 (.arcp imm)
  | 0x42 => formatR2 v .sbox
  | 0x43 => formatN v .sboxf
  | 0x44 => formatN v .mext
  | 0x45 => formatN v .mint
  | 0x46 => formatJ v 0 (.perm imm)
  | 0x50 => formatR3 v .cmpr
  | 0x51 => formatI v 0 (.lwr · imm)
  | 0x52 => formatI v 0 (.lrd · imm)
  | 0x53 => formatI v 0 (.accum · imm)
  | _ => .error .unassignedOpcode

/-- Four bytes of the byte-addressed view as one 32-bit register, the first byte in bits [31:24] (20_memory.md R65). -/
def bigEndian32 (b0 b1 b2 b3 : Byte) : Word32 :=
  BitVec.ofNat 32 (b0.toNat * 2 ^ 24 + b1.toNat * 2 ^ 16 + b2.toNat * 2 ^ 8 + b3.toNat)

/-- Byte `k` (0 is the lowest address) of a 32-bit register (20_memory.md R65). -/
def byteOf32 (w : Word32) (k : Nat) : Byte := BitVec.ofNat 8 (slice w.toNat (24 - 8 * k) 8)

/-- Decode a command from its bytes in address order (20_memory.md R65); anything but one whole word is rejected. -/
def decodeBytes : List Byte → Except DecodeError Instr
  | [b0, b1, b2, b3] => decode (bigEndian32 b0 b1 b2 b3)
  | _ => .error .notOneWord

/-- The word of an opcode and three register fields (30_encoding.md R99, formats N, A, R2, R3 and C). -/
def encodeRegs (op a b c : Nat) : Word32 :=
  BitVec.ofNat 32 (op * 2 ^ 24 + a * 2 ^ 19 + b * 2 ^ 14 + c * 2 ^ 9)

/-- The word of an opcode, a register field and an immediate (30_encoding.md R99, formats I and J). -/
def encodeImm (op ra imm : Nat) : Word32 :=
  BitVec.ofNat 32 (op * 2 ^ 24 + ra * 2 ^ 19 + imm)

/-- The command word of a command (30_encoding.md R94, R95, R99). -/
def encode : Instr → Word32
  | .nop => encodeRegs 0x00 0 0 0
  | .ldc fd => encodeRegs 0x10 fd 0 0
  | .ldr fd => encodeRegs 0x11 fd 0 0
  | .stc fs => encodeRegs 0x12 fs 0 0
  | .str fs => encodeRegs 0x13 fs 0 0
  | .ldi fd imm => encodeImm 0x14 fd imm
  | .mov fd fs1 => encodeRegs 0x15 fd fs1 0
  | .tomont fd fs1 => encodeRegs 0x16 fd fs1 0
  | .frommont fd fs1 => encodeRegs 0x17 fd fs1 0
  | .add fd fs1 fs2 => encodeRegs 0x20 fd fs1 fs2
  | .sub fd fs1 fs2 => encodeRegs 0x21 fd fs1 fs2
  | .mul fd fs1 fs2 => encodeRegs 0x22 fd fs1 fs2
  | .neg fd fs1 => encodeRegs 0x23 fd fs1 0
  | .dbl fd fs1 => encodeRegs 0x24 fd fs1 0
  | .sqr fd fs1 => encodeRegs 0x25 fd fs1 0
  | .inv fd fs1 => encodeRegs 0x26 fd fs1 0
  | .eq fs1 fs2 => encodeRegs 0x27 0 fs1 fs2
  | .psettd t d => encodeImm 0x30 0 (d * 2 ^ 8 + t)
  | .psetrnd roundsF roundsP => encodeImm 0x31 0 (roundsF * 2 ^ 8 + roundsP)
  | .psetrc fs row col => encodeImm 0x32 fs (row * 2 ^ 5 + col)
  | .psetdg fs col => encodeImm 0x33 fs col
  | .pcommit => encodeRegs 0x34 0 0 0
  | .arc row => encodeImm 0x40 0 row
  | .arcp row => encodeImm 0x41 0 row
  | .sbox fd fs1 => encodeRegs 0x42 fd fs1 0
  | .sboxf => encodeRegs 0x43 0 0 0
  | .mext => encodeRegs 0x44 0 0 0
  | .mint => encodeRegs 0x45 0 0 0
  | .perm w => encodeImm 0x46 0 w
  | .cmpr fd fs1 fs2 => encodeRegs 0x50 fd fs1 fs2
  | .lwr fs idx => encodeImm 0x51 fs idx
  | .lrd fd idx => encodeImm 0x52 fd idx
  | .accum fd n => encodeImm 0x53 fd n

/-- The mnemonic of a command (30_encoding.md R95). -/
def Instr.mnemonic : Instr → String
  | .nop => "NOP"
  | .ldc _ => "LDC"
  | .ldr _ => "LDR"
  | .stc _ => "STC"
  | .str _ => "STR"
  | .ldi _ _ => "LDI"
  | .mov _ _ => "MOV"
  | .tomont _ _ => "TOMONT"
  | .frommont _ _ => "FROMMONT"
  | .add _ _ _ => "ADD"
  | .sub _ _ _ => "SUB"
  | .mul _ _ _ => "MUL"
  | .neg _ _ => "NEG"
  | .dbl _ _ => "DBL"
  | .sqr _ _ => "SQR"
  | .inv _ _ => "INV"
  | .eq _ _ => "EQ"
  | .psettd _ _ => "PSETTD"
  | .psetrnd _ _ => "PSETRND"
  | .psetrc _ _ _ => "PSETRC"
  | .psetdg _ _ => "PSETDG"
  | .pcommit => "PCOMMIT"
  | .arc _ => "ARC"
  | .arcp _ => "ARCP"
  | .sbox _ _ => "SBOX"
  | .sboxf => "SBOXF"
  | .mext => "MEXT"
  | .mint => "MINT"
  | .perm _ => "PERM"
  | .cmpr _ _ _ => "CMPR"
  | .lwr _ _ => "LWR"
  | .lrd _ _ => "LRD"
  | .accum _ _ => "ACCUM"

/-- One row of the table of 30_encoding.md R95: a word `w` is the command when `w` and `mask` give `pattern` (the
table's match). -/
structure OpRow where
  mnemonic : String
  pattern : Word32
  mask : Word32
deriving DecidableEq, Repr

/-- The table of 30_encoding.md R95. The decoder above is written from the formats of R92 and R94; this table is the
spec's second description of the same encodings. -/
def opTable : List OpRow := [
  ⟨"NOP", 0x00000000, 0xFFFFFFFF⟩,
  ⟨"LDC", 0x10000000, 0xFF07FFFF⟩,
  ⟨"LDR", 0x11000000, 0xFF07FFFF⟩,
  ⟨"STC", 0x12000000, 0xFF07FFFF⟩,
  ⟨"STR", 0x13000000, 0xFF07FFFF⟩,
  ⟨"LDI", 0x14000000, 0xFF070000⟩,
  ⟨"MOV", 0x15000000, 0xFF003FFF⟩,
  ⟨"TOMONT", 0x16000000, 0xFF003FFF⟩,
  ⟨"FROMMONT", 0x17000000, 0xFF003FFF⟩,
  ⟨"ADD", 0x20000000, 0xFF0001FF⟩,
  ⟨"SUB", 0x21000000, 0xFF0001FF⟩,
  ⟨"MUL", 0x22000000, 0xFF0001FF⟩,
  ⟨"NEG", 0x23000000, 0xFF003FFF⟩,
  ⟨"DBL", 0x24000000, 0xFF003FFF⟩,
  ⟨"SQR", 0x25000000, 0xFF003FFF⟩,
  ⟨"INV", 0x26000000, 0xFF003FFF⟩,
  ⟨"EQ", 0x27000000, 0xFFF801FF⟩] ++ [
  ⟨"PSETTD", 0x30000000, 0xFFFFF0E0⟩,
  ⟨"PSETRND", 0x31000000, 0xFFFF0000⟩,
  ⟨"PSETRC", 0x32000000, 0xFF07F000⟩,
  ⟨"PSETDG", 0x33000000, 0xFF07FFE0⟩,
  ⟨"PCOMMIT", 0x34000000, 0xFFFFFFFF⟩,
  ⟨"ARC", 0x40000000, 0xFFFF0000⟩,
  ⟨"ARCP", 0x41000000, 0xFFFF0000⟩,
  ⟨"SBOX", 0x42000000, 0xFF003FFF⟩,
  ⟨"SBOXF", 0x43000000, 0xFFFFFFFF⟩,
  ⟨"MEXT", 0x44000000, 0xFFFFFFFF⟩,
  ⟨"MINT", 0x45000000, 0xFFFFFFFF⟩,
  ⟨"PERM", 0x46000000, 0xFFFF0000⟩,
  ⟨"CMPR", 0x50000000, 0xFF0001FF⟩,
  ⟨"LWR", 0x51000000, 0xFF070000⟩,
  ⟨"LRD", 0x52000000, 0xFF070000⟩,
  ⟨"ACCUM", 0x53000000, 0xFF070000⟩]

/-- The 32-bit word whose bits are the low `nbits` of `w`, the bits above zero. -/
def tableWord (nbits w : Nat) : Word32 := BitVec.ofNat 32 (w % 2 ^ nbits)

/-- The command the decoder reads from the instruction whose bits are `w`, numbered as the opcode table numbers them
(bit 0 is the least significant bit of the one 32-bit word): its four bytes are laid out big-endian and decoded. -/
def decodeTableWord (nbits w : Nat) : Option Instr :=
  let word := tableWord nbits w
  (decodeBytes [byteOf32 word 0, byteOf32 word 1, byteOf32 word 2, byteOf32 word 3]).toOption

end Sys2Proof
end

