-- ==== Sys2Proof/Machine/State.lean ====
section
/-! DEFINITION. The state of the P2BN254 unit (10_state.md R20), the causes of its faults (60_exceptions.md R241), the
host's side of the bus, and the ways the MODEL stops. All of it is plain data. -/

namespace Sys2Proof.Machine

/-- The thirteen causes of a fault of the unit (60_exceptions.md R241). Taking one is a next state, not a stop of the
model (`State.raise`). -/
inductive Cause where
  | illegalCommand
  | paramsLocked
  | paramsNotCommitted
  | unsupportedStateWidth
  | unsupportedSboxDegree
  | oddFullRounds
  | constantTableShape
  | notInvertible
  | chunkLength
  | stateWidth
  | rawRange
  | indexRange
  | leafCount
deriving DecidableEq, Repr

/-- What the host can do to the unit: a bus read or a bus write (20_memory.md R63, R64) at a byte offset of the window
with a width of `n` bytes, or asserting the hard reset input (70_reset_and_hazards.md R280). A write carries the 32 data
bits of the only width that is a transaction; any other width is refused whatever its data (R67, R68). -/
inductive HostInput where
  | read (off n : Nat)
  | write (off n : Nat) (v : Word32)
  | hardReset
deriving DecidableEq, Repr

/-- A store that only commands reach, as the list of its entries: (index, word), indices strictly rising. -/
abbrev Store := List (Nat × Word)

/-- The leaf memory `L` (10_state.md R43): a store in which an unlisted index holds 0 and no listed entry is 0. Its
smallest addressable unit is one 256-bit leaf, so its cells are (index, word) pairs. -/
abbrev Memory := Store

/-- The scalar parameters of the parameter store (10_state.md R36, R37). -/
structure Params where
  /-- `P.t`, the state width -/
  t : BitVec 5
  /-- `P.d`, the S-box exponent -/
  d : BitVec 4
  /-- `P.rounds_f`, the full rounds -/
  roundsF : BitVec 8
  /-- `P.rounds_p`, the partial rounds -/
  roundsP : BitVec 8
deriving DecidableEq, Repr

/-- The architectural state of 10_state.md R20, every field of it, and after it the two fields of the host's side
(log entries 1 and 2). -/
structure State where
  /-- the field registers `f[0..31]` (R21) -/
  f : Vector Word 32
  /-- `ERR`, `STATUS[0]` (R31) -/
  err : Bool
  /-- `RUN`, `STATUS[1]`: false is CONFIG mode, true is RUN mode (R31) -/
  run : Bool
  /-- `EQF`, `STATUS[2]` (R28) -/
  eqf : Bool
  /-- `ERRCODE` (R32) -/
  errcode : BitVec 8
  /-- `ERRCMD` (R33) -/
  errcmd : Word32
  /-- `P.t`, `P.d`, `P.rounds_f`, `P.rounds_p` (R36, R37) -/
  P : Params
  /-- `RC`: entry (r, c) stands under index 24 r + c; an unlisted entry is unwritten (R38, R40) -/
  rc : Store
  /-- `DG`: entry c stands under index c; an unlisted entry is unwritten (R39, R40) -/
  dg : Store
  /-- `L`, the leaf memory (R43) -/
  leaf : Memory
  /-- `DIN[0..7]` (R44) -/
  din : Vector Word32 8
  /-- `DINM` (R44) -/
  dinm : BitVec 8
  /-- `DOUT[0..7]` (R45) -/
  dout : Vector Word32 8
  /-- MODEL: what the host will do next, oldest first (log entry 1) -/
  inputs : List HostInput
  /-- MODEL: the values bus reads have returned to the host, newest first (log entry 2) -/
  rdata : List Word32
deriving DecidableEq, Repr

/-- Why the MODEL stops inside a command. Each needs a RUN-mode state whose parameter store PCOMMIT would have refused;
10_state.md R37 and R40 say that no such state exists, and `Safety.lean`'s invariant excludes it. Safe: no claim about
a state the unit can be in rests on a stop (log entry 7). -/
inductive Fault where
  /-- Raised by ARC, ARCP, MINT, PERM, CMPR and ACCUM when an `RC` or `DG` entry they read was never written. Safe. -/
  | unwrittenConstant
  /-- Raised by MEXT, MINT and PERM when `P.t` is not in `TSET`. Safe. -/
  | widthOutsideTset
  /-- Raised by SBOX, SBOXF, PERM, CMPR and ACCUM when `P.d` is not in `DSET`. Safe. -/
  | degreeOutsideDset
  /-- Raised by PERM, CMPR and ACCUM when `P.rounds_f` is odd. Safe. -/
  | oddRounds
deriving DecidableEq, Repr

/-- Why the MODEL has no step. -/
inductive Refusal where
  /-- A command without a meaning. No arm of `exec` answers it: every command of the table is modelled. Safe. -/
  | notModelled (mnemonic : String)
  /-- A bus access that is not 32 bits wide: no transaction of the unit (20_memory.md R68). Raised by `busStep`. Safe. -/
  | accessWidth (n : Nat)
  /-- A bus access at an offset that is no multiple of 4 (20_memory.md R68). Raised by `busStep`. Safe. -/
  | misalignedAccess (off : Nat)
  /-- A bus access outside the 256-byte window (20_memory.md R68). Raised by `busStep`. Safe. -/
  | outsideWindow (off : Nat)
deriving DecidableEq, Repr

/-- The state right after reset (10_state.md R48, 70_reset_and_hazards.md R281); the host has issued nothing. -/
def State.reset : State where
  f := Vector.replicate 32 0
  err := false
  run := false
  eqf := false
  errcode := 0
  errcmd := 0
  P := ⟨0, 0, 0, 0⟩
  rc := []
  dg := []
  leaf := []
  din := Vector.replicate 8 0
  dinm := 0
  dout := Vector.replicate 8 0
  inputs := []
  rdata := []

/-- What a command, a bus transaction or a step answers. -/
abbrev Result := Host.Outcome State Fault Refusal

end Sys2Proof.Machine
end

