-- ==== Sys2Proof/Machine/Ops.lean ====
section
/-! DEFINITION. The named operations over the stores and the registers, taking a fault and returning from one
(60_exceptions.md R241, R243, R246), and reset (70_reset_and_hazards.md R280, R282). -/

namespace Sys2Proof.Machine

/-- The word listed under an index, if any. -/
def Store.get? : Store → Nat → Option Word
  | [], _ => none
  | (a, w) :: rest, k => if a = k then some w else Store.get? rest k

/-- List a word under an index, in the place that keeps the indices rising; an earlier word is replaced. -/
def Store.put : Store → Nat → Word → Store
  | [], k, w => [(k, w)]
  | (a, v) :: rest, k, w =>
    if k < a then (k, w) :: (a, v) :: rest
    else if k = a then (k, w) :: rest
    else (a, v) :: Store.put rest k w

/-- Take an index out of the list. -/
def Store.drop : Store → Nat → Store
  | [], _ => []
  | (a, v) :: rest, k => if a = k then rest else (a, v) :: Store.drop rest k

/-- Every index is above `lo`, and the indices rise strictly. -/
def Store.risingFrom : Option Nat → Store → Bool
  | _, [] => true
  | lo, (a, _) :: rest => (lo.all fun b => decide (b < a)) && Store.risingFrom (some a) rest

/-- The canonical form of a store: indices strictly rising. -/
def Store.wf (m : Store) : Bool := Store.risingFrom none m

/-- What a leaf that is not listed reads as (10_state.md R43, R48). -/
def Memory.unlisted : Word := 0

/-- Read a leaf (44_merkle.md R213). -/
def Memory.read (m : Memory) (i : Nat) : Word := (Store.get? m i).getD Memory.unlisted

/-- Write a leaf (44_merkle.md R212); a leaf that becomes what an unlisted one reads as leaves the list. -/
def Memory.write (m : Memory) (i : Nat) (w : Word) : Memory :=
  if w = Memory.unlisted then Store.drop m i else Store.put m i w

/-- The canonical form of the leaf memory: indices strictly rising, and no entry equal to what an unlisted leaf reads
as. -/
def Memory.wf (m : Memory) : Bool := Store.wf m && m.all fun e => decide (e.2 ≠ Memory.unlisted)

/-- The word of a field register, as a number (10_state.md R21). -/
def State.reg (s : State) (r : Reg) : Nat := (s.f[r.val]).toNat

/-- `f[r] <- n`: write a field register; every rule writes a number below p (00_scope.md R12). -/
def State.setReg (s : State) (r : Reg) (n : Nat) : State :=
  { s with f := s.f.set r.val (BitVec.ofNat 256 n) }

/-- The field value a register stands for (10_state.md R22). -/
def State.regVal (s : State) (r : Reg) : Nat := val (s.reg r)

/-- The register that holds state element `i` (10_state.md R26). -/
def elemReg (i : Nat) : Reg := Fin.ofNat 32 i

/-- The words of the state elements `f[0..n-1]` (10_state.md R26). -/
def State.elems (s : State) (n : Nat) : List Nat := (List.range n).map fun i => s.reg (elemReg i)

/-- The field values of the state elements `f[0..n-1]`. -/
def State.elemVals (s : State) (n : Nat) : List Nat := (List.range n).map fun i => s.regVal (elemReg i)

/-- Write words into a register file from place `i` on; what would fall beyond the last register is not written. -/
def writeFrom (f : Vector Word 32) (i : Nat) : List Nat → Vector Word 32
  | [] => f
  | w :: ws => writeFrom (f.setIfInBounds i (BitVec.ofNat 256 w)) (i + 1) ws

/-- Write the state elements `f[0], f[1], ...`; the registers beyond the list keep their words (10_state.md R26). -/
def State.setElems (s : State) (ws : List Nat) : State := { s with f := writeFrom s.f 0 ws }

/-- Where entry (row, col) of the round-constant store stands in its list. -/
def rcKey (row col : Nat) : Nat := Config.tmax * row + col

/-- `RC[row][col]`: the word of a written entry; no entry exists outside 128 rows by 24 columns (10_state.md R38). -/
def State.rcAt? (s : State) (row col : Nat) : Option Word :=
  if row < Config.nrMax ∧ col < Config.tmax then Store.get? s.rc (rcKey row col) else none

/-- `RC[row][col] <- w`; the entry becomes written (42_params.md R163). -/
def State.setRc (s : State) (row col : Nat) (w : Word) : State :=
  { s with rc := Store.put s.rc (rcKey row col) w }

/-- `DG[col]`: the word of a written entry; no entry exists beyond 24 (10_state.md R39). -/
def State.dgAt? (s : State) (col : Nat) : Option Word :=
  if col < Config.tmax then Store.get? s.dg col else none

/-- `DG[col] <- w`; the entry becomes written (42_params.md R164). -/
def State.setDg (s : State) (col : Nat) (w : Word) : State :=
  { s with dg := Store.put s.dg col w }

/-- `L[i]` (10_state.md R43). -/
def State.leafAt (s : State) (i : Nat) : Word := Memory.read s.leaf i

/-- `L[i] <- w` (44_merkle.md R212). -/
def State.setLeaf (s : State) (i : Nat) (w : Word) : State :=
  { s with leaf := Memory.write s.leaf i w }

/-- The code of a fault cause (60_exceptions.md R241). -/
def Cause.code : Cause → BitVec 8
  | .illegalCommand => 0x01
  | .paramsLocked => 0x02
  | .paramsNotCommitted => 0x03
  | .unsupportedStateWidth => 0x10
  | .unsupportedSboxDegree => 0x11
  | .oddFullRounds => 0x12
  | .constantTableShape => 0x13
  | .notInvertible => 0x20
  | .chunkLength => 0x30
  | .stateWidth => 0x31
  | .rawRange => 0x32
  | .indexRange => 0x33
  | .leafCount => 0x34

/-- The thirteen causes, in the order of 60_exceptions.md R241. -/
def Cause.all : List Cause :=
  [.illegalCommand, .paramsLocked, .paramsNotCommitted, .unsupportedStateWidth, .unsupportedSboxDegree, .oddFullRounds,
    .constantTableShape, .notInvertible, .chunkLength, .stateWidth, .rawRange, .indexRange, .leafCount]

/-- `raise E`, by a command whose word is `w` (60_exceptions.md R243): the three fault registers and nothing else. -/
def State.raise (s : State) (c : Cause) (w : Word32) : State :=
  { s with err := true, errcode := c.code, errcmd := w }

/-- `raise E` as the end of command `i` (60_exceptions.md R243, R244). The word recorded is the command's encoding, which
is the word the host wrote, since each command has one encoding (log entry 5). -/
def raiseBy (i : Instr) (s : State) (c : Cause) : Result := .next (s.raise c (encode i))

/-- The return from a fault, `CTRL.ERRCLR` (60_exceptions.md R246). -/
def State.clearFault (s : State) : State := { s with err := false, errcode := 0, errcmd := 0 }

/-- `reset` from any state (70_reset_and_hazards.md R280, R281): the unit's state becomes the reset state; what the host
will do next and what it has read are not the unit's and stay. -/
def State.resetUnit (s : State) : State := { State.reset with inputs := s.inputs, rdata := s.rdata }

/-- The mode check of a parameter command: RUN mode raises `ParamsLocked` (60_exceptions.md R248, R252). -/
def inConfig (i : Instr) (s : State) (k : Result) : Result :=
  if s.run then raiseBy i s .paramsLocked else k

/-- The mode check of a permutation or Merkle command: CONFIG mode raises `ParamsNotCommitted` (60_exceptions.md R248,
R252). -/
def inRun (i : Instr) (s : State) (k : Result) : Result :=
  if s.run then k else raiseBy i s .paramsNotCommitted

/-- An operand check: raise the cause where the condition holds, else go on (60_exceptions.md R244, R248). -/
def raiseIf (bad : Bool) (i : Instr) (s : State) (c : Cause) (k : Result) : Result :=
  if bad then raiseBy i s c else k

/-- The model's own stop where RUN mode finds a store that no PCOMMIT accepted (log entry 7). -/
def stopIf (g : Option Fault) (k : Result) : Result :=
  match g with
  | some e => .fault e
  | none => k

end Sys2Proof.Machine
end

