-- ==== Sys2Proof/Machine/Poseidon2.lean ====
section
/-! DEFINITION. The Poseidon2 permutation as functions over field values (43_poseidon2.md sections 1 to 4). A state is
the list s[0..t-1]. -/

namespace Sys2Proof.Machine

/-- One committed parameter set as the permutation reads it: `rc r c` and `dg c` are the stored constants as field
values (43_poseidon2.md, head). -/
structure PermParams where
  t : Nat
  d : Nat
  roundsF : Nat
  roundsP : Nat
  rc : Nat → Nat → Nat
  dg : Nat → Nat

/-- `Sbox(x)` = x^d mod p (43_poseidon2.md R181, 90_conflicts.md C1). -/
def sboxPow (d x : Nat) : Nat := x ^ d % Config.p

/-- The block M4, by the network of 43_poseidon2.md R187. -/
def m4 (x0 x1 x2 x3 : Nat) : List Nat :=
  let t0 := fadd x0 x1
  let t1 := fadd x2 x3
  let t2 := fadd (fdbl x1) t1
  let t3 := fadd (fdbl x3) t0
  let t4 := fadd (fdbl (fdbl t1)) t3
  let t5 := fadd (fdbl (fdbl t0)) t2
  let t6 := fadd t3 t5
  let t7 := fadd t2 t4
  [t6, t5, t7, t4]

/-- M4 on each consecutive group of 4 (43_poseidon2.md R188). -/
def m4Groups : List Nat → List Nat
  | x0 :: x1 :: x2 :: x3 :: rest => m4 x0 x1 x2 x3 ++ m4Groups rest
  | _ => []

/-- `cls[r]`: the sum over the groups of element `r` of each group (43_poseidon2.md R188). -/
def classSum (u : List Nat) (r : Nat) : Nat :=
  fsum ((List.range (u.length / 4)).map fun g => u.getD (4 * g + r) 0)

/-- `Ext_t(s)`, the external linear layer (43_poseidon2.md R186 for t = 2 and 3, R188 for the other widths). -/
def extLayer (t : Nat) (s : List Nat) : List Nat :=
  if t = 2 ∨ t = 3 then
    s.map fun x => fadd x (fsum s)
  else if t = 4 then
    m4Groups s
  else
    let u := m4Groups s
    u.mapIdx fun i x => fadd x (classSum u (i % 4))

/-- `Int_t(s)`, the internal linear layer (43_poseidon2.md R190 for t = 2 and 3, where the diagonal is not read; R191
for the other widths). -/
def intLayer (t : Nat) (dg : Nat → Nat) (s : List Nat) : List Nat :=
  if t = 2 then
    s.mapIdx fun i x => fadd (if i = 1 then fdbl x else x) (fsum s)
  else if t = 3 then
    s.mapIdx fun i x => fadd (if i = 2 then fdbl x else x) (fsum s)
  else
    s.mapIdx fun i x => fadd (fmul x (dg i)) (fsum s)

/-- Add row `r` of the round constants to every element (43_poseidon2.md R193, steps 2 and 4). -/
def addRow (c : PermParams) (r : Nat) (s : List Nat) : List Nat :=
  s.mapIdx fun i x => fadd x (c.rc r i)

/-- Replace element 0. -/
def onHead (g : Nat → Nat) : List Nat → List Nat
  | [] => []
  | x :: xs => g x :: xs

/-- One full round (43_poseidon2.md R193, steps 2 and 4). -/
def fullRound (c : PermParams) (r : Nat) (s : List Nat) : List Nat :=
  extLayer c.t ((addRow c r s).map (sboxPow c.d))

/-- One partial round: constant and S-box on element 0 only (43_poseidon2.md R193, step 3). -/
def partialRound (c : PermParams) (r : Nat) (s : List Nat) : List Nat :=
  intLayer c.t c.dg (onHead (sboxPow c.d) (onHead (fun x => fadd x (c.rc r 0)) s))

/-- Apply a round for the rows `start`, `start + 1`, ..., `start + n - 1` in order. -/
def runRounds (round : Nat → List Nat → List Nat) (start n : Nat) (s : List Nat) : List Nat :=
  (List.range n).foldl (fun acc j => round (start + j) acc) s

/-- `Perm(s)` (43_poseidon2.md R193): the initial external layer, the beginning full rounds, the partial rounds, the
ending full rounds. -/
def perm (c : PermParams) (s : List Nat) : List Nat :=
  let h := c.roundsF / 2
  let s1 := extLayer c.t s
  let s2 := runRounds (fullRound c) 0 h s1
  let s3 := runRounds (partialRound c) h c.roundsP s2
  runRounds (fullRound c) (h + c.roundsP) (c.roundsF - h) s3

/-- `compress(a, b)` = Perm([a, b, 0])[0] (44_merkle.md R210). -/
def compress (c : PermParams) (a b : Nat) : Nat := (perm c [a, b, 0]).headD 0

end Sys2Proof.Machine
end

