-- ==== Sys2Proof/Machine/Operands.lean ====
section
/-! DEFINITION. The implicit operands of the commands: the input and output chunks (20_memory.md R66), the scalar
parameters as numbers, the committed constants as the permutation reads them (43_poseidon2.md, head), the leaves. -/

namespace Sys2Proof.Machine

/-- The input chunk as a number: the sum of DIN[k] * 2^(32 (7 - k)) (20_memory.md R66, 10_state.md R44). -/
def State.chunk (s : State) : Nat :=
  ((List.finRange 8).map fun k : Fin 8 => (s.din[k.val]).toNat * 2 ^ (32 * (7 - k.val))).sum

/-- Whether all eight `DIN` words were written since the last load (10_state.md R44). -/
def State.chunkFull (s : State) : Bool := decide (s.dinm = 0xFF)

/-- `DINM <- 0` (40_field_move.md R121). -/
def State.clearDinm (s : State) : State := { s with dinm := 0 }

/-- `DOUT[k] <- x[255 - 32k : 224 - 32k]` for k = 0..7 (20_memory.md R66, 40_field_move.md R123). -/
def State.setDout (s : State) (x : Nat) : State :=
  { s with dout := Vector.ofFn fun k : Fin 8 => BitVec.ofNat 32 (slice x (224 - 32 * k.val) 32) }

/-- `P.t` as a number. -/
def State.t (s : State) : Nat := s.P.t.toNat

/-- `P.d` as a number. -/
def State.d (s : State) : Nat := s.P.d.toNat

/-- `P.rounds_f` as a number. -/
def State.roundsF (s : State) : Nat := s.P.roundsF.toNat

/-- `P.rounds_p` as a number. -/
def State.roundsP (s : State) : Nat := s.P.roundsP.toNat

/-- The number of rows of the table, `rounds_f + rounds_p` (42_params.md R165). -/
def State.rows (s : State) : Nat := s.roundsF + s.roundsP

/-- The word of `RC[row][col]` as a number. Read only where `State.constantsMissing` or its like found it written. -/
def State.rcWord (s : State) (row col : Nat) : Nat := ((s.rcAt? row col).getD 0).toNat

/-- The word of `DG[col]` as a number. Read only where it was found written. -/
def State.dgWord (s : State) (col : Nat) : Nat := ((s.dgAt? col).getD 0).toNat

/-- The parameter object the permutation reads (43_poseidon2.md, head; 42_params.md R167). -/
def State.permParams (s : State) : PermParams where
  t := s.t
  d := s.d
  roundsF := s.roundsF
  roundsP := s.roundsP
  rc r c := val (s.rcWord r c)
  dg c := val (s.dgWord c)

/-- The values of the leaves L[0..n-1] (44_merkle.md R215). -/
def State.leafVals (s : State) (n : Nat) : List Nat := (List.range n).map fun i => val (s.leafAt i).toNat

/-- Entries RC[row][0..n-1] are all written. -/
def State.rowWritten (s : State) (row n : Nat) : Bool := (List.range n).all fun c => (s.rcAt? row c).isSome

/-- Entries DG[0..n-1] are all written. -/
def State.diagWritten (s : State) (n : Nat) : Bool := (List.range n).all fun c => (s.dgAt? c).isSome

/-- Row `r` is used by a partial round, whose only constant is in column 0 (43_poseidon2.md R193). -/
def State.partialRow (s : State) (r : Nat) : Bool :=
  decide (s.roundsF / 2 ≤ r ∧ r < s.roundsF / 2 + s.roundsP)

/-- The stop of a command that needs a width of `TSET` (log entry 7). -/
def State.widthStop (s : State) : Option Fault :=
  if s.t ∈ Config.tset then none else some .widthOutsideTset

/-- The stop of a command that needs an exponent of `DSET` (log entry 7). -/
def State.degreeStop (s : State) : Option Fault :=
  if s.d ∈ Config.dset then none else some .degreeOutsideDset

/-- The stop of a command that reads RC[row][0..n-1] (log entry 7). -/
def State.rowStop (s : State) (row n : Nat) : Option Fault :=
  if s.rowWritten row n then none else some .unwrittenConstant

/-- The stop of the internal layer: its width, and the diagonal where it is read, that is for t >= 4
(10_state.md R39; log entry 7). -/
def State.diagStop (s : State) : Option Fault :=
  if s.t < 4 ∨ s.diagWritten s.t then none else some .unwrittenConstant

/-- The stop of a whole permutation: everything it reads (log entry 7). -/
def State.permStop (s : State) : Option Fault :=
  s.widthStop <|> s.degreeStop <|> (if s.roundsF % 2 = 0 then none else some .oddRounds) <|>
    (if (List.range s.rows).all fun r => s.rowWritten r (if s.partialRow r then 1 else s.t) then none
      else some .unwrittenConstant) <|> s.diagStop

end Sys2Proof.Machine
end

