-- ==== Sys2Proof/Machine/Flags.lean ====
section
/-! DEFINITION. The flags and the read-only registers made of them (10_state.md R28, R31, R32, R35), and the checks by
which PCOMMIT sets `RUN` (42_params.md R165). -/

namespace Sys2Proof.Machine

/-- `STATUS` (10_state.md R31): `ERR`, `RUN`, `EQF` in bits 0, 1, 2, `DINM` in [15:8], every other bit 0. -/
def State.statusWord (s : State) : Word32 :=
  0#16 ++ s.dinm ++ 0#5 ++ BitVec.ofBool s.eqf ++ BitVec.ofBool s.run ++ BitVec.ofBool s.err

/-- `ERRCODE` as a bus register: bits [31:8] read as 0 (10_state.md R32). -/
def State.errcodeWord (s : State) : Word32 := 0#24 ++ s.errcode

/-- `PCFG` (10_state.md R35): `P.t` in [4:0], `P.d` in [11:8], `P.rounds_f` in [23:16], `P.rounds_p` in [31:24]. -/
def State.pcfgWord (s : State) : Word32 := s.P.roundsP ++ s.P.roundsF ++ 0#4 ++ s.P.d ++ 0#3 ++ s.P.t

/-- `EQF <- b` (41_field_arith.md R148). -/
def State.setEqf (s : State) (b : Bool) : State := { s with eqf := b }

/-- The written `RC` entries are exactly rows 0..NR-1 by columns 0..t-1 (42_params.md R165, R166). -/
def State.rcShape (s : State) : Bool :=
  (List.range Config.nrMax).all fun r => (List.range Config.tmax).all fun c =>
    (s.rcAt? r c).isSome == decide (r < s.rows ∧ c < s.t)

/-- The written `DG` entries are exactly 0..t-1 (42_params.md R165, R166). -/
def State.dgShape (s : State) : Bool :=
  (List.range Config.tmax).all fun c => (s.dgAt? c).isSome == decide (c < s.t)

/-- PCOMMIT's checks of the store, the first that fails (42_params.md R165); `none` is a store that commits. -/
def State.commitFault (s : State) : Option Cause :=
  if s.t ∉ Config.tset then some .unsupportedStateWidth
  else if s.d ∉ Config.dset then some .unsupportedSboxDegree
  else if s.roundsF % 2 = 1 then some .oddFullRounds
  else if Config.nrMax < s.rows then some .constantTableShape
  else if s.rcShape = false then some .constantTableShape
  else if s.dgShape = false then some .constantTableShape
  else none

/-- `RUN <- 1` (42_params.md R165). -/
def State.enterRun (s : State) : State := { s with run := true }

end Sys2Proof.Machine
end

