-- ==== Sys2Proof/Machine/Arith.lean ====
section
/-! DEFINITION. Field arithmetic commands (41_field_arith.md), by the word-level rule of each. -/

namespace Sys2Proof.Machine

/-- ADD (R141). -/
def execAdd (fd fs1 fs2 : Reg) (s : State) : Result := .next (s.setReg fd (fadd (s.reg fs1) (s.reg fs2)))

/-- SUB (R142). -/
def execSub (fd fs1 fs2 : Reg) (s : State) : Result := .next (s.setReg fd (fsub (s.reg fs1) (s.reg fs2)))

/-- MUL (R143): the Montgomery product. -/
def execMul (fd fs1 fs2 : Reg) (s : State) : Result := .next (s.setReg fd (montMul (s.reg fs1) (s.reg fs2)))

/-- NEG (R144). -/
def execNeg (fd fs1 : Reg) (s : State) : Result := .next (s.setReg fd (fsub 0 (s.reg fs1)))

/-- DBL (R145). -/
def execDbl (fd fs1 : Reg) (s : State) : Result := .next (s.setReg fd (fdbl (s.reg fs1)))

/-- SQR (R146). -/
def execSqr (fd fs1 : Reg) (s : State) : Result := .next (s.setReg fd (montMul (s.reg fs1) (s.reg fs1)))

/-- INV (R147). -/
def execInv (fd fs1 : Reg) (s : State) : Result :=
  raiseIf (decide (s.reg fs1 = 0)) (.inv fd fs1) s .notInvertible <|
    .next (s.setReg fd (mont (finv (s.regVal fs1))))

/-- EQ (R148): compares the two words and writes `EQF`. -/
def execEq (fs1 fs2 : Reg) (s : State) : Result := .next (s.setEqf (decide (s.reg fs1 = s.reg fs2)))

end Sys2Proof.Machine
end

