-- ==== Sys2Proof/Machine/Tree.lean ====
section
/-! DEFINITION. The Merkle accumulator as a function over field values (44_merkle.md R214). -/

namespace Sys2Proof.Machine

/-- Double `b` while it is below `n` (44_merkle.md R214); `fuel` bounds the doublings. -/
def boundFrom (n : Nat) : (fuel b : Nat) → Nat
  | 0, b => b
  | fuel + 1, b => if b < n then boundFrom n fuel (2 * b) else b

/-- `bound`: the smallest power of 2 that is at least `n` and at least 2 (44_merkle.md R214). -/
def bound (n : Nat) : Nat := boundFrom n n 2

/-- The padded working list: the leaves, then copies of the last leaf (44_merkle.md R214). -/
def padLeaves (leaves : List Nat) : List Nat :=
  leaves ++ List.replicate (bound leaves.length - leaves.length) (leaves.getLastD 0)

/-- One level: each pair (nodes[2i], nodes[2i+1]) becomes one node (44_merkle.md R214). -/
def pairUp (cmp : Nat → Nat → Nat) : List Nat → List Nat
  | a :: b :: rest => cmp a b :: pairUp cmp rest
  | _ => []

/-- Levels until one node remains (44_merkle.md R214); `fuel` bounds the levels. -/
def foldNodes (cmp : Nat → Nat → Nat) : (fuel : Nat) → List Nat → List Nat
  | 0, nodes => nodes
  | fuel + 1, nodes => if 1 < nodes.length then foldNodes cmp fuel (pairUp cmp nodes) else nodes

/-- `accumulate(leaves)` for at least one leaf (44_merkle.md R214). -/
def accumulate (c : PermParams) (leaves : List Nat) : Nat :=
  let nodes := padLeaves leaves
  (foldNodes (compress c) nodes.length nodes).headD 0

end Sys2Proof.Machine
end

