-- ==== Sys2Proof/Machine/Merkle.lean ====
section
/-! DEFINITION. Merkle commands (44_merkle.md section 2). -/

namespace Sys2Proof.Machine

/-- CMPR (R211): one 2-to-1 compression on a private state. -/
def execCmpr (fd fs1 fs2 : Reg) (s : State) : Result :=
  inRun (.cmpr fd fs1 fs2) s <|
    raiseIf (decide (s.t ≠ Config.merkleT)) (.cmpr fd fs1 fs2) s .stateWidth <|
      stopIf s.permStop <|
        .next (s.setReg fd (mont (compress s.permParams (s.regVal fs1) (s.regVal fs2))))

/-- LWR (R212): write a leaf. -/
def execLwr (fs : Reg) (idx : Nat) (s : State) : Result :=
  raiseIf (decide (Config.lmax ≤ idx)) (.lwr fs idx) s .indexRange <|
    .next (s.setLeaf idx s.f[fs.val])

/-- LRD (R213): read a leaf back. -/
def execLrd (fd : Reg) (idx : Nat) (s : State) : Result :=
  raiseIf (decide (Config.lmax ≤ idx)) (.lrd fd idx) s .indexRange <|
    .next (s.setReg fd (s.leafAt idx).toNat)

/-- ACCUM (R215): the root of the first `n` leaves. -/
def execAccum (fd : Reg) (n : Nat) (s : State) : Result :=
  inRun (.accum fd n) s <|
    raiseIf (decide (s.t ≠ Config.merkleT)) (.accum fd n) s .stateWidth <|
      raiseIf (decide (n = 0 ∨ Config.lmax < n)) (.accum fd n) s .leafCount <|
        stopIf s.permStop <|
          .next (s.setReg fd (mont (accumulate s.permParams (s.leafVals n))))

end Sys2Proof.Machine
end

