-- ==== Sys2Proof/Machine/Move.lean ====
section
/-! DEFINITION. Data movement and representation commands (40_field_move.md). -/

namespace Sys2Proof.Machine

/-- NOP (R120). -/
def execNop (s : State) : Result := .next s

/-- LDC (R121): the chunk reduced mod p, in the accelerated encoding. -/
def execLdc (fd : Reg) (s : State) : Result :=
  raiseIf (!s.chunkFull) (.ldc fd) s .chunkLength <|
    .next (s.setReg fd (mont (s.chunk % Config.p))).clearDinm

/-- LDR (R122): the chunk as it is, refused when it is not below p. -/
def execLdr (fd : Reg) (s : State) : Result :=
  raiseIf (!s.chunkFull) (.ldr fd) s .chunkLength <|
    raiseIf (decide (Config.p ≤ s.chunk)) (.ldr fd) s .rawRange <|
      .next (s.setReg fd s.chunk).clearDinm

/-- STC (R123): the canonical residue to `DOUT`. -/
def execStc (fs : Reg) (s : State) : Result := .next (s.setDout (s.regVal fs))

/-- STR (R124): the word to `DOUT`. -/
def execStr (fs : Reg) (s : State) : Result := .next (s.setDout (s.reg fs))

/-- LDI (R125). -/
def execLdi (fd : Reg) (imm : Nat) (s : State) : Result := .next (s.setReg fd (mont imm))

/-- MOV (R126). -/
def execMov (fd fs1 : Reg) (s : State) : Result := .next (s.setReg fd (s.reg fs1))

/-- TOMONT (R127). -/
def execTomont (fd fs1 : Reg) (s : State) : Result := .next (s.setReg fd (mont (s.reg fs1)))

/-- FROMMONT (R128). -/
def execFrommont (fd fs1 : Reg) (s : State) : Result := .next (s.setReg fd (val (s.reg fs1)))

end Sys2Proof.Machine
end

