-- ==== Sys2Proof/Machine/ParamStore.lean ====
section
/-! DEFINITION. Parameter commands (42_params.md). -/

namespace Sys2Proof.Machine

/-- PSETTD (R161). -/
def execPsettd (t d : Nat) (s : State) : Result :=
  inConfig (.psettd t d) s <| .next { s with P := { s.P with t := BitVec.ofNat 5 t, d := BitVec.ofNat 4 d } }

/-- PSETRND (R162). -/
def execPsetrnd (roundsF roundsP : Nat) (s : State) : Result :=
  inConfig (.psetrnd roundsF roundsP) s <|
    .next { s with P := { s.P with roundsF := BitVec.ofNat 8 roundsF, roundsP := BitVec.ofNat 8 roundsP } }

/-- PSETRC (R163). -/
def execPsetrc (fs : Reg) (row col : Nat) (s : State) : Result :=
  inConfig (.psetrc fs row col) s <|
    raiseIf (decide (Config.tmax ≤ col)) (.psetrc fs row col) s .indexRange <|
      .next (s.setRc row col s.f[fs.val])

/-- PSETDG (R164). -/
def execPsetdg (fs : Reg) (col : Nat) (s : State) : Result :=
  inConfig (.psetdg fs col) s <|
    raiseIf (decide (Config.tmax ≤ col)) (.psetdg fs col) s .indexRange <|
      .next (s.setDg col s.f[fs.val])

/-- PCOMMIT (R165). -/
def execPcommit (s : State) : Result :=
  inConfig .pcommit s <|
    match s.commitFault with
    | some c => raiseBy .pcommit s c
    | none => .next s.enterRun

end Sys2Proof.Machine
end

