-- ==== Sys2Proof/Machine/Permutation.lean ====
section
/-! DEFINITION. Permutation commands (43_poseidon2.md section 5). Each checks the mode first. -/

namespace Sys2Proof.Machine

/-- ARC (R182): add row `row` of the round constants to the whole state, word by word. -/
def execArc (row : Nat) (s : State) : Result :=
  inRun (.arc row) s <|
    raiseIf (decide (s.rows ≤ row)) (.arc row) s .indexRange <|
      stopIf (s.rowStop row s.t) <|
        .next (s.setElems ((s.elems s.t).mapIdx fun i w => fadd w (s.rcWord row i)))

/-- ARCP (R183): add column 0 of row `row` to element 0. -/
def execArcp (row : Nat) (s : State) : Result :=
  inRun (.arcp row) s <|
    raiseIf (decide (s.rows ≤ row)) (.arcp row) s .indexRange <|
      stopIf (s.rowStop row 1) <|
        .next (s.setReg 0 (fadd (s.reg 0) (s.rcWord row 0)))

/-- SBOX (R184): the S-box of one register. -/
def execSbox (fd fs1 : Reg) (s : State) : Result :=
  inRun (.sbox fd fs1) s <|
    stopIf s.degreeStop <|
      .next (s.setReg fd (mont (sboxPow s.d (s.regVal fs1))))

/-- SBOXF (R185): the S-box of every state element. -/
def execSboxf (s : State) : Result :=
  inRun .sboxf s <|
    stopIf s.degreeStop <|
      .next (s.setElems ((s.elemVals s.t).map fun v => mont (sboxPow s.d v)))

/-- MEXT (R189): the external linear layer. -/
def execMext (s : State) : Result :=
  inRun .mext s <|
    stopIf s.widthStop <|
      .next (s.setElems ((extLayer s.t (s.elemVals s.t)).map mont))

/-- MINT (R192): the internal linear layer. -/
def execMint (s : State) : Result :=
  inRun .mint s <|
    stopIf (s.widthStop <|> s.diagStop) <|
      .next (s.setElems ((intLayer s.t s.permParams.dg (s.elemVals s.t)).map mont))

/-- PERM (R194): the whole permutation, in place. -/
def execPerm (w : Nat) (s : State) : Result :=
  inRun (.perm w) s <|
    raiseIf (decide (w ≠ s.t)) (.perm w) s .stateWidth <|
      stopIf s.permStop <|
        .next (s.setElems ((perm s.permParams (s.elemVals s.t)).map mont))

end Sys2Proof.Machine
end

