-- ==== Sys2Proof/Machine/Dispatch.lean ====
section
/-! DEFINITION. The dispatch of a decoded command to its meaning (30_encoding.md R98). -/

namespace Sys2Proof.Machine

def exec (i : Instr) (s : State) : Host.Outcome State Fault Refusal :=
  match i with
  | .nop => Sys2Proof.Machine.execNop s
  | .ldc fd => Sys2Proof.Machine.execLdc fd s
  | .ldr fd => Sys2Proof.Machine.execLdr fd s
  | .stc fs => Sys2Proof.Machine.execStc fs s
  | .str fs => Sys2Proof.Machine.execStr fs s
  | .ldi fd imm => Sys2Proof.Machine.execLdi fd imm s
  | .mov fd fs1 => Sys2Proof.Machine.execMov fd fs1 s
  | .tomont fd fs1 => Sys2Proof.Machine.execTomont fd fs1 s
  | .frommont fd fs1 => Sys2Proof.Machine.execFrommont fd fs1 s
  | .add fd fs1 fs2 => Sys2Proof.Machine.execAdd fd fs1 fs2 s
  | .sub fd fs1 fs2 => Sys2Proof.Machine.execSub fd fs1 fs2 s
  | .mul fd fs1 fs2 => Sys2Proof.Machine.execMul fd fs1 fs2 s
  | .neg fd fs1 => Sys2Proof.Machine.execNeg fd fs1 s
  | .dbl fd fs1 => Sys2Proof.Machine.execDbl fd fs1 s
  | .sqr fd fs1 => Sys2Proof.Machine.execSqr fd fs1 s
  | .inv fd fs1 => Sys2Proof.Machine.execInv fd fs1 s
  | .eq fs1 fs2 => Sys2Proof.Machine.execEq fs1 fs2 s
  | .psettd t d => Sys2Proof.Machine.execPsettd t d s
  | .psetrnd roundsF roundsP => Sys2Proof.Machine.execPsetrnd roundsF roundsP s
  | .psetrc fs row col => Sys2Proof.Machine.execPsetrc fs row col s
  | .psetdg fs col => Sys2Proof.Machine.execPsetdg fs col s
  | .pcommit => Sys2Proof.Machine.execPcommit s
  | .arc row => Sys2Proof.Machine.execArc row s
  | .arcp row => Sys2Proof.Machine.execArcp row s
  | .sbox fd fs1 => Sys2Proof.Machine.execSbox fd fs1 s
  | .sboxf => Sys2Proof.Machine.execSboxf s
  | .mext => Sys2Proof.Machine.execMext s
  | .mint => Sys2Proof.Machine.execMint s
  | .perm w => Sys2Proof.Machine.execPerm w s
  | .cmpr fd fs1 fs2 => Sys2Proof.Machine.execCmpr fd fs1 fs2 s
  | .lwr fs idx => Sys2Proof.Machine.execLwr fs idx s
  | .lrd fd idx => Sys2Proof.Machine.execLrd fd idx s
  | .accum fd n => Sys2Proof.Machine.execAccum fd n s

end Sys2Proof.Machine
end

