-- ==== Sys2Proof/Machine/Bus.lean ====
section
/-! DEFINITION. The bus window (20_memory.md): the address map R62, the two transactions R63 and R64, the accesses that
are none (R68), the byte view R65, and what one input of the host does. -/

namespace Sys2Proof.Machine

/-- The registers of the window (20_memory.md R62). -/
inductive BusReg where
  | id
  | status
  | errcode
  | errcmd
  | ctrl
  | pcfg
  | cmd
  | din (k : Fin 8)
  | dout (k : Fin 8)
  | reserved
deriving DecidableEq, Repr

/-- The register at a 4-aligned offset of the window (20_memory.md R62). -/
def busReg (off : Nat) : BusReg :=
  if off = 0x00 then .id
  else if off = 0x04 then .status
  else if off = 0x08 then .errcode
  else if off = 0x0C then .errcmd
  else if off = 0x10 then .ctrl
  else if off = 0x14 then .pcfg
  else if off = 0x18 then .cmd
  else if 0x20 ≤ off ∧ off ≤ 0x3C then .din (Fin.ofNat 8 ((off - 0x20) / 4))
  else if 0x40 ≤ off ∧ off ≤ 0x5C then .dout (Fin.ofNat 8 ((off - 0x40) / 4))
  else .reserved

/-- What a read of a register returns (20_memory.md R63). -/
def State.busValue (s : State) : BusReg → Word32
  | .id => Config.id
  | .status => s.statusWord
  | .errcode => s.errcodeWord
  | .errcmd => s.errcmd
  | .ctrl => 0
  | .pcfg => s.pcfgWord
  | .cmd => 0
  | .din k => s.din[k.val]
  | .dout k => s.dout[k.val]
  | .reserved => 0

/-- `MemRead(off, 4)` (20_memory.md R63): the value goes to the host; no state of the unit changes. -/
def memRead (off : Nat) (s : State) : State := { s with rdata := s.busValue (busReg off) :: s.rdata }

/-- `execute(v)` (30_encoding.md R98): decode and run, or raise `IllegalCommand` (R96). -/
def execute (v : Word32) (s : State) : Result :=
  match decode v with
  | .ok i => exec i s
  | .error _ => .next (s.raise .illegalCommand v)

/-- A write to `CTRL` (20_memory.md R64, 10_state.md R34). -/
def writeCtrl (v : Word32) (s : State) : State :=
  if v.getLsbD 0 then s.resetUnit
  else if v.getLsbD 1 then s.clearFault
  else s

/-- A write to `CMD` (20_memory.md R64): the command runs, or is dropped while `ERR` = 1 (60_exceptions.md R245). -/
def writeCmd (v : Word32) (s : State) : Result := if s.err then .next s else execute v s

/-- A write to `DINk` (20_memory.md R64, 10_state.md R44). -/
def writeDin (k : Fin 8) (v : Word32) (s : State) : State :=
  { s with din := s.din.set k.val v, dinm := s.dinm ||| BitVec.ofNat 8 (2 ^ k.val) }

/-- `MemWrite(off, 4, v)` (20_memory.md R64). -/
def memWrite (off : Nat) (v : Word32) (s : State) : Result :=
  match busReg off with
  | .ctrl => .next (writeCtrl v s)
  | .cmd => writeCmd v s
  | .din k => .next (writeDin k v s)
  | .id => .next s
  | .status => .next s
  | .errcode => .next s
  | .errcmd => .next s
  | .pcfg => .next s
  | .dout _ => .next s
  | .reserved => .next s

/-- Why an access is no transaction of the unit, if it is none (20_memory.md R67, R68; log entry 8). -/
def accessRefusal (off n : Nat) : Option Refusal :=
  if n ≠ 4 then some (.accessWidth n)
  else if Config.windowBytes ≤ off then some (.outsideWindow off)
  else if off % 4 ≠ 0 then some (.misalignedAccess off)
  else none

/-- A transaction, or the refusal of an access that is none. -/
def transaction (off n : Nat) (k : Result) : Result :=
  match accessRefusal off n with
  | some r => .refused r
  | none => k

/-- One input of the host, done completely before the next (20_memory.md R70, R71). -/
def busStep (x : HostInput) (s : State) : Result :=
  match x with
  | .read off n => transaction off n (.next (memRead off s))
  | .write off n v => transaction off n (memWrite off v s)
  | .hardReset => .next s.resetUnit

/-- The next input of the host, or idle: between transactions nothing happens (60_exceptions.md R255; log entry 3). -/
def nextInput (s : State) : Result :=
  match s.inputs with
  | [] => .next s
  | x :: rest => busStep x { s with inputs := rest }

/-- The host's next transaction writes this word to `CMD`, and no unacknowledged fault drops it: how the host has a
command run (20_memory.md R64, 60_exceptions.md R245; log entry 4). -/
def State.issueCommand (s : State) (w : Word32) : State :=
  let ready := if s.err then s.clearFault else s
  { ready with inputs := .write 0x18 4 w :: s.inputs }

/-- The offset in the window of an address of the host's, where the address is in the window (20_memory.md R61). -/
def windowOffset? (addr : Nat) : Option Nat :=
  if Config.base ≤ addr ∧ addr < Config.base + Config.windowBytes then some (addr - Config.base) else none

/-- The byte-addressed view of the window: the byte at offset `o` (20_memory.md R65). -/
def State.windowByte (s : State) (o : Nat) : Byte := byteOf32 (s.busValue (busReg (o - o % 4))) (o % 4)

end Sys2Proof.Machine
end

