-- ==== Sys2Proof/Machine/Step.lean ====
section
/-! DEFINITION. One step of the machine: the host's next input and all of its effect (20_memory.md R70). -/

namespace Sys2Proof.Machine

/-- One step (20_memory.md R70, R71). -/
def step (s : State) : Host.Outcome State Fault Refusal := nextInput s

/-- `s` with the instruction whose bits are `w` placed where the next step takes its command from: the host's next
transaction is the write of that word to `CMD` (log entry 4). -/
def State.withFetchWord (s : State) (nbits w : Nat) : State := s.issueCommand (tableWord nbits w)

end Sys2Proof.Machine
end

