-- ==== Sys2Proof/Machine/Pseudo.lean ====
section
/-! DEFINITION. The pseudo-instructions of 30_encoding.md R101 as what the host issues: each is a list of bus
transactions (R100). -/

namespace Sys2Proof.Machine

/-- A command line of a listing: the write of its word to `CMD` (30_encoding.md R100). -/
def issue (i : Instr) : HostInput := .write 0x18 4 (encode i)

/-- `ZERO fd` (30_encoding.md R101). -/
def pseudoZero (fd : Reg) : List HostInput := [issue (.ldi fd 0)]

/-- `ONE fd` (30_encoding.md R101). -/
def pseudoOne (fd : Reg) : List HostInput := [issue (.ldi fd 1)]

/-- `SBOX0` (30_encoding.md R101). -/
def pseudoSbox0 : List HostInput := [issue (.sbox 0 0)]

/-- `SETDIN x`: eight `DIN` writes (30_encoding.md R101). DESIGN CHOICE: R101 leaves the order among the eight free; here
it is k = 0 to 7, the most significant word first (log entry 17). -/
def pseudoSetdin (x : Nat) : List HostInput :=
  (List.range 8).map fun k => .write (0x20 + 4 * k) 4 (BitVec.ofNat 32 (slice x (224 - 32 * k) 32))

/-- `LDV fd, x` (30_encoding.md R101). -/
def pseudoLdv (fd : Reg) (x : Nat) : List HostInput := pseudoSetdin x ++ [issue (.ldc fd)]

/-- `LDVR fd, x` (30_encoding.md R101). -/
def pseudoLdvr (fd : Reg) (x : Nat) : List HostInput := pseudoSetdin x ++ [issue (.ldr fd)]

/-- `GETDOUT`: eight `DOUT` reads (30_encoding.md R101). -/
def pseudoGetdout : List HostInput := (List.range 8).map fun k => .read (0x40 + 4 * k) 4

/-- The value the host makes of the words of `GETDOUT`, first word read first (30_encoding.md R101). -/
def doutValue (words : List Word32) : Nat := words.foldl (fun acc w => acc * 2 ^ 32 + w.toNat) 0

/-- `STV fs` (30_encoding.md R101). -/
def pseudoStv (fs : Reg) : List HostInput := issue (.stc fs) :: pseudoGetdout

/-- `ERRCLR` (30_encoding.md R101). -/
def pseudoErrclr : List HostInput := [.write 0x10 4 0x2]

/-- `SRST` (30_encoding.md R101). -/
def pseudoSrst : List HostInput := [.write 0x10 4 0x1]

end Sys2Proof.Machine
end

