-- ==== Sys2Proof/Safety.lean ====
section
/-! DEFINITION. What counts as a good state and as a small effect, in the terms the statements use: the invariant that
10_state.md R23, R32, R33, R37, R38, R39, R40 and R43 give, and frames. -/

namespace Sys2Proof.Machine

/-- Every field register holds a word in [0, p) (10_state.md R23). -/
def State.RegsBelowP (s : State) : Prop := ∀ r : Reg, s.reg r < Config.p

/-- Every word a store lists is in [0, p) (10_state.md R38, R39, R43). -/
def Store.BelowP (m : Store) : Prop := ∀ e ∈ m, e.2.toNat < Config.p

/-- Every index a store lists is below its size (20_memory.md R60). -/
def Store.Within (size : Nat) (m : Store) : Prop := ∀ e ∈ m, e.1 < size

/-- The number of entries of the round-constant store (20_memory.md R60). -/
def rcSize : Nat := Config.nrMax * Config.tmax

/-- The store passes every check of PCOMMIT (42_params.md R165). -/
def State.Committable (s : State) : Prop := s.commitFault = none

/-- The invariant of the unit. `keeps` statements say that every step keeps it; `State.reset` has it. -/
structure Inv (s : State) : Prop where
  /-- registers hold words below p (10_state.md R23) -/
  regs : s.RegsBelowP
  /-- leaves hold words below p (10_state.md R43) -/
  leafBelow : Store.BelowP s.leaf
  /-- the leaf memory is in canonical form -/
  leafWf : Memory.wf s.leaf = true
  /-- the leaf memory has 1024 entries (10_state.md R43) -/
  leafWithin : Store.Within Config.lmax s.leaf
  /-- round constants are words below p (10_state.md R38) -/
  rcBelow : Store.BelowP s.rc
  /-- the round-constant store is in canonical form -/
  rcWf : Store.wf s.rc = true
  /-- the round-constant store has 128 rows of 24 entries (10_state.md R38) -/
  rcWithin : Store.Within rcSize s.rc
  /-- the diagonal holds words below p (10_state.md R39) -/
  dgBelow : Store.BelowP s.dg
  /-- the diagonal store is in canonical form -/
  dgWf : Store.wf s.dg = true
  /-- the diagonal store has 24 entries (10_state.md R39) -/
  dgWithin : Store.Within Config.tmax s.dg
  /-- without a fault the fault registers read 0 (10_state.md R32, R33) -/
  noFault : s.err = false → s.errcode = 0 ∧ s.errcmd = 0
  /-- with a fault the code is one of the thirteen (60_exceptions.md R241) -/
  faultCode : s.err = true → ∃ c ∈ Cause.all, s.errcode = c.code
  /-- in RUN mode the store is one that PCOMMIT accepted (10_state.md R37, R40; 42_params.md R167) -/
  runStore : s.run = true → s.Committable

/-- No entry of the leaf memory, the round-constant store or the diagonal store reads differently. -/
def SameStores (s t : State) : Prop :=
  (∀ i, t.leafAt i = s.leafAt i) ∧ (∀ r c, t.rcAt? r c = s.rcAt? r c) ∧ ∀ c, t.dgAt? c = s.dgAt? c

/-- Between `s` and `t` only register `fd` may differ: every other register, flag, mode, fault register, parameter, store
entry and buffer is unchanged. -/
def OnlyReg (fd : Reg) (s t : State) : Prop :=
  (∀ r, r ≠ fd → t.reg r = s.reg r) ∧ SameStores s t ∧ t = { s with f := t.f }

/-- Between `s` and `t` only the state elements `f[0..n-1]` may differ (10_state.md R26). -/
def OnlyElems (n : Nat) (s t : State) : Prop :=
  (∀ r : Reg, n ≤ r.val → t.reg r = s.reg r) ∧ SameStores s t ∧ t = { s with f := t.f }

/-- Between `s` and `t` only the output chunk may differ. -/
def OnlyDout (s t : State) : Prop := SameStores s t ∧ t = { s with dout := t.dout }

/-- The number that lies over `DOUT[0..7]` (20_memory.md R66), as the host puts the words together (30_encoding.md
R101). -/
def State.doutChunk (s : State) : Nat := doutValue s.dout.toList

/-- The fault registers after `raise c` by a command whose word is `w`, everything else as before (60_exceptions.md R243,
R244). -/
def Raises (c : Cause) (w : Word32) (s t : State) : Prop :=
  t.err = true ∧ t.errcode = c.code ∧ t.errcmd = w ∧ SameStores s t ∧
    t = { s with err := t.err, errcode := t.errcode, errcmd := t.errcmd }

/-- The causes a command can raise, in the order it checks them (60_exceptions.md R242; an inference the spec marks as
derived). -/
def causesOf : Instr → List Cause
  | .nop => []
  | .ldc _ => [.chunkLength]
  | .ldr _ => [.chunkLength, .rawRange]
  | .stc _ => []
  | .str _ => []
  | .ldi _ _ => []
  | .mov _ _ => []
  | .tomont _ _ => []
  | .frommont _ _ => []
  | .add _ _ _ => []
  | .sub _ _ _ => []
  | .mul _ _ _ => []
  | .neg _ _ => []
  | .dbl _ _ => []
  | .sqr _ _ => []
  | .inv _ _ => [.notInvertible]
  | .eq _ _ => []
  | .psettd _ _ => [.paramsLocked]
  | .psetrnd _ _ => [.paramsLocked]
  | .psetrc _ _ _ => [.paramsLocked, .indexRange]
  | .psetdg _ _ => [.paramsLocked, .indexRange]
  | .pcommit =>
    [.paramsLocked, .unsupportedStateWidth, .unsupportedSboxDegree, .oddFullRounds, .constantTableShape]
  | .arc _ => [.paramsNotCommitted, .indexRange]
  | .arcp _ => [.paramsNotCommitted, .indexRange]
  | .sbox _ _ => [.paramsNotCommitted]
  | .sboxf => [.paramsNotCommitted]
  | .mext => [.paramsNotCommitted]
  | .mint => [.paramsNotCommitted]
  | .perm _ => [.paramsNotCommitted, .stateWidth]
  | .cmpr _ _ _ => [.paramsNotCommitted, .stateWidth]
  | .lwr _ _ => [.indexRange]
  | .lrd _ _ => [.indexRange]
  | .accum _ _ => [.paramsNotCommitted, .stateWidth, .leafCount]

/-- Write command words to `CMD` one after another, stopping at the first write that does not answer a next state. -/
def writeCmds : List Word32 → State → Result
  | [], s => .next s
  | w :: rest, s =>
    match writeCmd w s with
    | .next t => writeCmds rest t
    | .fault e => .fault e
    | .refused e => .refused e

/-- The micro-operations PERM is made of (43_poseidon2.md R196; an inference the spec marks as derived). -/
def permMicroOps (roundsF roundsP : Nat) : List Instr :=
  let h := roundsF / 2
  let full := fun r => [Instr.arc r, .sboxf, .mext]
  let part := fun r => [Instr.arcp r, .sbox 0 0, .mint]
  [Instr.mext] ++ (List.range h).flatMap full ++ (List.range roundsP).flatMap (fun j => part (h + j))
    ++ (List.range (roundsF - h)).flatMap (fun j => full (h + roundsP + j))

/-- Entry (i, j) of the matrix of the block M4 (43_poseidon2.md R187). -/
def m4Coeff (i j : Nat) : Nat :=
  (([[5, 7, 1, 3], [4, 6, 1, 1], [1, 3, 5, 7], [1, 1, 4, 6]] : List (List Nat)).getD i []).getD j 0

/-- Entry (i, j) of the matrix of the external layer of width `t`: circ(2, 1) and circ(2, 1, 1) (43_poseidon2.md R186),
M4 (R187), and for t >= 8 the block matrix with 2 M4 on the diagonal and M4 elsewhere (R188). -/
def extCoeff (t i j : Nat) : Nat :=
  if t = 2 ∨ t = 3 then (if i = j then 2 else 1)
  else if t = 4 then m4Coeff i j
  else (if i / 4 = j / 4 then 2 else 1) * m4Coeff (i % 4) (j % 4)

/-- Entry (i, j) of the fixed matrices of the internal layer of width 2 and 3 (43_poseidon2.md R190). -/
def intCoeff (t i j : Nat) : Nat :=
  if i = j then (if i + 1 = t then 3 else 2) else 1

/-- The commands that only RUN mode runs (60_exceptions.md R252). -/
def needsRun : Instr → Bool
  | .arc _ => true
  | .arcp _ => true
  | .sbox _ _ => true
  | .sboxf => true
  | .mext => true
  | .mint => true
  | .perm _ => true
  | .cmpr _ _ _ => true
  | .accum _ _ => true
  | .nop => false
  | .ldc _ => false
  | .ldr _ => false
  | .stc _ => false
  | .str _ => false
  | .ldi _ _ => false
  | .mov _ _ => false
  | .tomont _ _ => false
  | .frommont _ _ => false
  | .add _ _ _ => false
  | .sub _ _ _ => false
  | .mul _ _ _ => false
  | .neg _ _ => false
  | .dbl _ _ => false
  | .sqr _ _ => false
  | .inv _ _ => false
  | .eq _ _ => false
  | .psettd _ _ => false
  | .psetrnd _ _ => false
  | .psetrc _ _ _ => false
  | .psetdg _ _ => false
  | .pcommit => false
  | .lwr _ _ => false
  | .lrd _ _ => false

/-- The commands that only CONFIG mode runs (60_exceptions.md R252). -/
def needsConfig : Instr → Bool
  | .psettd _ _ => true
  | .psetrnd _ _ => true
  | .psetrc _ _ _ => true
  | .psetdg _ _ => true
  | .pcommit => true
  | .arc _ => false
  | .arcp _ => false
  | .sbox _ _ => false
  | .sboxf => false
  | .mext => false
  | .mint => false
  | .perm _ => false
  | .cmpr _ _ _ => false
  | .accum _ _ => false
  | .nop => false
  | .ldc _ => false
  | .ldr _ => false
  | .stc _ => false
  | .str _ => false
  | .ldi _ _ => false
  | .mov _ _ => false
  | .tomont _ _ => false
  | .frommont _ _ => false
  | .add _ _ _ => false
  | .sub _ _ _ => false
  | .mul _ _ _ => false
  | .neg _ _ => false
  | .dbl _ _ => false
  | .sqr _ _ => false
  | .inv _ _ => false
  | .eq _ _ => false
  | .lwr _ _ => false
  | .lrd _ _ => false

/-- The register a command names as its destination; ARCP's is `f[0]` (10_state.md R24; the rules of files 40 to 44). -/
def destReg : Instr → Option Reg
  | .nop => none
  | .ldc fd => some fd
  | .ldr fd => some fd
  | .stc _ => none
  | .str _ => none
  | .ldi fd _ => some fd
  | .mov fd _ => some fd
  | .tomont fd _ => some fd
  | .frommont fd _ => some fd
  | .add fd _ _ => some fd
  | .sub fd _ _ => some fd
  | .mul fd _ _ => some fd
  | .neg fd _ => some fd
  | .dbl fd _ => some fd
  | .sqr fd _ => some fd
  | .inv fd _ => some fd
  | .eq _ _ => none
  | .psettd _ _ => none
  | .psetrnd _ _ => none
  | .psetrc _ _ _ => none
  | .psetdg _ _ => none
  | .pcommit => none
  | .arc _ => none
  | .arcp _ => some 0
  | .sbox fd _ => some fd
  | .sboxf => none
  | .mext => none
  | .mint => none
  | .perm _ => none
  | .cmpr fd _ _ => some fd
  | .lwr _ _ => none
  | .lrd fd _ => some fd
  | .accum fd _ => some fd

/-- The commands that write the state elements `f[0..t-1]` (10_state.md R24, R26). -/
def writesElems : Instr → Bool
  | .nop => false
  | .ldc _ => false
  | .ldr _ => false
  | .stc _ => false
  | .str _ => false
  | .ldi _ _ => false
  | .mov _ _ => false
  | .tomont _ _ => false
  | .frommont _ _ => false
  | .add _ _ _ => false
  | .sub _ _ _ => false
  | .mul _ _ _ => false
  | .neg _ _ => false
  | .dbl _ _ => false
  | .sqr _ _ => false
  | .inv _ _ => false
  | .eq _ _ => false
  | .psettd _ _ => false
  | .psetrnd _ _ => false
  | .psetrc _ _ _ => false
  | .psetdg _ _ => false
  | .pcommit => false
  | .arc _ => true
  | .arcp _ => false
  | .sbox _ _ => false
  | .sboxf => true
  | .mext => true
  | .mint => true
  | .perm _ => true
  | .cmpr _ _ _ => false
  | .lwr _ _ => false
  | .lrd _ _ => false
  | .accum _ _ => false

/-- Command `i` at state `s` answers the next state that `raise c` gives, and nothing else (60_exceptions.md R243). -/
def FaultsWith (i : Instr) (s : State) (c : Cause) : Prop :=
  ∃ t, exec i s = .next t ∧ Raises c (encode i) s t

/-- The sum of `g 0`, ..., `g (n - 1)`. -/
def sumTo (n : Nat) (g : Nat → Nat) : Nat := ((List.range n).map g).sum

/-- Entry (i, j) of the matrix of the internal layer of the committed width: the fixed matrix for t = 2 and 3
(43_poseidon2.md R190), else all ones plus the diagonal of the store (R191). -/
def State.intMatrix (s : State) (i j : Nat) : Nat :=
  if s.t < 4 then intCoeff s.t i j else if i = j then val (s.dgWord i) + 1 else 1

/-- Element `i` after one round `r` on the elements `x`, as matrix products: constants and S-box on every element and
the external matrix in a full round, on element 0 and the internal matrix in a partial round (43_poseidon2.md R193). -/
def State.roundValue (s : State) (r : Nat) (x : Nat → Nat) (i : Nat) : Nat :=
  if s.partialRow r then
    sumTo s.t (fun j => s.intMatrix i j * (if j = 0 then (x 0 + val (s.rcWord r 0)) ^ s.d else x j)) % Config.p
  else
    sumTo s.t (fun j => extCoeff s.t i j * (x j + val (s.rcWord r j)) ^ s.d) % Config.p

/-- Element `i` after the initial external layer and the rounds below `n` (43_poseidon2.md R193). -/
def State.permValue (s : State) : (n : Nat) → Nat → Nat
  | 0, i => sumTo s.t (fun j => extCoeff s.t i j * s.regVal (elemReg j)) % Config.p
  | n + 1, i => s.roundValue n (s.permValue n) i

/-- Node `i` of level `level` of the tree over the leaf values `leaf`: a leaf, or the compression of its two children
(44_merkle.md R210, R214). -/
def treeNode (cmp : Nat → Nat → Nat) (leaf : Nat → Nat) : (level i : Nat) → Nat
  | 0, i => leaf i
  | level + 1, i => cmp (treeNode cmp leaf level (2 * i)) (treeNode cmp leaf level (2 * i + 1))

/-- `n` steps one after another; a stop ends the run. -/
def stepN : (n : Nat) → State → Result
  | 0, s => .next s
  | n + 1, s =>
    match step s with
    | .next t => stepN n t
    | .fault e => .fault e
    | .refused e => .refused e

end Sys2Proof.Machine
end

