-- ==== Sys2Proof/Certificates/Slice0/Obligations.lean ====
section
/-! DEFINITION. The statements for the provers. Frames: `OnlyReg`, `OnlyElems`, `OnlyDout`, `SameStores` and `Raises` of
Safety.lean say that everything else, every leaf and every constant entry included, is unchanged. -/

section Statements

open Sys2Proof Sys2Proof.Machine

/- Encoding. -/

/-- Decoding the encoding of a well-formed command gives it back (30_encoding.md R92, R94, R95, R99). -/
def Obligations.DecodeOfEncode : Prop :=
  ∀ i : Instr, i.wellFormed = true → decode (encode i) = .ok i

/-- Each command has one encoding: a word that decodes is the encoding of what it decodes to, which is well formed
(30_encoding.md R95, R98: at most one row matches). Log entry 5 rests on it. -/
def Obligations.EncodeOfDecode : Prop :=
  ∀ (w : Word32) (i : Instr), decode w = .ok i → encode i = w ∧ i.wellFormed = true

/-- The decoder, written from the formats of R92 and R94, accepts a word as a command exactly where the match and mask of the
command's row accept it; there are 33 rows, and no word matches two (30_encoding.md R95, R98). -/
def Obligations.DecoderAgreesWithOpcodeTable : Prop :=
  (opTable.length = 33 ∧
  ∀ row ∈ opTable, ∀ w : Word32,
    w &&& row.mask = row.pattern ↔ ∃ i, decode w = .ok i ∧ i.mnemonic = row.mnemonic) ∧
  (∀ w : Word32, ∀ a ∈ opTable, ∀ b ∈ opTable,
    w &&& a.mask = a.pattern → w &&& b.mask = b.pattern → a = b)

/-- A word that matches no row raises IllegalCommand and changes nothing else; that covers the 223 opcode values of no row
and every listed opcode with a must-be-zero bit set (30_encoding.md R96). -/
def Obligations.IllegalWordsRaiseIllegalCommand : Prop :=
  (∀ (s : State) (w : Word32), s.err = false → (∀ row ∈ opTable, w &&& row.mask ≠ row.pattern) →
    ∃ t, writeCmd w s = .next t ∧ Raises .illegalCommand w s t) ∧
  (∀ w : Word32, (∀ row ∈ opTable, slice w.toNat 24 8 ≠ slice row.pattern.toNat 24 8) →
    ∀ row ∈ opTable, w &&& row.mask ≠ row.pattern) ∧
  ((List.range 256).filter fun op => opTable.all fun row => decide (slice row.pattern.toNat 24 8 ≠ op)).length = 223

/-- Words of every family, written out from the spec's examples and its assembling formula, decode to the commands they
stand for (30_encoding.md R99; the examples of files 40 to 44). -/
def Obligations.WordsOfTheSpecDecode : Prop :=
  decode 0x00000000 = .ok .nop ∧ decode 0x10080000 = .ok (.ldc 1) ∧ decode 0x14000002 = .ok (.ldi 0 2) ∧
  decode 0x15204000 = .ok (.mov 4 1) ∧ decode 0x20184400 = .ok (.add 3 1 2) ∧ decode 0x27004400 = .ok (.eq 1 2) ∧
  decode 0x30000503 = .ok (.psettd 3 5) ∧ decode 0x31000838 = .ok (.psetrnd 8 56) ∧
  decode 0x32F80041 = .ok (.psetrc 31 2 1) ∧ decode 0x33F80002 = .ok (.psetdg 31 2) ∧
  decode 0x41000001 = .ok (.arcp 1) ∧ decode 0x42280000 = .ok (.sbox 5 0) ∧ decode 0x46000003 = .ok (.perm 3) ∧
  decode 0x50280200 = .ok (.cmpr 5 0 1) ∧ decode 0x51A00002 = .ok (.lwr 20 2) ∧ decode 0x53600003 = .ok (.accum 12 3)

/- The step, the bus, reset and faults. -/

/-- A step at which the host writes a word that decodes, with no fault pending, is `exec` of the command on the state from
which the input has been taken; with a fault pending the word is dropped; an illegal word raises
(20_memory.md R70; 30_encoding.md R98; 60_exceptions.md R245). That the write stands in `inputs` and that the step takes it
out of there is the model's choice (log entry 1). -/
def Obligations.StepRunsTheDecodedCommand : Prop :=
  ∀ (s : State) (w : Word32) (rest : List HostInput), s.inputs = .write 0x18 4 w :: rest →
    (s.err = false → ∀ i, decode w = .ok i → i.wellFormed = true → step s = exec i { s with inputs := rest }) ∧
    (s.err = false → (∀ i, decode w ≠ .ok i) →
      step s = .next ({ s with inputs := rest }.raise .illegalCommand w)) ∧
    (s.err = true → step s = .next { s with inputs := rest })

/-- `withFetchWord` makes the very next step run the command of the word, on the state as it was but for an unacknowledged
fault, which is cleared. The model's convention (log entry 4). -/
def Obligations.WithFetchWordRunsNext : Prop :=
  ∀ (s : State) (w : Word32) (i : Instr), decode w = .ok i →
    step (s.withFetchWord 32 w.toNat) = exec i (if s.err then s.clearFault else s)

/-- Between transactions the unit is idle: with no input a step changes nothing. The model's convention (log entry 3;
60_exceptions.md R255). -/
def Obligations.StepWithoutInputIsIdle : Prop :=
  ∀ s : State, s.inputs = [] → step s = .next s

/-- A bus read returns what the address map says and changes no state of the unit (20_memory.md R63). That the value goes to
`rdata` is the model's choice (log entry 2). -/
def Obligations.BusReadsFollowTheAddressMap : Prop :=
  ∀ (s : State) (off : Nat), off % 4 = 0 → off < 256 →
    ∃ v : Word32, busStep (.read off 4) s = .next { s with rdata := v :: s.rdata } ∧
      (off = 0x00 → v = 0x50324207) ∧ (off = 0x04 → v = s.statusWord) ∧
      (off = 0x08 → v.toNat = s.errcode.toNat) ∧ (off = 0x0C → v = s.errcmd) ∧ (off = 0x14 → v = s.pcfgWord) ∧
      (∀ k : Fin 8, off = 0x20 + 4 * k.val → v = s.din[k.val]) ∧
      (∀ k : Fin 8, off = 0x40 + 4 * k.val → v = s.dout[k.val]) ∧
      (off = 0x10 ∨ off = 0x18 ∨ off = 0x1C ∨ 0x60 ≤ off → v = 0)

/-- A bus write does what the address map says: CTRL resets or clears the fault, CMD executes or is dropped, DINk takes
the word and its mask bit, every other offset ignores it (20_memory.md R64). That a reset keeps `inputs` and `rdata` is
the model's choice (log entries 1 and 2). -/
def Obligations.BusWritesFollowTheAddressMap : Prop :=
  ∀ (s : State) (off : Nat) (v : Word32), off % 4 = 0 → off < 256 →
    (off = 0x10 → v.getLsbD 0 = true →
      busStep (.write off 4 v) s = .next { State.reset with inputs := s.inputs, rdata := s.rdata }) ∧
    (off = 0x10 → v.getLsbD 0 = false → v.getLsbD 1 = true →
      busStep (.write off 4 v) s = .next { s with err := false, errcode := 0, errcmd := 0 }) ∧
    (off = 0x10 → v.getLsbD 0 = false → v.getLsbD 1 = false → busStep (.write off 4 v) s = .next s) ∧
    (off = 0x18 → s.err = false → busStep (.write off 4 v) s = execute v s) ∧
    (off = 0x18 → s.err = true → busStep (.write off 4 v) s = .next s) ∧
    (∀ k : Fin 8, off = 0x20 + 4 * k.val →
      ∃ t, busStep (.write off 4 v) s = .next t ∧ t = { s with din := t.din, dinm := t.dinm } ∧
        (∀ j : Fin 8, t.din[j.val] = if j = k then v else s.din[j.val]) ∧
        (∀ j : Fin 8, t.dinm.getLsbD j.val = (decide (j = k) || s.dinm.getLsbD j.val))) ∧
    (off ≠ 0x10 → off ≠ 0x18 → (off < 0x20 ∨ 0x3C < off) → busStep (.write off 4 v) s = .next s)

/-- An access of another width, at an unaligned offset or outside the window has no step (20_memory.md R68). -/
def Obligations.OtherAccessesAreRefused : Prop :=
  ∀ (s : State) (off n : Nat) (v : Word32) (rest : List HostInput), n ≠ 4 ∨ off % 4 ≠ 0 ∨ 256 ≤ off →
    (s.inputs = .read off n :: rest → ∃ r, step s = .refused r) ∧
    (s.inputs = .write off n v :: rest → ∃ r, step s = .refused r)

/-- A word written to a DIN register is what the next read of that register returns (20_memory.md R71, R63, R64).
`inputs` and `rdata` are the model's choice (log entries 1 and 2). -/
def Obligations.DinReadsBackAsWritten : Prop :=
  ∀ (s : State) (k : Fin 8) (v : Word32) (rest : List HostInput),
    s.inputs = .write (0x20 + 4 * k.val) 4 v :: .read (0x20 + 4 * k.val) 4 :: rest →
    ∃ t, stepN 2 s = .next t ∧ t.rdata = v :: s.rdata ∧ t.inputs = rest

/-- The byte view of the window is big-endian in every register, and chunks are big-endian over eight registers: as a number,
and byte by byte, on input and on output (20_memory.md R65, R66). -/
def Obligations.WindowAndChunksAreBigEndian : Prop :=
  (∀ (s : State) (off : Nat), off % 4 = 0 → off < 256 →
    bigEndian32 (s.windowByte off) (s.windowByte (off + 1)) (s.windowByte (off + 2)) (s.windowByte (off + 3))
      = s.busValue (busReg off)) ∧
  ((∀ s : State, s.chunk = s.din[0].toNat * 2 ^ 224 + s.din[1].toNat * 2 ^ 192 + s.din[2].toNat * 2 ^ 160
      + s.din[3].toNat * 2 ^ 128 + s.din[4].toNat * 2 ^ 96 + s.din[5].toNat * 2 ^ 64 + s.din[6].toNat * 2 ^ 32
      + s.din[7].toNat) ∧
  (∀ (s : State) (i : Nat), i < 32 → (s.windowByte (0x20 + i)).toNat = s.chunk / 256 ^ (31 - i) % 256) ∧
  (∀ (s : State) (x i : Nat), x < 2 ^ 256 → i < 32 →
    ((s.setDout x).windowByte (0x40 + i)).toNat = x / 256 ^ (31 - i) % 256))

/-- The state after reset, every field (10_state.md R48). -/
def Obligations.ResetStateIsTheTable : Prop :=
  (∀ r : Reg, State.reset.reg r = 0) ∧ State.reset.err = false ∧ State.reset.run = false ∧ State.reset.eqf = false ∧
  State.reset.statusWord = 0 ∧ State.reset.errcode = 0 ∧ State.reset.errcmd = 0 ∧
  State.reset.P = ⟨0, 0, 0, 0⟩ ∧ State.reset.pcfgWord = 0 ∧
  (∀ r c, State.reset.rcAt? r c = none) ∧ (∀ c, State.reset.dgAt? c = none) ∧ (∀ i, State.reset.leafAt i = 0) ∧
  (∀ k : Fin 8, State.reset.din[k.val] = 0) ∧ State.reset.dinm = 0 ∧ (∀ k : Fin 8, State.reset.dout[k.val] = 0) ∧
  State.reset.busValue .id = 0x50324207

/-- The hard reset and a write of CTRL with SRST set, whatever its other bits, take every state to the reset state
(70_reset_and_hazards.md R280, R281, R282). That `inputs` and `rdata`,
which are no state of the unit, stay is the model's choice (log entries 1 and 2). -/
def Obligations.BothResetsGiveTheResetState : Prop :=
  ∀ (s : State) (v : Word32), v.getLsbD 0 = true →
    busStep .hardReset s = .next { State.reset with inputs := s.inputs, rdata := s.rdata } ∧
    busStep (.write 0x10 4 v) s = .next { State.reset with inputs := s.inputs, rdata := s.rdata }

/-- While ERR is 1 a write to CMD changes nothing, and reads, DIN writes and CTRL writes work as ever
(60_exceptions.md R245, with R63 and R64 of 20_memory.md for what they do). That a read's value goes to `rdata` and that
a reset keeps `inputs` and `rdata` is the model's choice (log entries 1 and 2). -/
def Obligations.CommandsAreDroppedWhileAFaultIsPending : Prop :=
  ∀ s : State, s.err = true →
    (∀ w : Word32, busStep (.write 0x18 4 w) s = .next s) ∧
    (∀ off, off % 4 = 0 → off < 256 →
      busStep (.read off 4) s = .next { s with rdata := s.busValue (busReg off) :: s.rdata }) ∧
    (∀ (k : Fin 8) (v : Word32), ∃ t, busStep (.write (0x20 + 4 * k.val) 4 v) s = .next t ∧
      t = { s with din := t.din, dinm := t.dinm } ∧
      (∀ j : Fin 8, t.din[j.val] = if j = k then v else s.din[j.val]) ∧
      (∀ j : Fin 8, t.dinm.getLsbD j.val = (decide (j = k) || s.dinm.getLsbD j.val))) ∧
    (∀ v : Word32, v.getLsbD 0 = true →
      busStep (.write 0x10 4 v) s = .next { State.reset with inputs := s.inputs, rdata := s.rdata }) ∧
    (∀ v : Word32, v.getLsbD 0 = false → v.getLsbD 1 = true →
      busStep (.write 0x10 4 v) s = .next { s with err := false, errcode := 0, errcmd := 0 }) ∧
    (∀ v : Word32, v.getLsbD 0 = false → v.getLsbD 1 = false → busStep (.write 0x10 4 v) s = .next s)

/-- ERRCLR clears ERR, ERRCODE and ERRCMD and nothing else; without a fault it does nothing; after a fault it restores the
state before the command, and writing the same word again faults again in the same way (60_exceptions.md R246). The
last two clauses need the fault registers to read 0 while ERR is 0, which the invariant says (10_state.md R32, R33). -/
def Obligations.ErrclrReturnsFromAFault : Prop :=
  (∀ (s : State) (v : Word32), v.getLsbD 0 = false → v.getLsbD 1 = true →
    busStep (.write 0x10 4 v) s = .next { s with err := false, errcode := 0, errcmd := 0 } ∧
    (Inv s → s.err = false → busStep (.write 0x10 4 v) s = .next s)) ∧
  (∀ (s t : State) (w : Word32), Inv s → s.err = false → writeCmd w s = .next t → t.err = true →
    busStep (.write 0x10 4 0x2) t = .next s ∧ writeCmd w t.clearFault = .next t)

/-- Commands are all-or-nothing: a command word that faults leaves everything but the three fault registers exactly as it
was (60_exceptions.md R244), and records one of the thirteen codes and the word written (R243). -/
def Obligations.FaultingCommandsAreAllOrNothing : Prop :=
  ∀ (s t : State) (w : Word32), s.err = false → writeCmd w s = .next t → t.err = true →
    ∃ c ∈ Cause.all, Raises c w s t

/-- A command raises only the faults its row of R242 lists (60_exceptions.md R242, which the spec marks as derived). -/
def Obligations.CommandsRaiseOnlyTheirListedFaults : Prop :=
  ∀ (i : Instr) (s t : State), s.err = false → exec i s = .next t → t.err = true →
    ∃ c ∈ causesOf i, t.errcode = c.code

/-- The mode check comes before every operand check: a permutation or Merkle command in CONFIG mode, and a parameter
command in RUN mode, raise the mode fault whatever their operands; every other command does the same in both modes
(60_exceptions.md R248, R252). -/
def Obligations.ModeFaultsComeFirst : Prop :=
  ∀ (i : Instr) (s : State),
    (needsRun i = true → s.run = false → FaultsWith i s .paramsNotCommitted) ∧
    (needsConfig i = true → s.run = true → FaultsWith i s .paramsLocked) ∧
    (needsRun i = false → needsConfig i = false → ∀ t, exec i s = .next t →
      exec i { s with run := !s.run } = .next { t with run := !s.run })

/-- STATUS holds ERR, RUN, EQF in bits 0 to 2 and DINM in [15:8]; PCFG holds P.t in [4:0], P.d in [11:8], rounds_f in
[23:16], rounds_p in [31:24]; every other bit is 0 (10_state.md R31, R35). -/
def Obligations.StatusAndPcfgLayouts : Prop :=
  (∀ s : State, s.statusWord.toNat =
    (if s.err then 1 else 0) + (if s.run then 2 else 0) + (if s.eqf then 4 else 0) + 2 ^ 8 * s.dinm.toNat) ∧
  (∀ s : State, s.pcfgWord.toNat =
    s.P.t.toNat + 2 ^ 8 * s.P.d.toNat + 2 ^ 16 * s.P.roundsF.toNat + 2 ^ 24 * s.P.roundsP.toNat)

/- The invariant and the machine as a whole. -/

/-- The reset state has the invariant (10_state.md R23, R48). -/
def Obligations.ResetMeetsTheInvariant : Prop := Inv State.reset

/-- Every step keeps the invariant: registers, leaves and constants stay below p, the stores stay in canonical form and
within their sizes, the fault registers agree with ERR, RUN mode holds a store that PCOMMIT accepted
(10_state.md R23, R32, R33, R37, R38, R39, R40, R43). -/
def Obligations.EveryStepKeepsTheInvariant : Prop :=
  ∀ s t : State, Inv s → step s = .next t → Inv t

/-- Under the invariant no command stops the model: every command answers a next state, and so does the step of every
access that is a transaction (42_params.md R167; 10_state.md R40). That the step takes the input out of `inputs` is the
model's choice (log entry 1). -/
def Obligations.NoCommandStopsUnderTheInvariant : Prop :=
  (∀ s : State, Inv s → ∀ i : Instr, ∃ t, exec i s = .next t) ∧
  (∀ (s : State) (x : HostInput) (rest : List HostInput), Inv s → s.inputs = x :: rest →
    (∀ off n, x = .read off n → n = 4 ∧ off % 4 = 0 ∧ off < 256) →
    (∀ off n v, x = .write off n v → n = 4 ∧ off % 4 = 0 ∧ off < 256) → ∃ t, step s = .next t ∧ t.inputs = rest)

/-- In RUN mode no command changes the parameter store, the five parameter commands raise ParamsLocked, and only a reset
returns to CONFIG mode (10_state.md R41). -/
def Obligations.RunModeFreezesTheParameters : Prop :=
  (∀ (i : Instr) (s t : State), s.run = true → exec i s = .next t →
    t.P = s.P ∧ t.rc = s.rc ∧ t.dg = s.dg ∧ t.run = true) ∧
  (∀ (i : Instr) (s : State), needsConfig i = true → s.run = true → FaultsWith i s .paramsLocked) ∧
  (∀ (s t : State) (x : HostInput) (rest : List HostInput), s.inputs = x :: rest → step s = .next t →
    s.run = true → t.run = false ∨ t.P ≠ s.P ∨ t.rc ≠ s.rc ∨ t.dg ≠ s.dg →
    x = .hardReset ∨ ∃ v : Word32, x = .write 0x10 4 v ∧ v.getLsbD 0 = true)

/-- A constant entry once written stays written until reset (10_state.md R40; 70_reset_and_hazards.md R282). -/
def Obligations.OnlyResetUnwritesAConstant : Prop :=
  ∀ (s t : State) (x : HostInput) (rest : List HostInput), s.inputs = x :: rest → step s = .next t →
    ((∃ r c, (s.rcAt? r c).isSome = true ∧ t.rcAt? r c = none) ∨ (∃ c, (s.dgAt? c).isSome = true ∧ t.dgAt? c = none)) →
    x = .hardReset ∨ ∃ v : Word32, x = .write 0x10 4 v ∧ v.getLsbD 0 = true

/-- Each piece of state has the writers the spec names among the commands, and no others: a register changes only as the
destination or as a state element of the command, the fault registers only by raising a cause the command lists, the
rest by the commands named (10_state.md R24, R26, R28, R32, R33, R35, R38, R39, R43, R44, R45; the causes by
60_exceptions.md R242, which the spec marks as derived). That `inputs` and `rdata` stay is the model's choice (log
entries 1 and 2). -/
def Obligations.EachStoreHasItsOnlyWriters : Prop :=
  ∀ (i : Instr) (s t : State), exec i s = .next t →
    t.din = s.din ∧ t.inputs = s.inputs ∧ t.rdata = s.rdata ∧
    (∀ r, t.reg r ≠ s.reg r → destReg i = some r ∨ (writesElems i = true ∧ r.val < s.t)) ∧
    (t.err ≠ s.err ∨ t.errcode ≠ s.errcode ∨ t.errcmd ≠ s.errcmd → ∃ c ∈ causesOf i, Raises c (encode i) s t) ∧
    (t.eqf ≠ s.eqf → ∃ a b, i = .eq a b) ∧
    (t.run ≠ s.run → i = .pcommit ∧ t.run = true) ∧
    (t.leaf ≠ s.leaf → ∃ fs idx, i = .lwr fs idx) ∧
    (t.rc ≠ s.rc → ∃ fs row col, i = .psetrc fs row col) ∧
    (t.dg ≠ s.dg → ∃ fs col, i = .psetdg fs col) ∧
    (t.P ≠ s.P → (∃ a d, i = .psettd a d) ∨ ∃ a b, i = .psetrnd a b) ∧
    (t.dinm ≠ s.dinm → t.dinm = 0 ∧ ((∃ fd, i = .ldc fd) ∨ ∃ fd, i = .ldr fd)) ∧
    (t.dout ≠ s.dout → (∃ fs, i = .stc fs) ∨ ∃ fs, i = .str fs)

/-- ERR returns to 0 only by ERRCLR or a reset, and rises only in a write to CMD (10_state.md R28;
60_exceptions.md R245, R246). -/
def Obligations.TheFaultFlagHasItsOnlyWriters : Prop :=
  ∀ (s t : State) (x : HostInput) (rest : List HostInput), s.inputs = x :: rest → step s = .next t →
    (s.err = true → t.err = false →
      x = .hardReset ∨ ∃ v : Word32, x = .write 0x10 4 v ∧ (v.getLsbD 0 = true ∨ v.getLsbD 1 = true)) ∧
    (s.err = false → t.err = true → ∃ w, x = .write 0x18 4 w) ∧
    (s.err = true → t.err = true → t.errcode = s.errcode ∧ t.errcmd = s.errcmd)

/-- No command reads EQF, DOUT or the host's side: two runs that differ only there differ only there afterwards, EQ
writing the same EQF in both, STC and STR the same DOUT, every other command leaving them as they were
(10_state.md R28, R45; 60_exceptions.md R244; 70_reset_and_hazards.md R295). The host's side, `inputs` and `rdata`, is
the model's choice (log entries 1 and 2). -/
def Obligations.NoCommandReadsEqfDoutOrTheHostSide : Prop :=
  ∀ (i : Instr) (s t : State) (b : Bool) (d : Vector Word32 8) (xs : List HostInput) (rs : List Word32),
    exec i s = .next t →
    ∃ u, exec i { s with eqf := b, dout := d, inputs := xs, rdata := rs } = .next u ∧
      u.inputs = xs ∧ u.rdata = rs ∧
      ((∃ x y, i = .eq x y) → u.eqf = t.eqf) ∧ ((∀ x y, i ≠ .eq x y) → u.eqf = b) ∧
      ((∃ fs, i = .stc fs) ∨ (∃ fs, i = .str fs) → u.dout = t.dout) ∧
      ((∀ fs, i ≠ .stc fs) → (∀ fs, i ≠ .str fs) → u.dout = d) ∧
      { u with eqf := t.eqf, dout := t.dout, inputs := t.inputs, rdata := t.rdata } = t

/- Data movement and representation. -/

/-- NOP changes nothing, also while a fault is pending (40_field_move.md R120). -/
def Obligations.NopChangesNothing : Prop :=
  decode 0 = .ok .nop ∧ ∀ s : State, exec .nop s = .next s ∧ writeCmd 0 s = .next s

/-- LDC loads the chunk reduced mod p, as its word; LDR loads it as it is, and faults where it is not below p; both clear the
mask, and fault first on an incomplete chunk (40_field_move.md R121, R122). -/
def Obligations.LdcAndLdrLoadTheChunk : Prop :=
  (∀ (fd : Reg) (s : State), decode (encodeRegs 0x10 fd 0 0) = .ok (.ldc fd) ∧
    (s.dinm ≠ 0xFF → FaultsWith (.ldc fd) s .chunkLength) ∧
    (s.dinm = 0xFF → ∃ t, exec (.ldc fd) s = .next t ∧
      t.regVal fd = s.chunk % Config.p ∧ t.reg fd = s.chunk % Config.p * 2 ^ 256 % Config.p ∧ t.dinm = 0 ∧
      (∀ r, r ≠ fd → t.reg r = s.reg r) ∧ SameStores s t ∧ t = { s with f := t.f, dinm := t.dinm })) ∧
  (∀ (fd : Reg) (s : State), decode (encodeRegs 0x11 fd 0 0) = .ok (.ldr fd) ∧
    (s.dinm ≠ 0xFF → FaultsWith (.ldr fd) s .chunkLength) ∧
    (s.dinm = 0xFF → Config.p ≤ s.chunk → FaultsWith (.ldr fd) s .rawRange) ∧
    (s.dinm = 0xFF → s.chunk < Config.p → ∃ t, exec (.ldr fd) s = .next t ∧ t.reg fd = s.chunk ∧ t.dinm = 0 ∧
      (∀ r, r ≠ fd → t.reg r = s.reg r) ∧ SameStores s t ∧ t = { s with f := t.f, dinm := t.dinm }))

/-- STC puts the canonical residue into DOUT, most significant word first, and STR the word itself
(40_field_move.md R123, R124). -/
def Obligations.StcAndStrStoreTheChunk : Prop :=
  ∀ (fs : Reg) (s : State),
    decode (encodeRegs 0x12 fs 0 0) = .ok (.stc fs) ∧ decode (encodeRegs 0x13 fs 0 0) = .ok (.str fs) ∧
    (∃ t, exec (.stc fs) s = .next t ∧ OnlyDout s t ∧ t.doutChunk = s.reg fs * Config.Rinv % Config.p ∧
      (∀ k : Fin 8, t.dout[k.val].toNat = s.reg fs * Config.Rinv % Config.p / 2 ^ (224 - 32 * k.val) % 2 ^ 32) ∧
      t.dout[0].toNat < 2 ^ 30) ∧
    (∃ t, exec (.str fs) s = .next t ∧ OnlyDout s t ∧ t.doutChunk = s.reg fs ∧
      (∀ k : Fin 8, t.dout[k.val].toNat = s.reg fs / 2 ^ (224 - 32 * k.val) % 2 ^ 32))

/-- LDI loads the word of the immediate; MOV copies the word, and onto itself changes nothing (40_field_move.md R125, R126). -/
def Obligations.LdiAndMovWriteOneRegister : Prop :=
  (∀ (fd : Reg) (imm : Nat) (s : State), imm < 2 ^ 16 →
    decode (encodeImm 0x14 fd imm) = .ok (.ldi fd imm) ∧
    ∃ t, exec (.ldi fd imm) s = .next t ∧ t.regVal fd = imm ∧ t.reg fd = imm * 2 ^ 256 % Config.p ∧ OnlyReg fd s t) ∧
  (∀ (fd fs1 : Reg) (s : State), decode (encodeRegs 0x15 fd fs1 0) = .ok (.mov fd fs1) ∧
    (∃ t, exec (.mov fd fs1) s = .next t ∧ t.reg fd = s.reg fs1 ∧ OnlyReg fd s t) ∧
    exec (.mov fd fd) s = .next s)

/-- TOMONT multiplies the word by R and FROMMONT by Rinv; one after the other, in either order, restores a word below p; after
FROMMONT the word is the chunk that STC stores; LDR and TOMONT of a chunk below p give what LDC gives (40_field_move.md R127, R128). -/
def Obligations.TomontAndFrommontConvert : Prop :=
  (∀ (fd fs1 : Reg) (s : State), decode (encodeRegs 0x16 fd fs1 0) = .ok (.tomont fd fs1) ∧
    ∃ t, exec (.tomont fd fs1) s = .next t ∧ t.reg fd = s.reg fs1 * 2 ^ 256 % Config.p ∧
      t.regVal fd = s.regVal fs1 * (2 ^ 256 % Config.p) % Config.p ∧ OnlyReg fd s t) ∧
  (∀ (fd fs1 : Reg) (s : State), decode (encodeRegs 0x17 fd fs1 0) = .ok (.frommont fd fs1) ∧
    (∃ t, exec (.frommont fd fs1) s = .next t ∧ t.reg fd = s.reg fs1 * Config.Rinv % Config.p ∧
      t.reg fd = s.regVal fs1 ∧ OnlyReg fd s t ∧
      ∃ a b, exec (.str fd) t = .next a ∧ exec (.stc fs1) s = .next b ∧ a.dout = b.dout) ∧
    (s.reg fs1 < Config.p →
      (∃ t u, exec (.frommont fd fs1) s = .next t ∧ exec (.tomont fd fd) t = .next u ∧ u.reg fd = s.reg fs1) ∧
      (∃ t u, exec (.tomont fd fs1) s = .next t ∧ exec (.frommont fd fd) t = .next u ∧ u.reg fd = s.reg fs1)) ∧
    (s.dinm = 0xFF → s.chunk < Config.p → ∃ t u, exec (.ldr fd) s = .next t ∧ exec (.tomont fd fd) t = .next u ∧
      exec (.ldc fd) s = .next u))

/-- The pseudo-instructions LDV then STV, all eighteen transactions of them, read back the chunk reduced mod p, so a value
below p comes back unchanged (40_field_move.md R130, which the spec marks as derived; 30_encoding.md R101). The order of
the eight DIN writes, which R101 leaves free, is the model's choice (log entry 17), as are `inputs` and `rdata` (log
entries 1 and 2). -/
def Obligations.LoadedValueReadsBack : Prop :=
  ∀ (s : State) (fd : Reg) (x : Nat) (rest : List HostInput), x < 2 ^ 256 → s.err = false →
    s.inputs = pseudoLdv fd x ++ pseudoStv fd ++ rest →
    ∃ t, stepN 18 s = .next t ∧ t.inputs = rest ∧ t.err = false ∧ t.dinm = 0 ∧
      doutValue (t.rdata.take 8).reverse = x % Config.p ∧ t.rdata.drop 8 = s.rdata

/- Field arithmetic. -/

/-- ADD and SUB on values and on words, least non-negative residues (41_field_arith.md R141, R142). -/
def Obligations.AddAndSubAreModP : Prop :=
  (∀ (fd a b : Reg) (s : State), decode (encodeRegs 0x20 fd a b) = .ok (.add fd a b) ∧
    ∃ t, exec (.add fd a b) s = .next t ∧ t.regVal fd = (s.regVal a + s.regVal b) % Config.p ∧
      t.reg fd = (s.reg a + s.reg b) % Config.p ∧ OnlyReg fd s t) ∧
  (∀ (fd a b : Reg) (s : State), decode (encodeRegs 0x21 fd a b) = .ok (.sub fd a b) ∧
    ∃ t, exec (.sub fd a b) s = .next t ∧
      (t.regVal fd : Int) = ((s.regVal a : Int) - s.regVal b) % Config.p ∧
      (t.reg fd : Int) = ((s.reg a : Int) - s.reg b) % Config.p ∧
      (s.reg a < Config.p → s.reg b < Config.p →
        t.reg fd = if s.reg b ≤ s.reg a then s.reg a - s.reg b else s.reg a + Config.p - s.reg b) ∧ OnlyReg fd s t)

/-- MUL on values, and the Montgomery product on words (41_field_arith.md R143). -/
def Obligations.MulMultipliesModP : Prop :=
  ∀ (fd a b : Reg) (s : State), decode (encodeRegs 0x22 fd a b) = .ok (.mul fd a b) ∧
    ∃ t, exec (.mul fd a b) s = .next t ∧ t.regVal fd = s.regVal a * s.regVal b % Config.p ∧
      t.reg fd = s.reg a * s.reg b * Config.Rinv % Config.p ∧ OnlyReg fd s t

/-- NEG on values and on words; the negative of 0 is 0, never p (41_field_arith.md R144). -/
def Obligations.NegNegatesModP : Prop :=
  ∀ (fd a : Reg) (s : State), decode (encodeRegs 0x23 fd a 0) = .ok (.neg fd a) ∧
    ∃ t, exec (.neg fd a) s = .next t ∧
      (t.regVal fd : Int) = (0 - (s.regVal a : Int)) % Config.p ∧ (t.reg fd : Int) = (0 - (s.reg a : Int)) % Config.p ∧
      (s.reg a < Config.p → t.reg fd = if s.reg a = 0 then 0 else Config.p - s.reg a) ∧
      t.regVal fd = (if s.regVal a = 0 then 0 else Config.p - s.regVal a) ∧ OnlyReg fd s t

/-- DBL and SQR on values and on words; the same results as ADD and MUL of the register with itself
(41_field_arith.md R145, R146). -/
def Obligations.DblAndSqrAreModP : Prop :=
  (∀ (fd a : Reg) (s : State), decode (encodeRegs 0x24 fd a 0) = .ok (.dbl fd a) ∧
    ∃ t, exec (.dbl fd a) s = .next t ∧ exec (.add fd a a) s = .next t ∧
      t.regVal fd = (s.regVal a + s.regVal a) % Config.p ∧ t.reg fd = 2 * s.reg a % Config.p ∧ OnlyReg fd s t) ∧
  (∀ (fd a : Reg) (s : State), decode (encodeRegs 0x25 fd a 0) = .ok (.sqr fd a) ∧
    ∃ t, exec (.sqr fd a) s = .next t ∧ exec (.mul fd a a) s = .next t ∧
      t.regVal fd = s.regVal a * s.regVal a % Config.p ∧ t.reg fd = s.reg a * s.reg a * Config.Rinv % Config.p ∧
      OnlyReg fd s t)

/-- INV gives the unique inverse of a non-zero register, and faults on zero (41_field_arith.md R147). A register holds a
word below p under the invariant (10_state.md R23). -/
def Obligations.InvGivesTheUniqueInverse : Prop :=
  ∀ (fd a : Reg) (s : State), decode (encodeRegs 0x26 fd a 0) = .ok (.inv fd a) ∧
    (s.reg a = 0 → FaultsWith (.inv fd a) s .notInvertible) ∧
    (s.reg a < Config.p → (s.reg a = 0 ↔ s.regVal a = 0)) ∧
    (s.reg a < Config.p → s.reg a ≠ 0 → ∃ t y, exec (.inv fd a) s = .next t ∧
      0 < y ∧ y < Config.p ∧ s.regVal a * y % Config.p = 1 ∧
      (∀ y', y' < Config.p → s.regVal a * y' % Config.p = 1 → y' = y) ∧
      t.regVal fd = y ∧ t.reg fd = y * 2 ^ 256 % Config.p ∧ OnlyReg fd s t)

/-- EQ compares the two words, writes EQF and nothing else; on words below p that is equality of the field values
(41_field_arith.md R148, whose second half the spec marks as derived). -/
def Obligations.EqComparesTheWords : Prop :=
  ∀ (a b : Reg) (s : State), decode (encodeRegs 0x27 0 a b) = .ok (.eq a b) ∧
    ∃ t, exec (.eq a b) s = .next t ∧ (t.eqf = true ↔ s.reg a = s.reg b) ∧ SameStores s t ∧
      t = { s with eqf := t.eqf } ∧
      (s.reg a < Config.p → s.reg b < Config.p → (t.eqf = true ↔ s.regVal a = s.regVal b))

/-- The identities of the field on the functions the commands use (41_field_arith.md R149, which the spec marks as
derived). -/
def Obligations.FieldIdentitiesHold : Prop :=
  ∀ x y z : Nat, x < Config.p → y < Config.p → z < Config.p →
    fadd x y = fadd y x ∧ fadd (fadd x y) z = fadd x (fadd y z) ∧ fadd x 0 = x ∧ fadd x (fsub 0 x) = 0 ∧
    fsub x y = fadd x (fsub 0 y) ∧ fmul x y = fmul y x ∧ fmul (fmul x y) z = fmul x (fmul y z) ∧ fmul x 1 = x ∧
    fmul x 0 = 0 ∧ fmul x (fadd y z) = fadd (fmul x y) (fmul x z) ∧ fdbl x = fadd x x ∧ fsub 0 0 = 0 ∧
    (x ≠ 0 → fmul x (finv x) = 1 ∧ finv (finv x) = x ∧ finv x ≠ 0)

/- The parameter store. -/

/-- PSETTD and PSETRND write the scalar parameters in CONFIG mode and are locked in RUN mode
(42_params.md R161, R162). -/
def Obligations.PsettdAndPsetrndWriteTheScalars : Prop :=
  (∀ (t d : Nat) (s : State), t < 2 ^ 5 → d < 2 ^ 4 →
    decode (encodeImm 0x30 0 (d * 2 ^ 8 + t)) = .ok (.psettd t d) ∧
    (s.run = true → FaultsWith (.psettd t d) s .paramsLocked) ∧
    (s.run = false → ∃ u, exec (.psettd t d) s = .next u ∧ u.P.t.toNat = t ∧ u.P.d.toNat = d ∧
      u.P.roundsF = s.P.roundsF ∧ u.P.roundsP = s.P.roundsP ∧ SameStores s u ∧ u = { s with P := u.P })) ∧
  (∀ (a b : Nat) (s : State), a < 2 ^ 8 → b < 2 ^ 8 →
    decode (encodeImm 0x31 0 (a * 2 ^ 8 + b)) = .ok (.psetrnd a b) ∧
    (s.run = true → FaultsWith (.psetrnd a b) s .paramsLocked) ∧
    (s.run = false → ∃ u, exec (.psetrnd a b) s = .next u ∧ u.P.roundsF.toNat = a ∧ u.P.roundsP.toNat = b ∧
      u.P.t = s.P.t ∧ u.P.d = s.P.d ∧ SameStores s u ∧ u = { s with P := u.P }))

/-- PSETRC writes one entry of the round-constant store and PSETDG one of the diagonal, with the register's word; the entry
becomes written, every other entry is as before; a column of 24 or more faults, after the mode (42_params.md R163, R164). -/
def Obligations.PsetrcAndPsetdgWriteOneEntry : Prop :=
  (∀ (fs : Reg) (row col : Nat) (s : State), row < 2 ^ 7 → col < 2 ^ 5 →
    decode (encodeImm 0x32 fs (row * 2 ^ 5 + col)) = .ok (.psetrc fs row col) ∧
    (s.run = true → FaultsWith (.psetrc fs row col) s .paramsLocked) ∧
    (s.run = false → 24 ≤ col → FaultsWith (.psetrc fs row col) s .indexRange) ∧
    (s.run = false → col < 24 → ∃ t, exec (.psetrc fs row col) s = .next t ∧
      (∀ r c, t.rcAt? r c = if r = row ∧ c = col then some s.f[fs.val] else s.rcAt? r c) ∧
      (∀ i, t.leafAt i = s.leafAt i) ∧ t = { s with rc := t.rc })) ∧
  (∀ (fs : Reg) (col : Nat) (s : State), col < 2 ^ 5 →
    decode (encodeImm 0x33 fs col) = .ok (.psetdg fs col) ∧
    (s.run = true → FaultsWith (.psetdg fs col) s .paramsLocked) ∧
    (s.run = false → 24 ≤ col → FaultsWith (.psetdg fs col) s .indexRange) ∧
    (s.run = false → col < 24 → ∃ t, exec (.psetdg fs col) s = .next t ∧
      (∀ c, t.dgAt? c = if c = col then some s.f[fs.val] else s.dgAt? c) ∧
      (∀ i, t.leafAt i = s.leafAt i) ∧ t = { s with dg := t.dg }))

/-- PCOMMIT makes its checks in the order of the rule, the first failing one faults, and where all pass it enters RUN mode
and changes nothing else (42_params.md R165). -/
def Obligations.PcommitChecksInOrder : Prop :=
  decode 0x34000000 = .ok .pcommit ∧
  ∀ (s : State) (t d rf rp : Nat), t = s.P.t.toNat → d = s.P.d.toNat → rf = s.P.roundsF.toNat →
    rp = s.P.roundsP.toNat →
    let okT := t ∈ [2, 3, 4, 8, 12, 16, 20, 24]
    let okD := d ∈ [3, 5, 7, 11]
    let okRc := ∀ r c, r < 128 → c < 24 → ((s.rcAt? r c).isSome = true ↔ r < rf + rp ∧ c < t)
    let okDg := ∀ c, c < 24 → ((s.dgAt? c).isSome = true ↔ c < t)
    (s.run = true → FaultsWith .pcommit s .paramsLocked) ∧
    (s.run = false → ¬ okT → FaultsWith .pcommit s .unsupportedStateWidth) ∧
    (s.run = false → okT → ¬ okD → FaultsWith .pcommit s .unsupportedSboxDegree) ∧
    (s.run = false → okT → okD → rf % 2 = 1 → FaultsWith .pcommit s .oddFullRounds) ∧
    (s.run = false → okT → okD → rf % 2 = 0 → (128 < rf + rp ∨ ¬ okRc ∨ ¬ okDg) →
      FaultsWith .pcommit s .constantTableShape) ∧
    (s.run = false → okT → okD → rf % 2 = 0 → rf + rp ≤ 128 → okRc → okDg →
      exec .pcommit s = .next { s with run := true })

/- The permutation. -/

/-- ARC adds a row of constants to the state elements, word by word, and ARCP column 0 of a row to element 0; both fault on
the mode and then on the row (43_poseidon2.md R182, R183). -/
def Obligations.ArcAndArcpAddConstants : Prop :=
  (∀ (row : Nat) (s : State),
    (row < 2 ^ 16 → decode (encodeImm 0x40 0 row) = .ok (.arc row)) ∧
    (s.run = false → FaultsWith (.arc row) s .paramsNotCommitted) ∧
    (s.run = true → s.P.roundsF.toNat + s.P.roundsP.toNat ≤ row → FaultsWith (.arc row) s .indexRange) ∧
    (Inv s → s.run = true → row < s.P.roundsF.toNat + s.P.roundsP.toNat → ∃ t, exec (.arc row) s = .next t ∧
      OnlyElems s.t s t ∧ ∀ i, i < s.t → ∃ w, s.rcAt? row i = some w ∧
        t.reg (elemReg i) = (s.reg (elemReg i) + w.toNat) % Config.p)) ∧
  (∀ (row : Nat) (s : State),
    (row < 2 ^ 16 → decode (encodeImm 0x41 0 row) = .ok (.arcp row)) ∧
    (s.run = false → FaultsWith (.arcp row) s .paramsNotCommitted) ∧
    (s.run = true → s.P.roundsF.toNat + s.P.roundsP.toNat ≤ row → FaultsWith (.arcp row) s .indexRange) ∧
    (Inv s → s.run = true → row < s.P.roundsF.toNat + s.P.roundsP.toNat → ∃ t w, exec (.arcp row) s = .next t ∧
      s.rcAt? row 0 = some w ∧ t.reg 0 = (s.reg 0 + w.toNat) % Config.p ∧ OnlyReg 0 s t))

/-- SBOX raises the field value of one register, any register, and SBOXF of every state element, to the power P.d
(43_poseidon2.md R181, R184, R185). -/
def Obligations.SboxAndSboxfRaiseToThePower : Prop :=
  (∀ (fd fs1 : Reg) (s : State), decode (encodeRegs 0x42 fd fs1 0) = .ok (.sbox fd fs1) ∧
    (s.run = false → FaultsWith (.sbox fd fs1) s .paramsNotCommitted) ∧
    (Inv s → s.run = true → ∃ t, exec (.sbox fd fs1) s = .next t ∧
      t.regVal fd = s.regVal fs1 ^ s.P.d.toNat % Config.p ∧
      t.reg fd = s.regVal fs1 ^ s.P.d.toNat % Config.p * 2 ^ 256 % Config.p ∧ OnlyReg fd s t)) ∧
  (decode 0x43000000 = .ok .sboxf ∧
  ∀ s : State, (s.run = false → FaultsWith .sboxf s .paramsNotCommitted) ∧
    (Inv s → s.run = true → ∃ t, exec .sboxf s = .next t ∧ OnlyElems s.t s t ∧ ∀ i, i < s.t →
      t.reg (elemReg i) = s.regVal (elemReg i) ^ s.P.d.toNat % Config.p * 2 ^ 256 % Config.p))

/-- MEXT is the product with the matrix of the external layer: circ(2, 1), circ(2, 1, 1), M4, and the block matrix of M4
for the wider states (43_poseidon2.md R186 to R189; the matrix forms are the spec's derived ones, M4 is from general
knowledge, log entry 11). -/
def Obligations.MextIsTheExternalMatrix : Prop :=
  decode 0x44000000 = .ok .mext ∧
  ∀ s : State, (s.run = false → FaultsWith .mext s .paramsNotCommitted) ∧
    (Inv s → s.run = true → ∃ t, exec .mext s = .next t ∧ OnlyElems s.t s t ∧ ∀ i, i < s.t →
      t.regVal (elemReg i) = sumTo s.t (fun j => extCoeff s.t i j * s.regVal (elemReg j)) % Config.p ∧
      t.reg (elemReg i) = t.regVal (elemReg i) * 2 ^ 256 % Config.p)

/-- MINT is the product with the matrix of the internal layer: the fixed matrices for t = 2 and 3, where the diagonal is
not read, and the committed diagonal plus all ones otherwise (43_poseidon2.md R190 to R192). -/
def Obligations.MintIsTheInternalMatrix : Prop :=
  decode 0x45000000 = .ok .mint ∧
  ∀ s : State, (s.run = false → FaultsWith .mint s .paramsNotCommitted) ∧
    (Inv s → s.run = true → ∃ t, exec .mint s = .next t ∧ OnlyElems s.t s t ∧
      (∀ i, i < s.t → t.reg (elemReg i) = t.regVal (elemReg i) * 2 ^ 256 % Config.p) ∧
      (s.t = 2 ∨ s.t = 3 → ∀ i, i < s.t →
        t.regVal (elemReg i) = sumTo s.t (fun j => intCoeff s.t i j * s.regVal (elemReg j)) % Config.p) ∧
      (4 ≤ s.t → ∀ i, i < s.t → ∃ w, s.dgAt? i = some w ∧ t.regVal (elemReg i) =
        (s.regVal (elemReg i) * val w.toNat + sumTo s.t (fun j => s.regVal (elemReg j))) % Config.p))

/-- PERM in RUN mode computes the Poseidon2 permutation in place: the initial external matrix, then every round as
constants, powers and one matrix product, in the order of the schedule; the two checks come first (43_poseidon2.md R193,
R194 with the matrix forms of R186 to R191, some of which the spec marks as derived). For t >= 4 the external matrix rests
on M4, which is from general knowledge (log entry 11). -/
def Obligations.PermIsTheRoundSchedule : Prop :=
  ∀ (w : Nat) (s : State),
    (w < 2 ^ 16 → decode (encodeImm 0x46 0 w) = .ok (.perm w)) ∧
    (s.run = false → FaultsWith (.perm w) s .paramsNotCommitted) ∧
    (s.run = true → w ≠ s.P.t.toNat → FaultsWith (.perm w) s .stateWidth) ∧
    (Inv s → s.run = true → w = s.P.t.toNat → ∃ t, exec (.perm w) s = .next t ∧ OnlyElems s.t s t ∧
      ∀ i, i < s.t →
        t.regVal (elemReg i) = s.permValue (s.P.roundsF.toNat + s.P.roundsP.toNat) i ∧
        t.reg (elemReg i) = t.regVal (elemReg i) * 2 ^ 256 % Config.p)

/-- PERM leaves the same state as its micro-operations issued as separate commands, each word written to CMD
(43_poseidon2.md R196, which the spec marks as derived). -/
def Obligations.PermEqualsItsMicroOperations : Prop :=
  ∀ s : State, Inv s → s.run = true → s.err = false →
    ∃ t, exec (.perm s.t) s = .next t ∧
      writeCmds ((permMicroOps s.roundsF s.roundsP).map encode) s = .next t

/-- Constants the permutation does not read do not matter: columns 1 and up of the partial-round rows, and the diagonal
for t = 2 and 3 (42_params.md R166; 43_poseidon2.md R190, R193). -/
def Obligations.UnreadConstantsDoNotMatter : Prop :=
  ∀ s s' t t' : State, Inv s → Inv s' → s.run = true → s'.run = true → s'.P = s.P → s'.f = s.f →
    (∀ r c, c = 0 ∨ s.partialRow r = false → s'.rcAt? r c = s.rcAt? r c) →
    (4 ≤ s.t → ∀ c, s'.dgAt? c = s.dgAt? c) →
    (∀ w, exec (.perm w) s = .next t → exec (.perm w) s' = .next t' → t'.f = t.f)

/-- The reference parameters give the known-answer value for the state (0, 1, 2) and the value of the compression of 1 and
2 (43_poseidon2.md R195; 44_merkle.md R211; the parameters are from general knowledge, 45_reference_params.md R230, log
entry 11). -/
def Obligations.ReferenceKnownAnswer : Prop :=
  (perm refParams [0, 1, 2]).headD 0 = 0x0bb61d24daca55eebcb1929a82650f328134334da98ea4f847f760054f4a3033 ∧
  compress refParams 1 2 = 0x2afac3bdc3663b71eefeecdf21b147d0ba7dd7a169a7757c05ed6bfb065bffd2

/- Merkle. -/

/-- CMPR gives element 0 of the permutation of its two sources and zero, on a private state: only the destination changes;
the mode and the width are checked first (44_merkle.md R210, R211). -/
def Obligations.CmprIsThePermutationOfAPrivateState : Prop :=
  ∀ (fd a b : Reg) (s : State), decode (encodeRegs 0x50 fd a b) = .ok (.cmpr fd a b) ∧
    (s.run = false → FaultsWith (.cmpr fd a b) s .paramsNotCommitted) ∧
    (s.run = true → s.P.t.toNat ≠ 3 → FaultsWith (.cmpr fd a b) s .stateWidth) ∧
    (Inv s → s.run = true → s.P.t.toNat = 3 → ∃ t u, exec (.cmpr fd a b) s = .next t ∧
      exec (.perm 3) (((s.setReg 0 (s.reg a)).setReg 1 (s.reg b)).setReg 2 0) = .next u ∧
      t.reg fd = u.reg 0 ∧ OnlyReg fd s t)

/-- LWR writes one leaf with the register's word and LRD reads one, in both modes; an index of 1024 or more faults; a leaf
never written reads 0 (44_merkle.md R212, R213). A leaf memory in canonical form is part of the invariant. -/
def Obligations.LwrAndLrdAccessOneLeaf : Prop :=
  (∀ (fs : Reg) (idx : Nat) (s : State),
    (idx < 2 ^ 16 → decode (encodeImm 0x51 fs idx) = .ok (.lwr fs idx)) ∧
    (1024 ≤ idx → FaultsWith (.lwr fs idx) s .indexRange) ∧
    (idx < 1024 → Memory.wf s.leaf = true → ∃ t, exec (.lwr fs idx) s = .next t ∧
      (∀ i, t.leafAt i = if i = idx then s.f[fs.val] else s.leafAt i) ∧ Memory.wf t.leaf = true ∧
      (∀ r c, t.rcAt? r c = s.rcAt? r c) ∧ (∀ c, t.dgAt? c = s.dgAt? c) ∧ t = { s with leaf := t.leaf })) ∧
  ((∀ (fd : Reg) (idx : Nat) (s : State),
    (idx < 2 ^ 16 → decode (encodeImm 0x52 fd idx) = .ok (.lrd fd idx)) ∧
    (1024 ≤ idx → FaultsWith (.lrd fd idx) s .indexRange) ∧
    (idx < 1024 → ∃ t, exec (.lrd fd idx) s = .next t ∧ t.reg fd = (s.leafAt idx).toNat ∧ OnlyReg fd s t)) ∧
  (∀ idx, State.reset.leafAt idx = 0))

/-- ACCUM gives the root of the tree over the first n leaves, padded with copies of the last one to the smallest power of
two that is at least n and at least 2; only the destination changes; mode, width and leaf count are checked first
(44_merkle.md R214, R215). -/
def Obligations.AccumIsTheTreeRoot : Prop :=
  ∀ (fd : Reg) (n : Nat) (s : State),
    (n < 2 ^ 16 → decode (encodeImm 0x53 fd n) = .ok (.accum fd n)) ∧
    (s.run = false → FaultsWith (.accum fd n) s .paramsNotCommitted) ∧
    (s.run = true → s.P.t.toNat ≠ 3 → FaultsWith (.accum fd n) s .stateWidth) ∧
    (s.run = true → s.P.t.toNat = 3 → (n = 0 ∨ 1024 < n) → FaultsWith (.accum fd n) s .leafCount) ∧
    (Inv s → s.run = true → s.P.t.toNat = 3 → 0 < n → n ≤ 1024 →
      ∃ t k, exec (.accum fd n) s = .next t ∧ 0 < k ∧ n ≤ 2 ^ k ∧ (∀ j, 0 < j → n ≤ 2 ^ j → k ≤ j) ∧
        t.regVal fd = treeNode (compress s.permParams) (fun i => val (s.leafAt (min i (n - 1))).toNat) k 0 ∧
        t.reg fd = t.regVal fd * 2 ^ 256 % Config.p ∧ OnlyReg fd s t)

/-- The padding rule's consequences: one leaf is compressed with itself, two leaves are one compression, three leaves
repeat the last, and repeating the last leaf within the same bound does not change the root (44_merkle.md R216, R214). -/
def Obligations.PaddingRepeatsTheLastLeaf : Prop :=
  ∀ (c : PermParams) (a b x : Nat) (l : List Nat) (k : Nat),
    accumulate c [a] = compress c a a ∧ accumulate c [a, b] = compress c a b ∧
    accumulate c [a, b, x] = compress c (compress c a b) (compress c x x) ∧
    accumulate c [a, b, x] = accumulate c [a, b, x, x] ∧
    (l.length + 1 + k ≤ bound (l.length + 1) →
      accumulate c (l ++ [x] ++ List.replicate k x) = accumulate c (l ++ [x]))

end Statements
end

