-- ==== Sys2Proof/Laws/Codec.lean ====
section
/-! SUPPORT. The numbers of the encoded words, and of the fields the decoder takes from a word. -/

namespace Sys2Proof

/-- The number of a word of formats N, A, R2, R3 and C (30_encoding.md R99). -/
theorem toNat_encodeRegs {op a b c : Nat} (ho : op < 256) (ha : a < 32) (hb : b < 32) (hc : c < 32) :
    (encodeRegs op a b c).toNat = op * 2 ^ 24 + a * 2 ^ 19 + b * 2 ^ 14 + c * 2 ^ 9 := by
  simp only [encodeRegs, BitVec.toNat_ofNat]
  omega

/-- The number of a word of formats I and J (30_encoding.md R99). -/
theorem toNat_encodeImm {op ra imm : Nat} (ho : op < 256) (ha : ra < 32) (hi : imm < 65536) :
    (encodeImm op ra imm).toNat = op * 2 ^ 24 + ra * 2 ^ 19 + imm := by
  simp only [encodeImm, BitVec.toNat_ofNat]
  omega

theorem slice_lt (v lo width : Nat) : slice v lo width < 2 ^ width := Nat.mod_lt _ (by positivity)

theorem regField_val (v lo : Nat) : (regField v lo).val = slice v lo 5 := by
  have h := slice_lt v lo 5
  simp only [regField, Fin.ofNat]
  exact Nat.mod_eq_of_lt (by simpa using h)

/-- A register whose number is that of the field is the field. -/
theorem regField_eq {v lo : Nat} {r : Reg} (h : slice v lo 5 = r.val) : regField v lo = r :=
  Fin.ext ((regField_val v lo).trans h)

@[simp] theorem accept_zero (i : Instr) : accept 0 i = .ok i := rfl

theorem accept_ok {m : Nat} {i j : Instr} (h : accept m i = .ok j) : m = 0 ∧ i = j := by
  unfold accept at h
  split_ifs at h with h1
  exact ⟨h1, Except.ok.inj h⟩

/-- The bytes of a word, put together again, are the word (20_memory.md R65). -/
theorem bigEndian32_byteOf32 (w : Word32) :
    bigEndian32 (byteOf32 w 0) (byteOf32 w 1) (byteOf32 w 2) (byteOf32 w 3) = w := by
  apply BitVec.eq_of_toNat_eq
  have h := w.isLt
  simp only [bigEndian32, byteOf32, slice, BitVec.toNat_ofNat, Nat.reduceMul, Nat.reduceSub, Nat.reducePow,
    Nat.pow_zero, Nat.div_one]
  omega

theorem accept_eq_ok {m : Nat} {i j : Instr} : accept m i = .ok j ↔ m = 0 ∧ i = j :=
  ⟨accept_ok, fun ⟨h1, h2⟩ => by rw [h1, h2, accept_zero]⟩

/-! The arm of the decoder that each opcode selects (30_encoding.md R95). -/

theorem decode_nop {w : Word32} (h : slice w.toNat 24 8 = 0x00) :
    decode w = formatN w.toNat .nop := by
  simp only [decode, h]

theorem decode_ldc {w : Word32} (h : slice w.toNat 24 8 = 0x10) :
    decode w = formatA w.toNat .ldc := by
  simp only [decode, h]

theorem decode_ldr {w : Word32} (h : slice w.toNat 24 8 = 0x11) :
    decode w = formatA w.toNat .ldr := by
  simp only [decode, h]

theorem decode_stc {w : Word32} (h : slice w.toNat 24 8 = 0x12) :
    decode w = formatA w.toNat .stc := by
  simp only [decode, h]

theorem decode_str {w : Word32} (h : slice w.toNat 24 8 = 0x13) :
    decode w = formatA w.toNat .str := by
  simp only [decode, h]

theorem decode_ldi {w : Word32} (h : slice w.toNat 24 8 = 0x14) :
    decode w = formatI w.toNat 0 (.ldi · (slice w.toNat 0 16)) := by
  simp only [decode, h]

theorem decode_mov {w : Word32} (h : slice w.toNat 24 8 = 0x15) :
    decode w = formatR2 w.toNat .mov := by
  simp only [decode, h]

theorem decode_tomont {w : Word32} (h : slice w.toNat 24 8 = 0x16) :
    decode w = formatR2 w.toNat .tomont := by
  simp only [decode, h]

theorem decode_frommont {w : Word32} (h : slice w.toNat 24 8 = 0x17) :
    decode w = formatR2 w.toNat .frommont := by
  simp only [decode, h]

theorem decode_add {w : Word32} (h : slice w.toNat 24 8 = 0x20) :
    decode w = formatR3 w.toNat .add := by
  simp only [decode, h]

theorem decode_sub {w : Word32} (h : slice w.toNat 24 8 = 0x21) :
    decode w = formatR3 w.toNat .sub := by
  simp only [decode, h]

theorem decode_mul {w : Word32} (h : slice w.toNat 24 8 = 0x22) :
    decode w = formatR3 w.toNat .mul := by
  simp only [decode, h]

theorem decode_neg {w : Word32} (h : slice w.toNat 24 8 = 0x23) :
    decode w = formatR2 w.toNat .neg := by
  simp only [decode, h]

theorem decode_dbl {w : Word32} (h : slice w.toNat 24 8 = 0x24) :
    decode w = formatR2 w.toNat .dbl := by
  simp only [decode, h]

theorem decode_sqr {w : Word32} (h : slice w.toNat 24 8 = 0x25) :
    decode w = formatR2 w.toNat .sqr := by
  simp only [decode, h]

theorem decode_inv {w : Word32} (h : slice w.toNat 24 8 = 0x26) :
    decode w = formatR2 w.toNat .inv := by
  simp only [decode, h]

theorem decode_eq {w : Word32} (h : slice w.toNat 24 8 = 0x27) :
    decode w = formatC w.toNat .eq := by
  simp only [decode, h]

theorem decode_psettd {w : Word32} (h : slice w.toNat 24 8 = 0x30) :
    decode w = formatJ w.toNat (slice w.toNat 5 3 + slice w.toNat 12 4) (.psettd (slice w.toNat 0 5) (slice w.toNat 8 4)) := by
  simp only [decode, h]

theorem decode_psetrnd {w : Word32} (h : slice w.toNat 24 8 = 0x31) :
    decode w = formatJ w.toNat 0 (.psetrnd (slice w.toNat 8 8) (slice w.toNat 0 8)) := by
  simp only [decode, h]

theorem decode_psetrc {w : Word32} (h : slice w.toNat 24 8 = 0x32) :
    decode w = formatI w.toNat (slice w.toNat 12 4) (.psetrc · (slice w.toNat 5 7) (slice w.toNat 0 5)) := by
  simp only [decode, h]

theorem decode_psetdg {w : Word32} (h : slice w.toNat 24 8 = 0x33) :
    decode w = formatI w.toNat (slice w.toNat 5 11) (.psetdg · (slice w.toNat 0 5)) := by
  simp only [decode, h]

theorem decode_pcommit {w : Word32} (h : slice w.toNat 24 8 = 0x34) :
    decode w = formatN w.toNat .pcommit := by
  simp only [decode, h]

theorem decode_arc {w : Word32} (h : slice w.toNat 24 8 = 0x40) :
    decode w = formatJ w.toNat 0 (.arc (slice w.toNat 0 16)) := by
  simp only [decode, h]

theorem decode_arcp {w : Word32} (h : slice w.toNat 24 8 = 0x41) :
    decode w = formatJ w.toNat 0 (.arcp (slice w.toNat 0 16)) := by
  simp only [decode, h]

theorem decode_sbox {w : Word32} (h : slice w.toNat 24 8 = 0x42) :
    decode w = formatR2 w.toNat .sbox := by
  simp only [decode, h]

theorem decode_sboxf {w : Word32} (h : slice w.toNat 24 8 = 0x43) :
    decode w = formatN w.toNat .sboxf := by
  simp only [decode, h]

theorem decode_mext {w : Word32} (h : slice w.toNat 24 8 = 0x44) :
    decode w = formatN w.toNat .mext := by
  simp only [decode, h]

theorem decode_mint {w : Word32} (h : slice w.toNat 24 8 = 0x45) :
    decode w = formatN w.toNat .mint := by
  simp only [decode, h]

theorem decode_perm {w : Word32} (h : slice w.toNat 24 8 = 0x46) :
    decode w = formatJ w.toNat 0 (.perm (slice w.toNat 0 16)) := by
  simp only [decode, h]

theorem decode_cmpr {w : Word32} (h : slice w.toNat 24 8 = 0x50) :
    decode w = formatR3 w.toNat .cmpr := by
  simp only [decode, h]

theorem decode_lwr {w : Word32} (h : slice w.toNat 24 8 = 0x51) :
    decode w = formatI w.toNat 0 (.lwr · (slice w.toNat 0 16)) := by
  simp only [decode, h]

theorem decode_lrd {w : Word32} (h : slice w.toNat 24 8 = 0x52) :
    decode w = formatI w.toNat 0 (.lrd · (slice w.toNat 0 16)) := by
  simp only [decode, h]

theorem decode_accum {w : Word32} (h : slice w.toNat 24 8 = 0x53) :
    decode w = formatI w.toNat 0 (.accum · (slice w.toNat 0 16)) := by
  simp only [decode, h]

/-- An opcode value of no row (30_encoding.md R96, case a). -/
theorem decode_unassigned {w : Word32}
    (h : slice w.toNat 24 8 ∉ opTable.map fun row => slice row.pattern.toNat 24 8) :
    decode w = .error .unassignedOpcode := by
  have e : (opTable.map fun row => slice row.pattern.toNat 24 8) =
      [0, 16, 17, 18, 19, 20, 21, 22, 23, 32, 33, 34, 35, 36, 37, 38, 39, 48, 49, 50, 51, 52, 64, 65, 66, 67, 68, 69, 70,
        80, 81, 82, 83] := by decide
  obtain ⟨op, ho⟩ : ∃ op, slice w.toNat 24 8 = op := ⟨_, rfl⟩
  rw [e, ho] at h
  simp only [List.mem_cons, not_or] at h
  unfold decode
  simp only [ho]
  split <;> first | rfl | (exfalso; omega)

end Sys2Proof
end

