-- ==== Sys2Proof/Laws/Field.lean ====
section
/-! SUPPORT. The field operations of Machine/Field.lean: ranges, their images in `ZMod p`, and the two encodings as
inverse bijections on [0, p) (00_scope.md R11, R13). -/

namespace Sys2Proof.Machine

theorem p_pos : 0 < Config.p := by decide

theorem one_lt_p : 1 < Config.p := by decide

theorem p_lt_two_pow : Config.p < 2 ^ 256 := by decide

theorem p_lt_two_pow_254 : Config.p < 2 ^ 254 := by decide

/-- `Rinv` is the inverse of the radix (00_scope.md R7). -/
theorem R_mul_Rinv : Config.R * Config.Rinv % Config.p = 1 := by decide

theorem mont_lt (v : Nat) : mont v < Config.p := Nat.mod_lt _ p_pos

theorem val_lt (w : Nat) : val w < Config.p := Nat.mod_lt _ p_pos

theorem fadd_lt (a b : Nat) : fadd a b < Config.p := Nat.mod_lt _ p_pos

theorem fmul_lt (a b : Nat) : fmul a b < Config.p := Nat.mod_lt _ p_pos

theorem montMul_lt (a b : Nat) : montMul a b < Config.p := Nat.mod_lt _ p_pos

theorem fdbl_lt (a : Nat) : fdbl a < Config.p := Nat.mod_lt _ p_pos

theorem fsum_lt (l : List Nat) : fsum l < Config.p := Nat.mod_lt _ p_pos

theorem fsub_lt (a b : Nat) : fsub a b < Config.p := by
  have hp : (0 : Int) < (Config.p : Int) := by exact_mod_cast p_pos
  have h1 := Int.emod_nonneg ((a : Int) - b) hp.ne'
  have h2 := Int.emod_lt_of_pos ((a : Int) - b) hp
  unfold fsub
  omega

/-- Two numbers below p are equal when their images in `ZMod p` are. -/
theorem eq_of_zmod {a b : Nat} (ha : a < Config.p) (hb : b < Config.p)
    (h : (a : ZMod Config.p) = (b : ZMod Config.p)) : a = b := by
  have := (ZMod.natCast_eq_natCast_iff' a b Config.p).mp h
  rwa [Nat.mod_eq_of_lt ha, Nat.mod_eq_of_lt hb] at this

@[simp] theorem zmod_mod (a : Nat) : ((a % Config.p : Nat) : ZMod Config.p) = a := ZMod.natCast_mod a Config.p

theorem zmod_R_mul_Rinv : (Config.R : ZMod Config.p) * (Config.Rinv : ZMod Config.p) = 1 := by
  have h := congrArg (Nat.cast : Nat → ZMod Config.p) R_mul_Rinv
  simpa using h

theorem zmod_mont (v : Nat) : ((mont v : Nat) : ZMod Config.p) = v * Config.R := by simp [mont]

theorem zmod_val (w : Nat) : ((val w : Nat) : ZMod Config.p) = w * Config.Rinv := by simp [val]

theorem zmod_fadd (a b : Nat) : ((fadd a b : Nat) : ZMod Config.p) = a + b := by simp [fadd]

theorem zmod_fmul (a b : Nat) : ((fmul a b : Nat) : ZMod Config.p) = a * b := by simp [fmul]

theorem zmod_montMul (a b : Nat) : ((montMul a b : Nat) : ZMod Config.p) = a * b * Config.Rinv := by simp [montMul]

theorem zmod_fdbl (a : Nat) : ((fdbl a : Nat) : ZMod Config.p) = 2 * a := by simp [fdbl]

theorem zmod_fsum (l : List Nat) : ((fsum l : Nat) : ZMod Config.p) = (l.map (Nat.cast : Nat → ZMod Config.p)).sum := by
  simp [fsum, Nat.cast_list_sum]

theorem zmod_fsub (a b : Nat) : ((fsub a b : Nat) : ZMod Config.p) = a - b := by
  have hp : (Config.p : Int) ≠ 0 := by exact_mod_cast p_pos.ne'
  have h : ((fsub a b : Nat) : Int) = ((a : Int) - b) % (Config.p : Int) := by
    unfold fsub
    exact Int.toNat_of_nonneg (Int.emod_nonneg _ hp)
  have h' := congrArg (Int.cast : Int → ZMod Config.p) h
  simpa using h'

/-- The two encodings are inverse on [0, p) (00_scope.md R11). -/
theorem val_mont {v : Nat} (h : v < Config.p) : val (mont v) = v := by
  refine eq_of_zmod (val_lt _) h ?_
  rw [zmod_val, zmod_mont, mul_assoc, zmod_R_mul_Rinv, mul_one]

/-- The two encodings are inverse on [0, p) (00_scope.md R11). -/
theorem mont_val {w : Nat} (h : w < Config.p) : mont (val w) = w := by
  refine eq_of_zmod (mont_lt _) h ?_
  rw [zmod_mont, zmod_val, mul_assoc, mul_comm (Config.Rinv : ZMod Config.p), zmod_R_mul_Rinv, mul_one]

/-- `val` reads any encoded number back reduced. -/
theorem val_mont_mod (v : Nat) : val (mont v) = v % Config.p := by
  refine eq_of_zmod (val_lt _) (Nat.mod_lt _ p_pos) ?_
  rw [zmod_val, zmod_mont, mul_assoc, zmod_R_mul_Rinv, mul_one, zmod_mod]

theorem val_inj {a b : Nat} (ha : a < Config.p) (hb : b < Config.p) (h : val a = val b) : a = b := by
  rw [← mont_val ha, h, mont_val hb]

theorem val_zero : val 0 = 0 := by rw [val, Nat.zero_mul, Nat.zero_mod]

theorem mont_zero : mont 0 = 0 := by rw [mont, Nat.zero_mul, Nat.zero_mod]

/-- A word below p stands for ZERO exactly when it is 0 (41_field_arith.md R147). -/
theorem val_eq_zero_iff {w : Nat} (h : w < Config.p) : val w = 0 ↔ w = 0 :=
  ⟨fun hv => val_inj h p_pos (hv.trans val_zero.symm), fun hw => by rw [hw, val_zero]⟩

theorem val_fadd (a b : Nat) : val (fadd a b) = fadd (val a) (val b) :=
  eq_of_zmod (val_lt _) (fadd_lt _ _) (by simp only [zmod_val, zmod_fadd, add_mul])

theorem val_fsub (a b : Nat) : val (fsub a b) = fsub (val a) (val b) :=
  eq_of_zmod (val_lt _) (fsub_lt _ _) (by simp only [zmod_val, zmod_fsub, sub_mul])

theorem val_fdbl (a : Nat) : val (fdbl a) = fdbl (val a) :=
  eq_of_zmod (val_lt _) (fdbl_lt _) (by simp only [zmod_val, zmod_fdbl, mul_assoc])

theorem val_montMul (a b : Nat) : val (montMul a b) = fmul (val a) (val b) :=
  eq_of_zmod (val_lt _) (fmul_lt _ _) (by simp only [zmod_val, zmod_montMul, zmod_fmul]; ring)

theorem mont_fadd (a b : Nat) : mont (fadd a b) = fadd (mont a) (mont b) :=
  eq_of_zmod (mont_lt _) (fadd_lt _ _) (by simp only [zmod_mont, zmod_fadd, add_mul])

theorem mont_fmul (a b : Nat) : mont (fmul a b) = montMul (mont a) (mont b) :=
  eq_of_zmod (mont_lt _) (montMul_lt _ _) (by
    simp only [zmod_mont, zmod_montMul, zmod_fmul]
    have h := zmod_R_mul_Rinv
    linear_combination (-(a : ZMod Config.p) * b * Config.R) * h)

/-- Subtraction by cases, as 41_field_arith.md R142 writes it. -/
theorem fsub_eq_ite {a b : Nat} (ha : a < Config.p) (hb : b < Config.p) :
    fsub a b = if b ≤ a then a - b else a + Config.p - b := by
  have h0 : fsub a b < Config.p := fsub_lt a b
  have hr : (if b ≤ a then a - b else a + Config.p - b) < Config.p := by split <;> omega
  refine eq_of_zmod h0 hr ?_
  rw [zmod_fsub]
  split
  · next h => rw [Nat.cast_sub h]
  · next h => rw [Nat.cast_sub (by omega)]; simp

/-- `powMod` is the power, where the fuel covers the exponent. -/
theorem powMod_eq (b fuel e : Nat) (h : e < 2 ^ fuel) : powMod b fuel e = b ^ e % Config.p := by
  induction fuel generalizing e with
  | zero =>
    have : e = 0 := by simpa using h
    subst this
    simp [powMod]
  | succ k ih =>
    have hk : e / 2 < 2 ^ k := by rw [pow_succ] at h; omega
    have he : e = e / 2 + e / 2 + e % 2 := by omega
    simp only [powMod, ih _ hk]
    split
    · next h1 =>
      conv_rhs => rw [he, h1, pow_add, pow_add, pow_one]
      simp [Nat.mul_mod]
    · next h1 =>
      have h0 : e % 2 = 0 := by omega
      conv_rhs => rw [he, h0, pow_add, pow_add, pow_zero, mul_one]
      simp [Nat.mul_mod]

theorem finv_eq (a : Nat) : finv a = a ^ (Config.p - 2) % Config.p :=
  powMod_eq a 254 (Config.p - 2) (by decide)

theorem finv_lt (a : Nat) : finv a < Config.p := by rw [finv_eq]; exact Nat.mod_lt _ p_pos

end Sys2Proof.Machine
end

