-- ==== Sys2Proof/Laws/State.lean ====
section
/-! SUPPORT. One lemma per field of State per update, each true by rfl, so that no proof unfolds a record update. -/

namespace Sys2Proof.Machine

@[simp] theorem State.setReg_f (s : State) (r : Reg) (n : Nat) : (s.setReg r n).f = s.f.set r.val (BitVec.ofNat 256 n) := rfl
@[simp] theorem State.setReg_err (s : State) (r : Reg) (n : Nat) : (s.setReg r n).err = s.err := rfl
@[simp] theorem State.setReg_run (s : State) (r : Reg) (n : Nat) : (s.setReg r n).run = s.run := rfl
@[simp] theorem State.setReg_eqf (s : State) (r : Reg) (n : Nat) : (s.setReg r n).eqf = s.eqf := rfl
@[simp] theorem State.setReg_errcode (s : State) (r : Reg) (n : Nat) : (s.setReg r n).errcode = s.errcode := rfl
@[simp] theorem State.setReg_errcmd (s : State) (r : Reg) (n : Nat) : (s.setReg r n).errcmd = s.errcmd := rfl
@[simp] theorem State.setReg_P (s : State) (r : Reg) (n : Nat) : (s.setReg r n).P = s.P := rfl
@[simp] theorem State.setReg_rc (s : State) (r : Reg) (n : Nat) : (s.setReg r n).rc = s.rc := rfl
@[simp] theorem State.setReg_dg (s : State) (r : Reg) (n : Nat) : (s.setReg r n).dg = s.dg := rfl
@[simp] theorem State.setReg_leaf (s : State) (r : Reg) (n : Nat) : (s.setReg r n).leaf = s.leaf := rfl
@[simp] theorem State.setReg_din (s : State) (r : Reg) (n : Nat) : (s.setReg r n).din = s.din := rfl
@[simp] theorem State.setReg_dinm (s : State) (r : Reg) (n : Nat) : (s.setReg r n).dinm = s.dinm := rfl
@[simp] theorem State.setReg_dout (s : State) (r : Reg) (n : Nat) : (s.setReg r n).dout = s.dout := rfl
@[simp] theorem State.setReg_inputs (s : State) (r : Reg) (n : Nat) : (s.setReg r n).inputs = s.inputs := rfl
@[simp] theorem State.setReg_rdata (s : State) (r : Reg) (n : Nat) : (s.setReg r n).rdata = s.rdata := rfl

@[simp] theorem State.setElems_err (s : State) (ws : List Nat) : (s.setElems ws).err = s.err := rfl
@[simp] theorem State.setElems_run (s : State) (ws : List Nat) : (s.setElems ws).run = s.run := rfl
@[simp] theorem State.setElems_eqf (s : State) (ws : List Nat) : (s.setElems ws).eqf = s.eqf := rfl
@[simp] theorem State.setElems_errcode (s : State) (ws : List Nat) : (s.setElems ws).errcode = s.errcode := rfl
@[simp] theorem State.setElems_errcmd (s : State) (ws : List Nat) : (s.setElems ws).errcmd = s.errcmd := rfl
@[simp] theorem State.setElems_P (s : State) (ws : List Nat) : (s.setElems ws).P = s.P := rfl
@[simp] theorem State.setElems_rc (s : State) (ws : List Nat) : (s.setElems ws).rc = s.rc := rfl
@[simp] theorem State.setElems_dg (s : State) (ws : List Nat) : (s.setElems ws).dg = s.dg := rfl
@[simp] theorem State.setElems_leaf (s : State) (ws : List Nat) : (s.setElems ws).leaf = s.leaf := rfl
@[simp] theorem State.setElems_din (s : State) (ws : List Nat) : (s.setElems ws).din = s.din := rfl
@[simp] theorem State.setElems_dinm (s : State) (ws : List Nat) : (s.setElems ws).dinm = s.dinm := rfl
@[simp] theorem State.setElems_dout (s : State) (ws : List Nat) : (s.setElems ws).dout = s.dout := rfl
@[simp] theorem State.setElems_inputs (s : State) (ws : List Nat) : (s.setElems ws).inputs = s.inputs := rfl
@[simp] theorem State.setElems_rdata (s : State) (ws : List Nat) : (s.setElems ws).rdata = s.rdata := rfl

@[simp] theorem State.setRc_f (s : State) (r c : Nat) (w : Word) : (s.setRc r c w).f = s.f := rfl
@[simp] theorem State.setRc_err (s : State) (r c : Nat) (w : Word) : (s.setRc r c w).err = s.err := rfl
@[simp] theorem State.setRc_run (s : State) (r c : Nat) (w : Word) : (s.setRc r c w).run = s.run := rfl
@[simp] theorem State.setRc_eqf (s : State) (r c : Nat) (w : Word) : (s.setRc r c w).eqf = s.eqf := rfl
@[simp] theorem State.setRc_errcode (s : State) (r c : Nat) (w : Word) : (s.setRc r c w).errcode = s.errcode := rfl
@[simp] theorem State.setRc_errcmd (s : State) (r c : Nat) (w : Word) : (s.setRc r c w).errcmd = s.errcmd := rfl
@[simp] theorem State.setRc_P (s : State) (r c : Nat) (w : Word) : (s.setRc r c w).P = s.P := rfl
@[simp] theorem State.setRc_rc (s : State) (r c : Nat) (w : Word) : (s.setRc r c w).rc = Store.put s.rc (rcKey r c) w := rfl
@[simp] theorem State.setRc_dg (s : State) (r c : Nat) (w : Word) : (s.setRc r c w).dg = s.dg := rfl
@[simp] theorem State.setRc_leaf (s : State) (r c : Nat) (w : Word) : (s.setRc r c w).leaf = s.leaf := rfl
@[simp] theorem State.setRc_din (s : State) (r c : Nat) (w : Word) : (s.setRc r c w).din = s.din := rfl
@[simp] theorem State.setRc_dinm (s : State) (r c : Nat) (w : Word) : (s.setRc r c w).dinm = s.dinm := rfl
@[simp] theorem State.setRc_dout (s : State) (r c : Nat) (w : Word) : (s.setRc r c w).dout = s.dout := rfl
@[simp] theorem State.setRc_inputs (s : State) (r c : Nat) (w : Word) : (s.setRc r c w).inputs = s.inputs := rfl
@[simp] theorem State.setRc_rdata (s : State) (r c : Nat) (w : Word) : (s.setRc r c w).rdata = s.rdata := rfl

@[simp] theorem State.setDg_f (s : State) (c : Nat) (w : Word) : (s.setDg c w).f = s.f := rfl
@[simp] theorem State.setDg_err (s : State) (c : Nat) (w : Word) : (s.setDg c w).err = s.err := rfl
@[simp] theorem State.setDg_run (s : State) (c : Nat) (w : Word) : (s.setDg c w).run = s.run := rfl
@[simp] theorem State.setDg_eqf (s : State) (c : Nat) (w : Word) : (s.setDg c w).eqf = s.eqf := rfl
@[simp] theorem State.setDg_errcode (s : State) (c : Nat) (w : Word) : (s.setDg c w).errcode = s.errcode := rfl
@[simp] theorem State.setDg_errcmd (s : State) (c : Nat) (w : Word) : (s.setDg c w).errcmd = s.errcmd := rfl
@[simp] theorem State.setDg_P (s : State) (c : Nat) (w : Word) : (s.setDg c w).P = s.P := rfl
@[simp] theorem State.setDg_rc (s : State) (c : Nat) (w : Word) : (s.setDg c w).rc = s.rc := rfl
@[simp] theorem State.setDg_dg (s : State) (c : Nat) (w : Word) : (s.setDg c w).dg = Store.put s.dg c w := rfl
@[simp] theorem State.setDg_leaf (s : State) (c : Nat) (w : Word) : (s.setDg c w).leaf = s.leaf := rfl
@[simp] theorem State.setDg_din (s : State) (c : Nat) (w : Word) : (s.setDg c w).din = s.din := rfl
@[simp] theorem State.setDg_dinm (s : State) (c : Nat) (w : Word) : (s.setDg c w).dinm = s.dinm := rfl
@[simp] theorem State.setDg_dout (s : State) (c : Nat) (w : Word) : (s.setDg c w).dout = s.dout := rfl
@[simp] theorem State.setDg_inputs (s : State) (c : Nat) (w : Word) : (s.setDg c w).inputs = s.inputs := rfl
@[simp] theorem State.setDg_rdata (s : State) (c : Nat) (w : Word) : (s.setDg c w).rdata = s.rdata := rfl

@[simp] theorem State.setLeaf_f (s : State) (i : Nat) (w : Word) : (s.setLeaf i w).f = s.f := rfl
@[simp] theorem State.setLeaf_err (s : State) (i : Nat) (w : Word) : (s.setLeaf i w).err = s.err := rfl
@[simp] theorem State.setLeaf_run (s : State) (i : Nat) (w : Word) : (s.setLeaf i w).run = s.run := rfl
@[simp] theorem State.setLeaf_eqf (s : State) (i : Nat) (w : Word) : (s.setLeaf i w).eqf = s.eqf := rfl
@[simp] theorem State.setLeaf_errcode (s : State) (i : Nat) (w : Word) : (s.setLeaf i w).errcode = s.errcode := rfl
@[simp] theorem State.setLeaf_errcmd (s : State) (i : Nat) (w : Word) : (s.setLeaf i w).errcmd = s.errcmd := rfl
@[simp] theorem State.setLeaf_P (s : State) (i : Nat) (w : Word) : (s.setLeaf i w).P = s.P := rfl
@[simp] theorem State.setLeaf_rc (s : State) (i : Nat) (w : Word) : (s.setLeaf i w).rc = s.rc := rfl
@[simp] theorem State.setLeaf_dg (s : State) (i : Nat) (w : Word) : (s.setLeaf i w).dg = s.dg := rfl
@[simp] theorem State.setLeaf_leaf (s : State) (i : Nat) (w : Word) : (s.setLeaf i w).leaf = Memory.write s.leaf i w := rfl
@[simp] theorem State.setLeaf_din (s : State) (i : Nat) (w : Word) : (s.setLeaf i w).din = s.din := rfl
@[simp] theorem State.setLeaf_dinm (s : State) (i : Nat) (w : Word) : (s.setLeaf i w).dinm = s.dinm := rfl
@[simp] theorem State.setLeaf_dout (s : State) (i : Nat) (w : Word) : (s.setLeaf i w).dout = s.dout := rfl
@[simp] theorem State.setLeaf_inputs (s : State) (i : Nat) (w : Word) : (s.setLeaf i w).inputs = s.inputs := rfl
@[simp] theorem State.setLeaf_rdata (s : State) (i : Nat) (w : Word) : (s.setLeaf i w).rdata = s.rdata := rfl

@[simp] theorem State.raise_f (s : State) (c : Cause) (w : Word32) : (s.raise c w).f = s.f := rfl
@[simp] theorem State.raise_err (s : State) (c : Cause) (w : Word32) : (s.raise c w).err = true := rfl
@[simp] theorem State.raise_run (s : State) (c : Cause) (w : Word32) : (s.raise c w).run = s.run := rfl
@[simp] theorem State.raise_eqf (s : State) (c : Cause) (w : Word32) : (s.raise c w).eqf = s.eqf := rfl
@[simp] theorem State.raise_errcode (s : State) (c : Cause) (w : Word32) : (s.raise c w).errcode = c.code := rfl
@[simp] theorem State.raise_errcmd (s : State) (c : Cause) (w : Word32) : (s.raise c w).errcmd = w := rfl
@[simp] theorem State.raise_P (s : State) (c : Cause) (w : Word32) : (s.raise c w).P = s.P := rfl
@[simp] theorem State.raise_rc (s : State) (c : Cause) (w : Word32) : (s.raise c w).rc = s.rc := rfl
@[simp] theorem State.raise_dg (s : State) (c : Cause) (w : Word32) : (s.raise c w).dg = s.dg := rfl
@[simp] theorem State.raise_leaf (s : State) (c : Cause) (w : Word32) : (s.raise c w).leaf = s.leaf := rfl
@[simp] theorem State.raise_din (s : State) (c : Cause) (w : Word32) : (s.raise c w).din = s.din := rfl
@[simp] theorem State.raise_dinm (s : State) (c : Cause) (w : Word32) : (s.raise c w).dinm = s.dinm := rfl
@[simp] theorem State.raise_dout (s : State) (c : Cause) (w : Word32) : (s.raise c w).dout = s.dout := rfl
@[simp] theorem State.raise_inputs (s : State) (c : Cause) (w : Word32) : (s.raise c w).inputs = s.inputs := rfl
@[simp] theorem State.raise_rdata (s : State) (c : Cause) (w : Word32) : (s.raise c w).rdata = s.rdata := rfl

@[simp] theorem State.clearFault_f (s : State) : (s.clearFault).f = s.f := rfl
@[simp] theorem State.clearFault_err (s : State) : (s.clearFault).err = false := rfl
@[simp] theorem State.clearFault_run (s : State) : (s.clearFault).run = s.run := rfl
@[simp] theorem State.clearFault_eqf (s : State) : (s.clearFault).eqf = s.eqf := rfl
@[simp] theorem State.clearFault_errcode (s : State) : (s.clearFault).errcode = 0 := rfl
@[simp] theorem State.clearFault_errcmd (s : State) : (s.clearFault).errcmd = 0 := rfl
@[simp] theorem State.clearFault_P (s : State) : (s.clearFault).P = s.P := rfl
@[simp] theorem State.clearFault_rc (s : State) : (s.clearFault).rc = s.rc := rfl
@[simp] theorem State.clearFault_dg (s : State) : (s.clearFault).dg = s.dg := rfl
@[simp] theorem State.clearFault_leaf (s : State) : (s.clearFault).leaf = s.leaf := rfl
@[simp] theorem State.clearFault_din (s : State) : (s.clearFault).din = s.din := rfl
@[simp] theorem State.clearFault_dinm (s : State) : (s.clearFault).dinm = s.dinm := rfl
@[simp] theorem State.clearFault_dout (s : State) : (s.clearFault).dout = s.dout := rfl
@[simp] theorem State.clearFault_inputs (s : State) : (s.clearFault).inputs = s.inputs := rfl
@[simp] theorem State.clearFault_rdata (s : State) : (s.clearFault).rdata = s.rdata := rfl

@[simp] theorem State.clearDinm_f (s : State) : (s.clearDinm).f = s.f := rfl
@[simp] theorem State.clearDinm_err (s : State) : (s.clearDinm).err = s.err := rfl
@[simp] theorem State.clearDinm_run (s : State) : (s.clearDinm).run = s.run := rfl
@[simp] theorem State.clearDinm_eqf (s : State) : (s.clearDinm).eqf = s.eqf := rfl
@[simp] theorem State.clearDinm_errcode (s : State) : (s.clearDinm).errcode = s.errcode := rfl
@[simp] theorem State.clearDinm_errcmd (s : State) : (s.clearDinm).errcmd = s.errcmd := rfl
@[simp] theorem State.clearDinm_P (s : State) : (s.clearDinm).P = s.P := rfl
@[simp] theorem State.clearDinm_rc (s : State) : (s.clearDinm).rc = s.rc := rfl
@[simp] theorem State.clearDinm_dg (s : State) : (s.clearDinm).dg = s.dg := rfl
@[simp] theorem State.clearDinm_leaf (s : State) : (s.clearDinm).leaf = s.leaf := rfl
@[simp] theorem State.clearDinm_din (s : State) : (s.clearDinm).din = s.din := rfl
@[simp] theorem State.clearDinm_dinm (s : State) : (s.clearDinm).dinm = 0 := rfl
@[simp] theorem State.clearDinm_dout (s : State) : (s.clearDinm).dout = s.dout := rfl
@[simp] theorem State.clearDinm_inputs (s : State) : (s.clearDinm).inputs = s.inputs := rfl
@[simp] theorem State.clearDinm_rdata (s : State) : (s.clearDinm).rdata = s.rdata := rfl

@[simp] theorem State.setDout_f (s : State) (x : Nat) : (s.setDout x).f = s.f := rfl
@[simp] theorem State.setDout_err (s : State) (x : Nat) : (s.setDout x).err = s.err := rfl
@[simp] theorem State.setDout_run (s : State) (x : Nat) : (s.setDout x).run = s.run := rfl
@[simp] theorem State.setDout_eqf (s : State) (x : Nat) : (s.setDout x).eqf = s.eqf := rfl
@[simp] theorem State.setDout_errcode (s : State) (x : Nat) : (s.setDout x).errcode = s.errcode := rfl
@[simp] theorem State.setDout_errcmd (s : State) (x : Nat) : (s.setDout x).errcmd = s.errcmd := rfl
@[simp] theorem State.setDout_P (s : State) (x : Nat) : (s.setDout x).P = s.P := rfl
@[simp] theorem State.setDout_rc (s : State) (x : Nat) : (s.setDout x).rc = s.rc := rfl
@[simp] theorem State.setDout_dg (s : State) (x : Nat) : (s.setDout x).dg = s.dg := rfl
@[simp] theorem State.setDout_leaf (s : State) (x : Nat) : (s.setDout x).leaf = s.leaf := rfl
@[simp] theorem State.setDout_din (s : State) (x : Nat) : (s.setDout x).din = s.din := rfl
@[simp] theorem State.setDout_dinm (s : State) (x : Nat) : (s.setDout x).dinm = s.dinm := rfl
@[simp] theorem State.setDout_inputs (s : State) (x : Nat) : (s.setDout x).inputs = s.inputs := rfl
@[simp] theorem State.setDout_rdata (s : State) (x : Nat) : (s.setDout x).rdata = s.rdata := rfl

@[simp] theorem State.setEqf_f (s : State) (b : Bool) : (s.setEqf b).f = s.f := rfl
@[simp] theorem State.setEqf_err (s : State) (b : Bool) : (s.setEqf b).err = s.err := rfl
@[simp] theorem State.setEqf_run (s : State) (b : Bool) : (s.setEqf b).run = s.run := rfl
@[simp] theorem State.setEqf_eqf (s : State) (b : Bool) : (s.setEqf b).eqf = b := rfl
@[simp] theorem State.setEqf_errcode (s : State) (b : Bool) : (s.setEqf b).errcode = s.errcode := rfl
@[simp] theorem State.setEqf_errcmd (s : State) (b : Bool) : (s.setEqf b).errcmd = s.errcmd := rfl
@[simp] theorem State.setEqf_P (s : State) (b : Bool) : (s.setEqf b).P = s.P := rfl
@[simp] theorem State.setEqf_rc (s : State) (b : Bool) : (s.setEqf b).rc = s.rc := rfl
@[simp] theorem State.setEqf_dg (s : State) (b : Bool) : (s.setEqf b).dg = s.dg := rfl
@[simp] theorem State.setEqf_leaf (s : State) (b : Bool) : (s.setEqf b).leaf = s.leaf := rfl
@[simp] theorem State.setEqf_din (s : State) (b : Bool) : (s.setEqf b).din = s.din := rfl
@[simp] theorem State.setEqf_dinm (s : State) (b : Bool) : (s.setEqf b).dinm = s.dinm := rfl
@[simp] theorem State.setEqf_dout (s : State) (b : Bool) : (s.setEqf b).dout = s.dout := rfl
@[simp] theorem State.setEqf_inputs (s : State) (b : Bool) : (s.setEqf b).inputs = s.inputs := rfl
@[simp] theorem State.setEqf_rdata (s : State) (b : Bool) : (s.setEqf b).rdata = s.rdata := rfl

@[simp] theorem State.enterRun_f (s : State) : (s.enterRun).f = s.f := rfl
@[simp] theorem State.enterRun_err (s : State) : (s.enterRun).err = s.err := rfl
@[simp] theorem State.enterRun_run (s : State) : (s.enterRun).run = true := rfl
@[simp] theorem State.enterRun_eqf (s : State) : (s.enterRun).eqf = s.eqf := rfl
@[simp] theorem State.enterRun_errcode (s : State) : (s.enterRun).errcode = s.errcode := rfl
@[simp] theorem State.enterRun_errcmd (s : State) : (s.enterRun).errcmd = s.errcmd := rfl
@[simp] theorem State.enterRun_P (s : State) : (s.enterRun).P = s.P := rfl
@[simp] theorem State.enterRun_rc (s : State) : (s.enterRun).rc = s.rc := rfl
@[simp] theorem State.enterRun_dg (s : State) : (s.enterRun).dg = s.dg := rfl
@[simp] theorem State.enterRun_leaf (s : State) : (s.enterRun).leaf = s.leaf := rfl
@[simp] theorem State.enterRun_din (s : State) : (s.enterRun).din = s.din := rfl
@[simp] theorem State.enterRun_dinm (s : State) : (s.enterRun).dinm = s.dinm := rfl
@[simp] theorem State.enterRun_dout (s : State) : (s.enterRun).dout = s.dout := rfl
@[simp] theorem State.enterRun_inputs (s : State) : (s.enterRun).inputs = s.inputs := rfl
@[simp] theorem State.enterRun_rdata (s : State) : (s.enterRun).rdata = s.rdata := rfl

@[simp] theorem memRead_f (s : State) (off : Nat) : (memRead off s).f = s.f := rfl
@[simp] theorem memRead_err (s : State) (off : Nat) : (memRead off s).err = s.err := rfl
@[simp] theorem memRead_run (s : State) (off : Nat) : (memRead off s).run = s.run := rfl
@[simp] theorem memRead_eqf (s : State) (off : Nat) : (memRead off s).eqf = s.eqf := rfl
@[simp] theorem memRead_errcode (s : State) (off : Nat) : (memRead off s).errcode = s.errcode := rfl
@[simp] theorem memRead_errcmd (s : State) (off : Nat) : (memRead off s).errcmd = s.errcmd := rfl
@[simp] theorem memRead_P (s : State) (off : Nat) : (memRead off s).P = s.P := rfl
@[simp] theorem memRead_rc (s : State) (off : Nat) : (memRead off s).rc = s.rc := rfl
@[simp] theorem memRead_dg (s : State) (off : Nat) : (memRead off s).dg = s.dg := rfl
@[simp] theorem memRead_leaf (s : State) (off : Nat) : (memRead off s).leaf = s.leaf := rfl
@[simp] theorem memRead_din (s : State) (off : Nat) : (memRead off s).din = s.din := rfl
@[simp] theorem memRead_dinm (s : State) (off : Nat) : (memRead off s).dinm = s.dinm := rfl
@[simp] theorem memRead_dout (s : State) (off : Nat) : (memRead off s).dout = s.dout := rfl
@[simp] theorem memRead_inputs (s : State) (off : Nat) : (memRead off s).inputs = s.inputs := rfl
@[simp] theorem memRead_rdata (s : State) (off : Nat) : (memRead off s).rdata = s.busValue (busReg off) :: s.rdata := rfl

@[simp] theorem writeDin_f (s : State) (k : Fin 8) (v : Word32) : (writeDin k v s).f = s.f := rfl
@[simp] theorem writeDin_err (s : State) (k : Fin 8) (v : Word32) : (writeDin k v s).err = s.err := rfl
@[simp] theorem writeDin_run (s : State) (k : Fin 8) (v : Word32) : (writeDin k v s).run = s.run := rfl
@[simp] theorem writeDin_eqf (s : State) (k : Fin 8) (v : Word32) : (writeDin k v s).eqf = s.eqf := rfl
@[simp] theorem writeDin_errcode (s : State) (k : Fin 8) (v : Word32) : (writeDin k v s).errcode = s.errcode := rfl
@[simp] theorem writeDin_errcmd (s : State) (k : Fin 8) (v : Word32) : (writeDin k v s).errcmd = s.errcmd := rfl
@[simp] theorem writeDin_P (s : State) (k : Fin 8) (v : Word32) : (writeDin k v s).P = s.P := rfl
@[simp] theorem writeDin_rc (s : State) (k : Fin 8) (v : Word32) : (writeDin k v s).rc = s.rc := rfl
@[simp] theorem writeDin_dg (s : State) (k : Fin 8) (v : Word32) : (writeDin k v s).dg = s.dg := rfl
@[simp] theorem writeDin_leaf (s : State) (k : Fin 8) (v : Word32) : (writeDin k v s).leaf = s.leaf := rfl
@[simp] theorem writeDin_din (s : State) (k : Fin 8) (v : Word32) : (writeDin k v s).din = s.din.set k.val v := rfl
@[simp] theorem writeDin_dinm (s : State) (k : Fin 8) (v : Word32) : (writeDin k v s).dinm = s.dinm ||| BitVec.ofNat 8 (2 ^ k.val) := rfl
@[simp] theorem writeDin_dout (s : State) (k : Fin 8) (v : Word32) : (writeDin k v s).dout = s.dout := rfl
@[simp] theorem writeDin_inputs (s : State) (k : Fin 8) (v : Word32) : (writeDin k v s).inputs = s.inputs := rfl
@[simp] theorem writeDin_rdata (s : State) (k : Fin 8) (v : Word32) : (writeDin k v s).rdata = s.rdata := rfl

@[simp] theorem State.resetUnit_f (s : State) : (s.resetUnit).f = State.reset.f := rfl
@[simp] theorem State.resetUnit_err (s : State) : (s.resetUnit).err = State.reset.err := rfl
@[simp] theorem State.resetUnit_run (s : State) : (s.resetUnit).run = State.reset.run := rfl
@[simp] theorem State.resetUnit_eqf (s : State) : (s.resetUnit).eqf = State.reset.eqf := rfl
@[simp] theorem State.resetUnit_errcode (s : State) : (s.resetUnit).errcode = State.reset.errcode := rfl
@[simp] theorem State.resetUnit_errcmd (s : State) : (s.resetUnit).errcmd = State.reset.errcmd := rfl
@[simp] theorem State.resetUnit_P (s : State) : (s.resetUnit).P = State.reset.P := rfl
@[simp] theorem State.resetUnit_rc (s : State) : (s.resetUnit).rc = State.reset.rc := rfl
@[simp] theorem State.resetUnit_dg (s : State) : (s.resetUnit).dg = State.reset.dg := rfl
@[simp] theorem State.resetUnit_leaf (s : State) : (s.resetUnit).leaf = State.reset.leaf := rfl
@[simp] theorem State.resetUnit_din (s : State) : (s.resetUnit).din = State.reset.din := rfl
@[simp] theorem State.resetUnit_dinm (s : State) : (s.resetUnit).dinm = State.reset.dinm := rfl
@[simp] theorem State.resetUnit_dout (s : State) : (s.resetUnit).dout = State.reset.dout := rfl
@[simp] theorem State.resetUnit_inputs (s : State) : (s.resetUnit).inputs = s.inputs := rfl
@[simp] theorem State.resetUnit_rdata (s : State) : (s.resetUnit).rdata = s.rdata := rfl

end Sys2Proof.Machine
end

