-- ==== Sys2Proof/Laws/Store.lean ====
section
/-! SUPPORT. The stores: what a read gives after a write, and that every operation keeps the canonical form. -/

namespace Sys2Proof.Machine

theorem Store.get?_put (m : Store) (k j : Nat) (w : Word) :
    Store.get? (Store.put m k w) j = if j = k then some w else Store.get? m j := by
  induction m with
  | nil => simp [Store.put, Store.get?, eq_comm]
  | cons e rest ih =>
    obtain ⟨a, v⟩ := e
    simp only [Store.put]
    split_ifs with h1 h2 <;> simp only [Store.get?, ih] <;> split_ifs <;> first | rfl | omega

theorem Store.mem_put {m : Store} {k : Nat} {w : Word} {e : Nat × Word} (h : e ∈ Store.put m k w) :
    e = (k, w) ∨ e ∈ m := by
  induction m with
  | nil => simpa [Store.put] using h
  | cons x rest ih =>
    obtain ⟨a, v⟩ := x
    simp only [Store.put] at h
    split_ifs at h with h1 h2
    · simpa using h
    · rcases List.mem_cons.mp h with h | h
      · exact .inl h
      · exact .inr (List.mem_cons_of_mem _ h)
    · rcases List.mem_cons.mp h with h | h
      · exact .inr (h ▸ List.mem_cons_self)
      · exact (ih h).imp id (List.mem_cons_of_mem _)

theorem Store.mem_drop {m : Store} {k : Nat} {e : Nat × Word} (h : e ∈ Store.drop m k) : e ∈ m := by
  induction m with
  | nil => simp [Store.drop] at h
  | cons x rest ih =>
    obtain ⟨a, v⟩ := x
    simp only [Store.drop] at h
    split_ifs at h with h1
    · exact List.mem_cons_of_mem _ h
    · rcases List.mem_cons.mp h with h | h
      · exact h ▸ List.mem_cons_self
      · exact List.mem_cons_of_mem _ (ih h)

theorem Store.mem_of_get? {m : Store} {k : Nat} {w : Word} (h : Store.get? m k = some w) : (k, w) ∈ m := by
  induction m with
  | nil => simp [Store.get?] at h
  | cons x rest ih =>
    obtain ⟨a, v⟩ := x
    simp only [Store.get?] at h
    split_ifs at h with h1
    · simp_all
    · exact List.mem_cons_of_mem _ (ih h)

/-- The lower end of a rising list may be any index below it. -/
theorem Store.risingFrom_cons {lo : Option Nat} {a : Nat} {v : Word} {rest : Store} :
    Store.risingFrom lo ((a, v) :: rest) = true ↔ (∀ b ∈ lo, b < a) ∧ Store.risingFrom (some a) rest = true := by
  cases lo <;> simp [Store.risingFrom]

theorem Store.risingFrom_put {m : Store} {lo : Option Nat} {k : Nat} (w : Word) (hlo : ∀ b ∈ lo, b < k)
    (h : Store.risingFrom lo m = true) : Store.risingFrom lo (Store.put m k w) = true := by
  induction m generalizing lo with
  | nil => exact Store.risingFrom_cons.mpr ⟨hlo, rfl⟩
  | cons x rest ih =>
    obtain ⟨a, v⟩ := x
    rw [Store.risingFrom_cons] at h
    simp only [Store.put]
    split_ifs with h1 h2
    · rw [Store.risingFrom_cons, Store.risingFrom_cons]
      exact ⟨hlo, by simpa using h1, h.2⟩
    · subst h2
      exact Store.risingFrom_cons.mpr h
    · refine Store.risingFrom_cons.mpr ⟨h.1, ih ?_ h.2⟩
      simp only [Option.mem_def, Option.some.injEq, forall_eq']
      omega

theorem Store.risingFrom_weaken {m : Store} {lo lo' : Option Nat} (hlo : ∀ b ∈ lo', ∃ c ∈ lo, b ≤ c)
    (h : Store.risingFrom lo m = true) : Store.risingFrom lo' m = true := by
  cases m with
  | nil => simp [Store.risingFrom]
  | cons x rest =>
    obtain ⟨a, v⟩ := x
    rw [Store.risingFrom_cons] at h ⊢
    refine ⟨fun b hb => ?_, h.2⟩
    obtain ⟨c, hc, hbc⟩ := hlo b hb
    exact lt_of_le_of_lt hbc (h.1 c hc)

theorem Store.risingFrom_drop {m : Store} {lo : Option Nat} (k : Nat) (h : Store.risingFrom lo m = true) :
    Store.risingFrom lo (Store.drop m k) = true := by
  induction m generalizing lo with
  | nil => simp [Store.drop, Store.risingFrom]
  | cons x rest ih =>
    obtain ⟨a, v⟩ := x
    rw [Store.risingFrom_cons] at h
    simp only [Store.drop]
    split_ifs with h1
    · refine Store.risingFrom_weaken (fun b hb => ⟨a, rfl, (h.1 b hb).le⟩) h.2
    · exact Store.risingFrom_cons.mpr ⟨h.1, ih h.2⟩

/-- Above its lower end a rising list has no index at or below it. -/
theorem Store.get?_of_rising {m : Store} {lo j : Nat} (h : Store.risingFrom (some lo) m = true) (hj : j ≤ lo) :
    Store.get? m j = none := by
  induction m generalizing lo with
  | nil => rfl
  | cons x rest ih =>
    obtain ⟨a, v⟩ := x
    rw [Store.risingFrom_cons] at h
    have h1 : lo < a := h.1 lo rfl
    simp only [Store.get?]
    rw [if_neg (by omega)]
    exact ih h.2 (by omega)

theorem Store.get?_drop {m : Store} {lo : Option Nat} (k j : Nat) (h : Store.risingFrom lo m = true) :
    Store.get? (Store.drop m k) j = if j = k then none else Store.get? m j := by
  induction m generalizing lo with
  | nil => simp [Store.drop, Store.get?]
  | cons x rest ih =>
    obtain ⟨a, v⟩ := x
    rw [Store.risingFrom_cons] at h
    simp only [Store.drop]
    split_ifs with h1 h2 h2
    · exact Store.get?_of_rising h.2 (by omega)
    · simp only [Store.get?]
      rw [if_neg (by omega)]
    · simp only [Store.get?, ih h.2, if_pos h2]
      rw [if_neg (by omega)]
    · simp only [Store.get?, ih h.2, if_neg h2]

theorem Store.wf_put {m : Store} {k : Nat} (w : Word) (h : Store.wf m = true) : Store.wf (Store.put m k w) = true :=
  Store.risingFrom_put w (by simp) h

theorem Store.wf_drop {m : Store} (k : Nat) (h : Store.wf m = true) : Store.wf (Store.drop m k) = true :=
  Store.risingFrom_drop k h

/-- A leaf reads as it was written, and every other leaf as before (44_merkle.md R212, R213). -/
theorem Memory.read_write {m : Memory} (h : Memory.wf m = true) (i j : Nat) (w : Word) :
    Memory.read (Memory.write m i w) j = if j = i then w else Memory.read m j := by
  have hr : Store.risingFrom none m = true := by
    simp only [Memory.wf, Bool.and_eq_true] at h
    exact h.1
  unfold Memory.write Memory.read
  split_ifs with h1 h2 h2
  · rw [Store.get?_drop i j hr, if_pos h2, h1]; rfl
  · rw [Store.get?_drop i j hr, if_neg h2]
  · rw [Store.get?_put, if_pos h2]; rfl
  · rw [Store.get?_put, if_neg h2]

/-- Every memory operation keeps the canonical form. -/
theorem Memory.wf_write {m : Memory} (h : Memory.wf m = true) (i : Nat) (w : Word) :
    Memory.wf (Memory.write m i w) = true := by
  simp only [Memory.wf, Bool.and_eq_true, List.all_eq_true, decide_eq_true_eq] at h ⊢
  unfold Memory.write
  split_ifs with h1
  · exact ⟨Store.wf_drop i h.1, fun e he => h.2 e (Store.mem_drop he)⟩
  · refine ⟨Store.wf_put w h.1, fun e he => ?_⟩
    rcases Store.mem_put he with h2 | h2
    · rw [h2]
      exact h1
    · exact h.2 e h2

/-- The leaf memory after reset is in canonical form. -/
theorem Memory.wf_reset : Memory.wf State.reset.leaf = true := by decide

theorem Memory.mem_write {m : Memory} {i : Nat} {w : Word} {e : Nat × Word} (h : e ∈ Memory.write m i w) :
    e = (i, w) ∨ e ∈ m := by
  unfold Memory.write at h
  split_ifs at h
  · exact .inr (Store.mem_drop h)
  · exact Store.mem_put h

end Sys2Proof.Machine
end

