-- ==== Sys2Proof/Laws/Ops.lean ====
section
/-! SUPPORT. What each shared operation does, said once: register and store reads after a write, the checks that may
raise, the model's stops, and the frame of each write. -/

namespace Sys2Proof.Machine

/-- Reading a register after writing one (00_scope.md R12). -/
theorem reg_setReg (s : State) (r r' : Reg) (n : Nat) :
    (s.setReg r n).reg r' = if r' = r then n % 2 ^ 256 else s.reg r' := by
  simp only [State.reg, State.setReg_f, Vector.getElem_set]
  by_cases h : r' = r
  · simp [h]
  · have h' : ¬ r.val = r'.val := fun e => h (Fin.ext e.symm)
    rw [if_neg h', if_neg h]

/-- A register written below p reads as written. -/
theorem reg_setReg_self {s : State} {r : Reg} {n : Nat} (h : n < Config.p) : (s.setReg r n).reg r = n := by
  rw [reg_setReg, if_pos rfl, Nat.mod_eq_of_lt (h.trans p_lt_two_pow)]

theorem reg_setReg_ne {s : State} {r r' : Reg} (n : Nat) (h : r' ≠ r) : (s.setReg r n).reg r' = s.reg r' := by
  rw [reg_setReg, if_neg h]

theorem regVal_setReg_self {s : State} {r : Reg} {n : Nat} (h : n < Config.p) : (s.setReg r n).regVal r = val n := by
  rw [State.regVal, reg_setReg_self h]

theorem getElem_writeFrom (ws : List Nat) (f : Vector Word 32) (i : Nat) (j : Nat) (hj : j < 32) :
    (writeFrom f i ws)[j] =
      if h : i ≤ j ∧ j - i < ws.length then BitVec.ofNat 256 (ws[j - i]'h.2) else f[j] := by
  induction ws generalizing f i with
  | nil => simp [writeFrom]
  | cons w ws ih =>
    rw [writeFrom, ih]
    by_cases h1 : i + 1 ≤ j ∧ j - (i + 1) < ws.length
    · have h2 : i ≤ j ∧ j - i < (w :: ws).length := ⟨by omega, by simp only [List.length_cons]; omega⟩
      have h3 : j - i = j - (i + 1) + 1 := by omega
      rw [dif_pos h1, dif_pos h2]
      simp only [h3, List.getElem_cons_succ]
    · rw [dif_neg h1]
      by_cases h2 : i = j
      · subst h2
        simp
      · have h4 : ¬ (i ≤ j ∧ j - i < (w :: ws).length) := by simp only [List.length_cons]; omega
        rw [dif_neg h4]
        simp [h2]

/-- Reading a register after writing the state elements (10_state.md R26). -/
theorem reg_setElems (s : State) (ws : List Nat) (r : Reg) :
    (s.setElems ws).reg r = if h : r.val < ws.length then ws[r.val] % 2 ^ 256 else s.reg r := by
  have h0 : (s.setElems ws).f = writeFrom s.f 0 ws := rfl
  simp only [State.reg, h0, getElem_writeFrom]
  by_cases h : r.val < ws.length <;> simp [h]


theorem length_elems (s : State) (n : Nat) : (s.elems n).length = n := by simp [State.elems]

theorem length_elemVals (s : State) (n : Nat) : (s.elemVals n).length = n := by simp [State.elemVals]

theorem elemReg_val {i : Nat} (h : i < 32) : (elemReg i).val = i := by
  simp [elemReg, Fin.ofNat, Nat.mod_eq_of_lt h]

/-- `P.t` has 5 bits, so every state element is a register. -/
theorem t_lt (s : State) : s.t < 32 := s.P.t.isLt

/-- A leaf reads as it was written, and every other leaf as before (44_merkle.md R212, R213). -/
theorem leafAt_setLeaf {s : State} (h : Memory.wf s.leaf = true) (i j : Nat) (w : Word) :
    (s.setLeaf i w).leafAt j = if j = i then w else s.leafAt j := Memory.read_write h i j w

theorem rcKey_inj {r c r' c' : Nat} (h : c < Config.tmax) (h' : c' < Config.tmax) (e : rcKey r c = rcKey r' c') :
    r = r' ∧ c = c' := by
  have e2 : Config.tmax = 24 := rfl
  simp only [rcKey, e2] at h h' e
  omega

/-- A constant entry is written with its word, and every other entry is as before (42_params.md R163). -/
theorem rcAt?_setRc (s : State) {r c : Nat} (hr : r < Config.nrMax) (hc : c < Config.tmax) (r' c' : Nat) (w : Word) :
    (s.setRc r c w).rcAt? r' c' = if r' = r ∧ c' = c then some w else s.rcAt? r' c' := by
  simp only [State.rcAt?, State.setRc_rc, Store.get?_put]
  by_cases h : r' = r ∧ c' = c
  · obtain ⟨rfl, rfl⟩ := h
    simp [hr, hc]
  · by_cases h2 : r' < Config.nrMax ∧ c' < Config.tmax
    · have h3 : ¬ rcKey r' c' = rcKey r c := fun e => h (rcKey_inj h2.2 hc e)
      rw [if_pos h2, if_neg h3, if_neg h, if_pos h2]
    · rw [if_neg h2, if_neg h, if_neg h2]

/-- A diagonal entry is written with its word, and every other entry is as before (42_params.md R164). -/
theorem dgAt?_setDg (s : State) {c : Nat} (hc : c < Config.tmax) (c' : Nat) (w : Word) :
    (s.setDg c w).dgAt? c' = if c' = c then some w else s.dgAt? c' := by
  simp only [State.dgAt?, State.setDg_dg, Store.get?_put]
  by_cases h : c' = c
  · subst h
    simp [hc]
  · simp [h]

/-- The commands' checks either raise or go on (60_exceptions.md R244). -/
theorem raiseIf_eq (bad : Bool) (i : Instr) (s : State) (c : Cause) (k : Result) :
    raiseIf bad i s c k = if bad then .next (s.raise c (encode i)) else k := rfl

theorem inConfig_eq (i : Instr) (s : State) (k : Result) :
    inConfig i s k = if s.run then .next (s.raise .paramsLocked (encode i)) else k := rfl

theorem inRun_eq (i : Instr) (s : State) (k : Result) :
    inRun i s k = if s.run then k else .next (s.raise .paramsNotCommitted (encode i)) := rfl

theorem raiseIf_next {bad : Bool} {i : Instr} {s t : State} {c : Cause} {k : Result} (h : raiseIf bad i s c k = .next t) :
    (bad = true ∧ t = s.raise c (encode i)) ∨ (bad = false ∧ k = .next t) := by
  cases bad
  · exact .inr ⟨rfl, h⟩
  · exact .inl ⟨rfl, (Host.Outcome.next.inj h).symm⟩

theorem inConfig_next {i : Instr} {s t : State} {k : Result} (h : inConfig i s k = .next t) :
    (s.run = true ∧ t = s.raise .paramsLocked (encode i)) ∨ (s.run = false ∧ k = .next t) := by
  unfold inConfig at h
  cases hr : s.run
  · exact .inr ⟨rfl, by simpa [hr] using h⟩
  · rw [hr] at h
    exact .inl ⟨rfl, (Host.Outcome.next.inj h).symm⟩

theorem inRun_next {i : Instr} {s t : State} {k : Result} (h : inRun i s k = .next t) :
    (s.run = false ∧ t = s.raise .paramsNotCommitted (encode i)) ∨ (s.run = true ∧ k = .next t) := by
  unfold inRun at h
  cases hr : s.run
  · rw [hr] at h
    exact .inl ⟨rfl, (Host.Outcome.next.inj h).symm⟩
  · exact .inr ⟨rfl, by simpa [hr] using h⟩

theorem stopIf_next {g : Option Fault} {t : State} {k : Result} (h : stopIf g k = .next t) : g = none ∧ k = .next t := by
  cases g with
  | none => exact ⟨rfl, h⟩
  | some e => exact absurd h (by simp [stopIf])

/-- Writing one register changes nothing else. -/
theorem onlyReg_setReg (s : State) (r : Reg) (n : Nat) : OnlyReg r s (s.setReg r n) :=
  ⟨fun _ h => reg_setReg_ne n h, ⟨fun _ => rfl, fun _ _ => rfl, fun _ => rfl⟩, rfl⟩

/-- Writing the state elements changes nothing else (10_state.md R26). -/
theorem onlyElems_setElems (s : State) (ws : List Nat) : OnlyElems ws.length s (s.setElems ws) :=
  ⟨fun r h => by rw [reg_setElems, dif_neg (by omega)], ⟨fun _ => rfl, fun _ _ => rfl, fun _ => rfl⟩, rfl⟩

/-- Writing the output chunk changes nothing else. -/
theorem onlyDout_setDout (s : State) (x : Nat) : OnlyDout s (s.setDout x) :=
  ⟨⟨fun _ => rfl, fun _ _ => rfl, fun _ => rfl⟩, rfl⟩

/-- A fault changes the three fault registers and nothing else (60_exceptions.md R243). -/
theorem raises_raise (c : Cause) (w : Word32) (s : State) : Raises c w s (s.raise c w) :=
  ⟨rfl, rfl, rfl, ⟨fun _ => rfl, fun _ _ => rfl, fun _ => rfl⟩, rfl⟩

end Sys2Proof.Machine
end

