-- ==== Sys2Proof/Laws/Commit.lean ====
section
/-! SUPPORT. What a store that PCOMMIT accepts gives (42_params.md R165, R166): its shape, and that none of the model's own
stops (log entry 7) is taken on it. -/

namespace Sys2Proof.Machine

theorem beq_decide_iff (b : Bool) (q : Prop) [Decidable q] : (b == decide q) = true ↔ (b = true ↔ q) := by
  cases b <;> simp

/-- The round-constant shape check, as a statement about entries (42_params.md R165). -/
theorem rcShape_iff (s : State) : s.rcShape = true ↔
    ∀ r, r < Config.nrMax → ∀ c, c < Config.tmax → ((s.rcAt? r c).isSome = true ↔ r < s.rows ∧ c < s.t) := by
  simp only [State.rcShape, List.all_eq_true, List.mem_range, beq_decide_iff]

/-- The diagonal shape check, as a statement about entries (42_params.md R165). -/
theorem dgShape_iff (s : State) : s.dgShape = true ↔
    ∀ c, c < Config.tmax → ((s.dgAt? c).isSome = true ↔ c < s.t) := by
  simp only [State.dgShape, List.all_eq_true, List.mem_range, beq_decide_iff]

/-- A store commits exactly when every check passes (42_params.md R165). -/
theorem committable_iff (s : State) : s.Committable ↔
    s.t ∈ Config.tset ∧ s.d ∈ Config.dset ∧ s.roundsF % 2 = 0 ∧ s.rows ≤ Config.nrMax ∧ s.rcShape = true ∧
      s.dgShape = true := by
  unfold State.Committable State.commitFault
  by_cases h1 : s.t ∈ Config.tset
  · by_cases h2 : s.d ∈ Config.dset
    · by_cases h3 : s.roundsF % 2 = 1
      · simp [h1, h2, h3]
      · have h3' : s.roundsF % 2 = 0 := by omega
        by_cases h4 : Config.nrMax < s.rows
        · have h4' : ¬ s.rows ≤ Config.nrMax := by omega
          simp [h1, h2, h3', h4, h4']
        · have h4' : s.rows ≤ Config.nrMax := by omega
          cases h5 : s.rcShape <;> cases h6 : s.dgShape <;> simp [h1, h2, h3', h4, h4']
    · simp [h1, h2]
  · simp [h1]

theorem t_le_tmax {t : Nat} (h : t ∈ Config.tset) : 0 < t ∧ t ≤ Config.tmax := by
  have h2 : t = 2 ∨ t = 3 ∨ t = 4 ∨ t = 8 ∨ t = 12 ∨ t = 16 ∨ t = 20 ∨ t = 24 := by simpa [Config.tset] using h
  have h3 : Config.tmax = 24 := rfl
  omega

/-- Every entry of the table's rectangle is written. -/
theorem rc_written {s : State} (h : s.Committable) {r c : Nat} (hr : r < s.rows) (hc : c < s.t) :
    (s.rcAt? r c).isSome = true := by
  obtain ⟨ht, -, -, hn, hs, -⟩ := (committable_iff s).mp h
  have h3 := (t_le_tmax ht).2
  exact ((rcShape_iff s).mp hs r (by omega) c (by omega)).mpr ⟨hr, hc⟩

/-- Every entry of the diagonal is written. -/
theorem dg_written {s : State} (h : s.Committable) {c : Nat} (hc : c < s.t) : (s.dgAt? c).isSome = true := by
  obtain ⟨ht, -, -, -, -, hs⟩ := (committable_iff s).mp h
  have h3 := (t_le_tmax ht).2
  exact ((dgShape_iff s).mp hs c (by omega)).mpr hc

theorem rowWritten_of_committable {s : State} (h : s.Committable) {r n : Nat} (hr : r < s.rows) (hn : n ≤ s.t) :
    s.rowWritten r n = true := by
  simp only [State.rowWritten, List.all_eq_true, List.mem_range]
  exact fun c hc => rc_written h hr (by omega)

theorem diagWritten_of_committable {s : State} (h : s.Committable) : s.diagWritten s.t = true := by
  simp only [State.diagWritten, List.all_eq_true, List.mem_range]
  exact fun c hc => dg_written h hc

theorem widthStop_none {s : State} (h : s.Committable) : s.widthStop = none := by
  rw [State.widthStop, if_pos ((committable_iff s).mp h).1]

theorem degreeStop_none {s : State} (h : s.Committable) : s.degreeStop = none := by
  rw [State.degreeStop, if_pos ((committable_iff s).mp h).2.1]

theorem rowStop_none {s : State} (h : s.Committable) {r n : Nat} (hr : r < s.rows) (hn : n ≤ s.t) :
    s.rowStop r n = none := by
  rw [State.rowStop, if_pos (rowWritten_of_committable h hr hn)]

theorem diagStop_none {s : State} (h : s.Committable) : s.diagStop = none := by
  rw [State.diagStop, if_pos (.inr (diagWritten_of_committable h))]

theorem permStop_none {s : State} (h : s.Committable) : s.permStop = none := by
  have h1 := (t_le_tmax ((committable_iff s).mp h).1).1
  have h2 : ((List.range s.rows).all fun r => s.rowWritten r (if s.partialRow r then 1 else s.t)) = true := by
    simp only [List.all_eq_true, List.mem_range]
    intro r hr
    refine rowWritten_of_committable h hr ?_
    split_ifs <;> omega
  rw [State.permStop, widthStop_none h, degreeStop_none h, diagStop_none h, if_pos ((committable_iff s).mp h).2.2.1,
    if_pos h2]
  rfl

end Sys2Proof.Machine
end

