-- ==== Sys2Proof/Laws/PerInstr.lean ====
section
/-! SUPPORT. A statement about every command as syntax, one lemma per constructor. -/

namespace Sys2Proof.Laws

/-- The encoding of a well-formed command carries, in bits [31:24], the opcode of the table's row with its mnemonic
(30_encoding.md R90, R95). -/
def OpcodeField.Statement (i : Instr) : Prop :=
  i.wellFormed = true → ∃ row ∈ opTable, row.mnemonic = i.mnemonic ∧
    slice (encode i).toNat 24 8 = slice row.pattern.toNat 24 8

/-- The opcode of a word of formats N, A, R2, R3 and C. -/
theorem opcode_encodeRegs {op a b c : Nat} (ho : op < 256) (ha : a < 32) (hb : b < 32) (hc : c < 32) :
    slice (encodeRegs op a b c).toNat 24 8 = op := by
  rw [toNat_encodeRegs ho ha hb hc, slice]
  omega

/-- The opcode of a word of formats I and J. -/
theorem opcode_encodeImm {op ra imm : Nat} (ho : op < 256) (ha : ra < 32) (hi : imm < 65536) :
    slice (encodeImm op ra imm).toNat 24 8 = op := by
  rw [toNat_encodeImm ho ha hi, slice]
  omega

theorem OpcodeField.nop : OpcodeField.Statement (.nop) :=
  fun _ => ⟨_, List.mem_of_getElem? (i := 0) rfl, rfl, opcode_encodeRegs (by decide) (by decide) (by decide) (by decide)⟩

theorem OpcodeField.ldc (fd : Reg) : OpcodeField.Statement (.ldc fd) :=
  fun _ => ⟨_, List.mem_of_getElem? (i := 1) rfl, rfl, opcode_encodeRegs (by decide) fd.isLt (by decide) (by decide)⟩

theorem OpcodeField.ldr (fd : Reg) : OpcodeField.Statement (.ldr fd) :=
  fun _ => ⟨_, List.mem_of_getElem? (i := 2) rfl, rfl, opcode_encodeRegs (by decide) fd.isLt (by decide) (by decide)⟩

theorem OpcodeField.stc (fs : Reg) : OpcodeField.Statement (.stc fs) :=
  fun _ => ⟨_, List.mem_of_getElem? (i := 3) rfl, rfl, opcode_encodeRegs (by decide) fs.isLt (by decide) (by decide)⟩

theorem OpcodeField.str (fs : Reg) : OpcodeField.Statement (.str fs) :=
  fun _ => ⟨_, List.mem_of_getElem? (i := 4) rfl, rfl, opcode_encodeRegs (by decide) fs.isLt (by decide) (by decide)⟩

theorem OpcodeField.ldi (fd : Reg) (imm : Nat) : OpcodeField.Statement (.ldi fd imm) :=
  fun h => ⟨_, List.mem_of_getElem? (i := 5) rfl, rfl, opcode_encodeImm (by decide) fd.isLt (by simp only [Instr.wellFormed, decide_eq_true_eq] at h; omega)⟩

theorem OpcodeField.mov (fd : Reg) (fs1 : Reg) : OpcodeField.Statement (.mov fd fs1) :=
  fun _ => ⟨_, List.mem_of_getElem? (i := 6) rfl, rfl, opcode_encodeRegs (by decide) fd.isLt fs1.isLt (by decide)⟩

theorem OpcodeField.tomont (fd : Reg) (fs1 : Reg) : OpcodeField.Statement (.tomont fd fs1) :=
  fun _ => ⟨_, List.mem_of_getElem? (i := 7) rfl, rfl, opcode_encodeRegs (by decide) fd.isLt fs1.isLt (by decide)⟩

theorem OpcodeField.frommont (fd : Reg) (fs1 : Reg) : OpcodeField.Statement (.frommont fd fs1) :=
  fun _ => ⟨_, List.mem_of_getElem? (i := 8) rfl, rfl, opcode_encodeRegs (by decide) fd.isLt fs1.isLt (by decide)⟩

theorem OpcodeField.add (fd : Reg) (fs1 : Reg) (fs2 : Reg) : OpcodeField.Statement (.add fd fs1 fs2) :=
  fun _ => ⟨_, List.mem_of_getElem? (i := 9) rfl, rfl, opcode_encodeRegs (by decide) fd.isLt fs1.isLt fs2.isLt⟩

theorem OpcodeField.sub (fd : Reg) (fs1 : Reg) (fs2 : Reg) : OpcodeField.Statement (.sub fd fs1 fs2) :=
  fun _ => ⟨_, List.mem_of_getElem? (i := 10) rfl, rfl, opcode_encodeRegs (by decide) fd.isLt fs1.isLt fs2.isLt⟩

theorem OpcodeField.mul (fd : Reg) (fs1 : Reg) (fs2 : Reg) : OpcodeField.Statement (.mul fd fs1 fs2) :=
  fun _ => ⟨_, List.mem_of_getElem? (i := 11) rfl, rfl, opcode_encodeRegs (by decide) fd.isLt fs1.isLt fs2.isLt⟩

theorem OpcodeField.neg (fd : Reg) (fs1 : Reg) : OpcodeField.Statement (.neg fd fs1) :=
  fun _ => ⟨_, List.mem_of_getElem? (i := 12) rfl, rfl, opcode_encodeRegs (by decide) fd.isLt fs1.isLt (by decide)⟩

theorem OpcodeField.dbl (fd : Reg) (fs1 : Reg) : OpcodeField.Statement (.dbl fd fs1) :=
  fun _ => ⟨_, List.mem_of_getElem? (i := 13) rfl, rfl, opcode_encodeRegs (by decide) fd.isLt fs1.isLt (by decide)⟩

theorem OpcodeField.sqr (fd : Reg) (fs1 : Reg) : OpcodeField.Statement (.sqr fd fs1) :=
  fun _ => ⟨_, List.mem_of_getElem? (i := 14) rfl, rfl, opcode_encodeRegs (by decide) fd.isLt fs1.isLt (by decide)⟩

theorem OpcodeField.inv (fd : Reg) (fs1 : Reg) : OpcodeField.Statement (.inv fd fs1) :=
  fun _ => ⟨_, List.mem_of_getElem? (i := 15) rfl, rfl, opcode_encodeRegs (by decide) fd.isLt fs1.isLt (by decide)⟩

theorem OpcodeField.eq (fs1 : Reg) (fs2 : Reg) : OpcodeField.Statement (.eq fs1 fs2) :=
  fun _ => ⟨_, List.mem_of_getElem? (i := 16) rfl, rfl, opcode_encodeRegs (by decide) (by decide) fs1.isLt fs2.isLt⟩

theorem OpcodeField.psettd (t : Nat) (d : Nat) : OpcodeField.Statement (.psettd t d) :=
  fun h => ⟨_, List.mem_of_getElem? (i := 17) rfl, rfl, opcode_encodeImm (by decide) (by decide) (by simp only [Instr.wellFormed, Bool.and_eq_true, decide_eq_true_eq] at h; omega)⟩

theorem OpcodeField.psetrnd (roundsF : Nat) (roundsP : Nat) : OpcodeField.Statement (.psetrnd roundsF roundsP) :=
  fun h => ⟨_, List.mem_of_getElem? (i := 18) rfl, rfl, opcode_encodeImm (by decide) (by decide) (by simp only [Instr.wellFormed, Bool.and_eq_true, decide_eq_true_eq] at h; omega)⟩

theorem OpcodeField.psetrc (fs : Reg) (row : Nat) (col : Nat) : OpcodeField.Statement (.psetrc fs row col) :=
  fun h => ⟨_, List.mem_of_getElem? (i := 19) rfl, rfl, opcode_encodeImm (by decide) fs.isLt (by simp only [Instr.wellFormed, Bool.and_eq_true, decide_eq_true_eq] at h; omega)⟩

theorem OpcodeField.psetdg (fs : Reg) (col : Nat) : OpcodeField.Statement (.psetdg fs col) :=
  fun h => ⟨_, List.mem_of_getElem? (i := 20) rfl, rfl, opcode_encodeImm (by decide) fs.isLt (by simp only [Instr.wellFormed, decide_eq_true_eq] at h; omega)⟩

theorem OpcodeField.pcommit : OpcodeField.Statement (.pcommit) :=
  fun _ => ⟨_, List.mem_of_getElem? (i := 21) rfl, rfl, opcode_encodeRegs (by decide) (by decide) (by decide) (by decide)⟩

theorem OpcodeField.arc (row : Nat) : OpcodeField.Statement (.arc row) :=
  fun h => ⟨_, List.mem_of_getElem? (i := 22) rfl, rfl, opcode_encodeImm (by decide) (by decide) (by simp only [Instr.wellFormed, decide_eq_true_eq] at h; omega)⟩

theorem OpcodeField.arcp (row : Nat) : OpcodeField.Statement (.arcp row) :=
  fun h => ⟨_, List.mem_of_getElem? (i := 23) rfl, rfl, opcode_encodeImm (by decide) (by decide) (by simp only [Instr.wellFormed, decide_eq_true_eq] at h; omega)⟩

theorem OpcodeField.sbox (fd : Reg) (fs1 : Reg) : OpcodeField.Statement (.sbox fd fs1) :=
  fun _ => ⟨_, List.mem_of_getElem? (i := 24) rfl, rfl, opcode_encodeRegs (by decide) fd.isLt fs1.isLt (by decide)⟩

theorem OpcodeField.sboxf : OpcodeField.Statement (.sboxf) :=
  fun _ => ⟨_, List.mem_of_getElem? (i := 25) rfl, rfl, opcode_encodeRegs (by decide) (by decide) (by decide) (by decide)⟩

theorem OpcodeField.mext : OpcodeField.Statement (.mext) :=
  fun _ => ⟨_, List.mem_of_getElem? (i := 26) rfl, rfl, opcode_encodeRegs (by decide) (by decide) (by decide) (by decide)⟩

theorem OpcodeField.mint : OpcodeField.Statement (.mint) :=
  fun _ => ⟨_, List.mem_of_getElem? (i := 27) rfl, rfl, opcode_encodeRegs (by decide) (by decide) (by decide) (by decide)⟩

theorem OpcodeField.perm (w : Nat) : OpcodeField.Statement (.perm w) :=
  fun h => ⟨_, List.mem_of_getElem? (i := 28) rfl, rfl, opcode_encodeImm (by decide) (by decide) (by simp only [Instr.wellFormed, decide_eq_true_eq] at h; omega)⟩

theorem OpcodeField.cmpr (fd : Reg) (fs1 : Reg) (fs2 : Reg) : OpcodeField.Statement (.cmpr fd fs1 fs2) :=
  fun _ => ⟨_, List.mem_of_getElem? (i := 29) rfl, rfl, opcode_encodeRegs (by decide) fd.isLt fs1.isLt fs2.isLt⟩

theorem OpcodeField.lwr (fs : Reg) (idx : Nat) : OpcodeField.Statement (.lwr fs idx) :=
  fun h => ⟨_, List.mem_of_getElem? (i := 30) rfl, rfl, opcode_encodeImm (by decide) fs.isLt (by simp only [Instr.wellFormed, decide_eq_true_eq] at h; omega)⟩

theorem OpcodeField.lrd (fd : Reg) (idx : Nat) : OpcodeField.Statement (.lrd fd idx) :=
  fun h => ⟨_, List.mem_of_getElem? (i := 31) rfl, rfl, opcode_encodeImm (by decide) fd.isLt (by simp only [Instr.wellFormed, decide_eq_true_eq] at h; omega)⟩

theorem OpcodeField.accum (fd : Reg) (n : Nat) : OpcodeField.Statement (.accum fd n) :=
  fun h => ⟨_, List.mem_of_getElem? (i := 32) rfl, rfl, opcode_encodeImm (by decide) fd.isLt (by simp only [Instr.wellFormed, decide_eq_true_eq] at h; omega)⟩

end Sys2Proof.Laws
end

