-- ==== Sys2Proof/Laws/Poseidon2.lean ====
section
/-! SUPPORT. The layers and the permutation: lengths (43_poseidon2.md R195, width preservation) and ranges, and the
shape of the Merkle list. -/

namespace Sys2Proof.Machine

/-- Every element is a field value. -/
def AllBelowP (l : List Nat) : Prop := ∀ x ∈ l, x < Config.p

theorem allBelowP_map {g : Nat → Nat} (hg : ∀ x, g x < Config.p) (l : List Nat) : AllBelowP (l.map g) := by
  intro x hx
  obtain ⟨y, _, rfl⟩ := List.mem_map.mp hx
  exact hg y

theorem allBelowP_mapIdx {g : Nat → Nat → Nat} (hg : ∀ i x, g i x < Config.p) (l : List Nat) :
    AllBelowP (l.mapIdx g) := by
  intro x hx
  obtain ⟨i, h, rfl⟩ := List.mem_mapIdx.mp hx
  exact hg _ _

theorem sboxPow_lt (d x : Nat) : sboxPow d x < Config.p := Nat.mod_lt _ p_pos

/-- M4 is the matrix of 43_poseidon2.md R187 on each element, in `ZMod p`. -/
theorem m4_zmod (a b c d : Nat) : (m4 a b c d).map (Nat.cast : Nat → ZMod Config.p) =
    [5 * a + 7 * b + c + 3 * d, 4 * a + 6 * b + c + d, a + 3 * b + 5 * c + 7 * d, a + b + 4 * c + 6 * d] := by
  simp only [m4, List.map_cons, List.map_nil, zmod_fadd, zmod_fdbl]
  congr 1
  · push_cast; ring
  · congr 1
    · push_cast; ring
    · congr 1
      · push_cast; ring
      · congr 1
        push_cast; ring

theorem length_m4Groups : ∀ (s : List Nat), 4 ∣ s.length → (m4Groups s).length = s.length
  | [], _ => rfl
  | [_], h => absurd h (by simp)
  | [_, _], h => absurd h (by simp)
  | [_, _, _], h => absurd h (by simp)
  | _ :: _ :: _ :: _ :: rest, h => by
    have h' : 4 ∣ rest.length := by simp only [List.length_cons] at h; omega
    simp only [m4Groups, List.length_append, length_m4Groups rest h', List.length_cons]
    simp only [m4, List.length_cons, List.length_nil]
    omega

theorem allBelowP_m4Groups : ∀ (s : List Nat), AllBelowP (m4Groups s)
  | [] => by simp [m4Groups, AllBelowP]
  | [_] => by simp [m4Groups, AllBelowP]
  | [_, _] => by simp [m4Groups, AllBelowP]
  | [_, _, _] => by simp [m4Groups, AllBelowP]
  | a :: b :: c :: d :: rest => by
    intro x hx
    rw [m4Groups] at hx
    rcases List.mem_append.mp hx with h | h
    · simp only [m4, List.mem_cons, List.not_mem_nil, or_false] at h
      rcases h with h | h | h | h <;> rw [h] <;> exact fadd_lt _ _
    · exact allBelowP_m4Groups rest x h

/-- A width of `TSET` that is neither 2 nor 3 is a multiple of 4. -/
theorem four_dvd_of_tset {t : Nat} (h : t ∈ Config.tset) (h2 : ¬ (t = 2 ∨ t = 3)) : 4 ∣ t := by
  simp only [Config.tset, List.mem_cons, List.not_mem_nil, or_false] at h
  omega

theorem length_extLayer {t : Nat} (ht : t ∈ Config.tset) {s : List Nat} (h : s.length = t) :
    (extLayer t s).length = t := by
  unfold extLayer
  split_ifs with h1 h2
  · simpa using h
  · rw [length_m4Groups _ (h ▸ four_dvd_of_tset ht h1), h]
  · simp [length_m4Groups _ (h ▸ four_dvd_of_tset ht h1), h]

theorem allBelowP_extLayer (t : Nat) (s : List Nat) : AllBelowP (extLayer t s) := by
  unfold extLayer
  split_ifs with h1 h2
  · exact allBelowP_map (fun _ => fadd_lt _ _) _
  · exact allBelowP_m4Groups _
  · exact allBelowP_mapIdx (fun _ _ => fadd_lt _ _) _

theorem length_intLayer (t : Nat) (dg : Nat → Nat) (s : List Nat) : (intLayer t dg s).length = s.length := by
  unfold intLayer
  split_ifs <;> simp

theorem allBelowP_intLayer (t : Nat) (dg : Nat → Nat) (s : List Nat) : AllBelowP (intLayer t dg s) := by
  unfold intLayer
  split_ifs <;> exact allBelowP_mapIdx (fun _ _ => fadd_lt _ _) _

theorem length_onHead (g : Nat → Nat) (s : List Nat) : (onHead g s).length = s.length := by cases s <;> rfl

theorem length_fullRound {c : PermParams} (ht : c.t ∈ Config.tset) (r : Nat) {s : List Nat} (h : s.length = c.t) :
    (fullRound c r s).length = c.t := length_extLayer ht (by simpa [addRow] using h)

theorem length_partialRound {c : PermParams} (r : Nat) {s : List Nat} (h : s.length = c.t) :
    (partialRound c r s).length = c.t := by simpa [partialRound, length_intLayer, length_onHead] using h

/-- A property that every round keeps holds after any run of rounds. -/
theorem runRounds_induct {round : Nat → List Nat → List Nat} {Q : List Nat → Prop} (hQ : ∀ r s, Q s → Q (round r s))
    (start n : Nat) {s : List Nat} (h : Q s) : Q (runRounds round start n s) := by
  unfold runRounds
  induction n with
  | zero => simpa using h
  | succ k ih => rw [List.range_succ, List.foldl_append]; exact hQ _ _ ih

/-- One more round at the end of a run. -/
theorem runRounds_succ (round : Nat → List Nat → List Nat) (start n : Nat) (s : List Nat) :
    runRounds round start (n + 1) s = round (start + n) (runRounds round start n s) := by
  simp [runRounds, List.range_succ]

/-- Width preservation (43_poseidon2.md R195). -/
theorem length_perm {c : PermParams} (ht : c.t ∈ Config.tset) {s : List Nat} (h : s.length = c.t) :
    (perm c s).length = c.t := by
  unfold perm
  refine runRounds_induct (Q := fun s => s.length = c.t) (fun r _ hs => length_fullRound ht r hs) _ _ ?_
  refine runRounds_induct (Q := fun s => s.length = c.t) (fun r _ hs => length_partialRound r hs) _ _ ?_
  refine runRounds_induct (Q := fun s => s.length = c.t) (fun r _ hs => length_fullRound ht r hs) _ _ ?_
  exact length_extLayer ht h

theorem allBelowP_perm (c : PermParams) (s : List Nat) : AllBelowP (perm c s) := by
  unfold perm
  refine runRounds_induct (Q := AllBelowP) (fun r s _ => allBelowP_extLayer _ _) _ _ ?_
  refine runRounds_induct (Q := AllBelowP) (fun r s _ => allBelowP_intLayer _ _ _) _ _ ?_
  refine runRounds_induct (Q := AllBelowP) (fun r s _ => allBelowP_extLayer _ _) _ _ ?_
  exact allBelowP_extLayer _ _

theorem headD_lt {l : List Nat} (h : AllBelowP l) : l.headD 0 < Config.p := by
  cases l with
  | nil => exact p_pos
  | cons x xs => exact h x List.mem_cons_self

theorem compress_lt (c : PermParams) (a b : Nat) : compress c a b < Config.p := headD_lt (allBelowP_perm c [a, b, 0])

theorem length_pairUp (cmp : Nat → Nat → Nat) : ∀ (l : List Nat), (pairUp cmp l).length = l.length / 2
  | [] => rfl
  | [_] => by simp [pairUp]
  | _ :: _ :: rest => by
    simp only [pairUp, List.length_cons, length_pairUp cmp rest]
    omega

theorem allBelowP_pairUp {cmp : Nat → Nat → Nat} (hc : ∀ a b, cmp a b < Config.p) :
    ∀ (l : List Nat), AllBelowP (pairUp cmp l)
  | [] => by simp [pairUp, AllBelowP]
  | [_] => by simp [pairUp, AllBelowP]
  | a :: b :: rest => by
    intro x hx
    rcases List.mem_cons.mp hx with h | h
    · exact h ▸ hc a b
    · exact allBelowP_pairUp hc rest x h

theorem allBelowP_foldNodes {cmp : Nat → Nat → Nat} (hc : ∀ a b, cmp a b < Config.p) (fuel : Nat) {l : List Nat}
    (h : AllBelowP l) : AllBelowP (foldNodes cmp fuel l) := by
  induction fuel generalizing l with
  | zero => exact h
  | succ k ih =>
    unfold foldNodes
    split_ifs
    · exact ih (allBelowP_pairUp hc l)
    · exact h

theorem allBelowP_padLeaves {l : List Nat} (h : AllBelowP l) : AllBelowP (padLeaves l) := by
  intro x hx
  rcases List.mem_append.mp hx with h1 | h1
  · exact h x h1
  · rw [List.eq_of_mem_replicate h1]
    cases l with
    | nil => exact p_pos
    | cons a r =>
      have hne : a :: r ≠ [] := by simp
      rw [List.getLastD_eq_getLast?, List.getLast?_eq_some_getLast hne]
      exact h _ (List.getLast_mem hne)

theorem accumulate_lt (c : PermParams) {l : List Nat} (h : AllBelowP l) : accumulate c l < Config.p :=
  headD_lt (allBelowP_foldNodes (compress_lt c) (padLeaves l).length (allBelowP_padLeaves h))

end Sys2Proof.Machine
end

