-- ==== Sys2Proof/Laws/Prime.lean ====
section
/-! SUPPORT. The modulus `p` is prime, by a chain of Pratt certificates, and so `finv` is the inverse
(41_field_arith.md R147, R149). -/

namespace Sys2Proof.Machine

/-- `b^e mod q` by repeated squaring, for the certificates. -/
def powModBy (q b : Nat) : (fuel e : Nat) → Nat
  | 0, _ => 1 % q
  | fuel + 1, e =>
    let h := powModBy q b fuel (e / 2)
    if e % 2 = 1 then h * h % q * b % q else h * h % q

theorem powModBy_eq (q b fuel e : Nat) (h : e < 2 ^ fuel) : powModBy q b fuel e = b ^ e % q := by
  induction fuel generalizing e with
  | zero =>
    have : e = 0 := by simpa using h
    subst this
    simp [powModBy]
  | succ k ih =>
    have hk : e / 2 < 2 ^ k := by rw [pow_succ] at h; omega
    have he : e = e / 2 + e / 2 + e % 2 := by omega
    simp only [powModBy, ih _ hk]
    split
    · next h1 =>
      conv_rhs => rw [he, h1, pow_add, pow_add, pow_one]
      simp [Nat.mul_mod]
    · next h1 =>
      have h0 : e % 2 = 0 := by omega
      conv_rhs => rw [he, h0, pow_add, pow_add, pow_zero, mul_one]
      simp [Nat.mul_mod]

/-- The arithmetic part of a Pratt certificate: `g` is a generator and `factors` multiply to q - 1. -/
def prattCheck (q g : Nat) (factors : List Nat) : Bool :=
  decide (1 < q) && decide (factors.prod = q - 1) && decide (q < 2 ^ 256) &&
    decide (powModBy q g 256 (q - 1) = 1) &&
    factors.all fun f => decide (powModBy q g 256 ((q - 1) / f) ≠ 1)

theorem prime_dvd_prod {r : Nat} (hr : r.Prime) : ∀ {l : List Nat}, (∀ f ∈ l, f.Prime) → r ∣ l.prod → r ∈ l
  | [], _, h => absurd (by simpa using h) hr.one_lt.ne'
  | f :: l, hl, h => by
    rw [List.prod_cons] at h
    rcases (hr.dvd_mul).mp h with h1 | h1
    · have := (Nat.prime_dvd_prime_iff_eq hr (hl f (by simp))).mp h1
      simp [this]
    · exact List.mem_cons_of_mem _ (prime_dvd_prod hr (fun x hx => hl x (List.mem_cons_of_mem _ hx)) h1)

/-- A certificate whose factors are prime proves primality. -/
theorem prime_of_pratt (q g : Nat) (factors : List Nat) (hf : ∀ f ∈ factors, f.Prime)
    (h : prattCheck q g factors = true) : q.Prime := by
  simp only [prattCheck, Bool.and_eq_true, decide_eq_true_eq, List.all_eq_true, ne_eq] at h
  obtain ⟨⟨⟨⟨h1, hprod⟩, hlt⟩, hone⟩, hall⟩ := h
  have hone' : 1 % q = 1 := Nat.mod_eq_of_lt h1
  refine lucas_primality q (g : ZMod q) ?_ ?_
  · rw [powModBy_eq _ _ _ _ (by omega)] at hone
    have := (ZMod.natCast_eq_natCast_iff' (g ^ (q - 1)) 1 q).mpr (by rw [hone, hone'])
    simpa using this
  · intro r hr hdvd hpow
    have hmem : r ∈ factors := prime_dvd_prod hr hf (hprod ▸ hdvd)
    refine hall r hmem ?_
    rw [powModBy_eq _ _ _ _ (lt_of_le_of_lt (Nat.div_le_self _ _) (by omega))]
    have h' : ((g ^ ((q - 1) / r) : Nat) : ZMod q) = ((1 : Nat) : ZMod q) := by simpa using hpow
    rw [(ZMod.natCast_eq_natCast_iff' _ _ q).mp h', hone']

theorem prime_405928799 : Nat.Prime 405928799 :=
  prime_of_pratt _ 22 [2, 11, 3691, 4999] (by norm_num) (by decide +kernel)

theorem prime_12048837557 : Nat.Prime 12048837557 :=
  prime_of_pratt _ 2 [2, 2, 7, 7, 661, 93001] (by norm_num) (by decide +kernel)

theorem prime_5156902474397 : Nat.Prime 5156902474397 :=
  prime_of_pratt _ 2 [2, 2, 107, 12048837557]
    (by simp only [List.mem_cons, List.not_mem_nil, or_false, forall_eq_or_imp, forall_eq, prime_12048837557]; norm_num)
    (by decide +kernel)

theorem prime_1670836401704629 : Nat.Prime 1670836401704629 :=
  prime_of_pratt _ 2 [2, 2, 3, 3, 3, 3, 5156902474397]
    (by simp only [List.mem_cons, List.not_mem_nil, or_false, forall_eq_or_imp, forall_eq, prime_5156902474397]; norm_num)
    (by decide +kernel)

theorem prime_639533339 : Nat.Prime 639533339 :=
  prime_of_pratt _ 2 [2, 229, 853, 1637] (by norm_num) (by decide +kernel)

theorem prime_65865678001877903 : Nat.Prime 65865678001877903 :=
  prime_of_pratt _ 5 [2, 83, 379, 1637, 639533339]
    (by simp only [List.mem_cons, List.not_mem_nil, or_false, forall_eq_or_imp, forall_eq, prime_639533339]; norm_num)
    (by decide +kernel)

theorem prime_13818364434197438864469338081 : Nat.Prime 13818364434197438864469338081 :=
  prime_of_pratt _ 3 [2, 2, 2, 2, 2, 5, 823, 1593227, 65865678001877903]
    (by
      simp only [List.mem_cons, List.not_mem_nil, or_false, forall_eq_or_imp, forall_eq, prime_65865678001877903]
      norm_num)
    (by decide +kernel)

/-- The odd prime factors of p - 1, with multiplicity. -/
def oddFactors : List Nat :=
  [3, 3, 13, 29, 983, 11003, 237073, 405928799, 1670836401704629, 13818364434197438864469338081]

theorem oddFactors_prime : ∀ f ∈ oddFactors, f.Prime := by
  simp only [oddFactors, List.mem_cons, List.not_mem_nil, or_false, forall_eq_or_imp, forall_eq, prime_405928799,
    prime_1670836401704629, prime_13818364434197438864469338081]
  norm_num

/-- The field modulus is prime. -/
theorem p_prime : Nat.Prime Config.p := by
  refine prime_of_pratt Config.p 5 (List.replicate 28 2 ++ oddFactors) ?_ (by decide +kernel)
  intro f hf
  rcases List.mem_append.mp hf with h | h
  · rw [List.eq_of_mem_replicate h]
    exact Nat.prime_two
  · exact oddFactors_prime f h

/-- `finv` is the inverse: a * a^-1 mod p = 1 for a not divisible by p (41_field_arith.md R147). -/
theorem fmul_finv {a : Nat} (h0 : a % Config.p ≠ 0) : fmul a (finv a) = 1 := by
  have : Fact (Nat.Prime Config.p) := ⟨p_prime⟩
  have ha : (a : ZMod Config.p) ≠ 0 := by
    intro h
    exact h0 (Nat.mod_eq_zero_of_dvd ((ZMod.natCast_eq_zero_iff a Config.p).mp h))
  refine eq_of_zmod (fmul_lt _ _) one_lt_p ?_
  rw [zmod_fmul, finv_eq, zmod_mod, Nat.cast_pow, ← pow_succ', Nat.cast_one]
  have h2 : Config.p - 2 + 1 = Config.p - 1 := by decide
  rw [h2, ZMod.pow_card_sub_one_eq_one ha]

/-- The inverse is the only number below p with that product. -/
theorem finv_unique {a y : Nat} (hy : y < Config.p) (h : fmul a y = 1) : y = finv a := by
  have hz : (a : ZMod Config.p) * y = 1 := by rw [← zmod_fmul, h, Nat.cast_one]
  have h0 : a % Config.p ≠ 0 := by
    intro ha
    have h1 : (a : ZMod Config.p) = 0 := by rw [← zmod_mod, ha, Nat.cast_zero]
    rw [h1, zero_mul] at hz
    have := (ZMod.natCast_eq_natCast_iff' 0 1 Config.p).mp (by simpa using hz)
    rw [Nat.mod_eq_of_lt p_pos, Nat.mod_eq_of_lt one_lt_p] at this
    exact absurd this (by decide)
  refine eq_of_zmod hy (finv_lt _) ?_
  have hf : (a : ZMod Config.p) * (finv a : Nat) = 1 := by rw [← zmod_fmul, fmul_finv h0, Nat.cast_one]
  calc (y : ZMod Config.p) = y * (a * (finv a : Nat)) := by rw [hf, mul_one]
    _ = (a * y) * (finv a : Nat) := by ring
    _ = (finv a : Nat) := by rw [hz, one_mul]

theorem finv_pos {a : Nat} (h0 : a % Config.p ≠ 0) : 0 < finv a := by
  rcases Nat.eq_zero_or_pos (finv a) with h | h
  · have := fmul_finv h0
    rw [h] at this
    simp [fmul] at this
  · exact h

end Sys2Proof.Machine
end

