-- ==== Sys2Proof/Tests/Slice0.lean ====
section
/-! SUPPORT. Tests of the model against spec/95_test_vectors.md and the examples of the rules, the refusals of
WellFormed, and for each statement with hypotheses a state and operands that meet them. -/

namespace Sys2Proof.Tests

set_option Elab.async false

open Sys2Proof Sys2Proof.Machine

/- WellFormed refuses an ill-formed term for each of its checks. -/

theorem test_wf_ldi : (Instr.ldi 0 65536).wellFormed = false ∧ (Instr.ldi 31 65535).wellFormed = true := by decide
theorem test_wf_psettd_t : (Instr.psettd 32 5).wellFormed = false ∧ (Instr.psettd 31 5).wellFormed = true := by decide
theorem test_wf_psettd_d : (Instr.psettd 3 16).wellFormed = false ∧ (Instr.psettd 3 15).wellFormed = true := by decide
theorem test_wf_psetrnd_f : (Instr.psetrnd 256 0).wellFormed = false ∧ (Instr.psetrnd 255 0).wellFormed = true := by decide
theorem test_wf_psetrnd_p : (Instr.psetrnd 0 256).wellFormed = false ∧ (Instr.psetrnd 0 255).wellFormed = true := by decide
theorem test_wf_psetrc_row : (Instr.psetrc 0 128 0).wellFormed = false ∧ (Instr.psetrc 0 127 0).wellFormed = true := by decide
theorem test_wf_psetrc_col : (Instr.psetrc 0 0 32).wellFormed = false ∧ (Instr.psetrc 0 0 31).wellFormed = true := by decide
theorem test_wf_psetdg : (Instr.psetdg 0 32).wellFormed = false ∧ (Instr.psetdg 0 31).wellFormed = true := by decide
theorem test_wf_arc : (Instr.arc 65536).wellFormed = false ∧ (Instr.arc 65535).wellFormed = true := by decide
theorem test_wf_arcp : (Instr.arcp 65536).wellFormed = false ∧ (Instr.arcp 65535).wellFormed = true := by decide
theorem test_wf_perm : (Instr.perm 65536).wellFormed = false ∧ (Instr.perm 65535).wellFormed = true := by decide
theorem test_wf_lwr : (Instr.lwr 0 65536).wellFormed = false ∧ (Instr.lwr 0 65535).wellFormed = true := by decide
theorem test_wf_lrd : (Instr.lrd 0 65536).wellFormed = false ∧ (Instr.lrd 0 65535).wellFormed = true := by decide
theorem test_wf_accum : (Instr.accum 0 65536).wellFormed = false ∧ (Instr.accum 0 65535).wellFormed = true := by decide

/- Decoding: the words of 95_test_vectors.md section 2.4, one for every command. -/

theorem test_decode_move : decode 0x00000000 = .ok .nop ∧ decode 0x10F80000 = .ok (.ldc 31) ∧
    decode 0x11800000 = .ok (.ldr 16) ∧ decode 0x12080000 = .ok (.stc 1) ∧ decode 0x13A80000 = .ok (.str 21) ∧
    decode 0x1450BEEF = .ok (.ldi 10 48879) ∧ decode 0x15204000 = .ok (.mov 4 1) ∧
    decode 0x16104000 = .ok (.tomont 2 1) ∧ decode 0x17188000 = .ok (.frommont 3 2) := by decide

theorem test_decode_arith : decode 0x20184400 = .ok (.add 3 1 2) ∧ decode 0x21FFBA00 = .ok (.sub 31 30 29) ∧
    decode 0x2207C000 = .ok (.mul 0 31 0) ∧ decode 0x23184000 = .ok (.neg 3 1) ∧ decode 0x24184000 = .ok (.dbl 3 1) ∧
    decode 0x25184000 = .ok (.sqr 3 1) ∧ decode 0x26184000 = .ok (.inv 3 1) ∧ decode 0x27004400 = .ok (.eq 1 2) := by
  decide

theorem test_decode_params : decode 0x30000B18 = .ok (.psettd 24 11) ∧ decode 0x31000838 = .ok (.psetrnd 8 56) ∧
    decode 0x32F80FF7 = .ok (.psetrc 31 127 23) ∧ decode 0x33F80017 = .ok (.psetdg 31 23) ∧
    decode 0x34000000 = .ok .pcommit := by decide

theorem test_decode_perm : decode 0x4000003F = .ok (.arc 63) ∧ decode 0x41000004 = .ok (.arcp 4) ∧
    decode 0x42000000 = .ok (.sbox 0 0) ∧ decode 0x43000000 = .ok .sboxf ∧ decode 0x44000000 = .ok .mext ∧
    decode 0x45000000 = .ok .mint ∧ decode 0x46000003 = .ok (.perm 3) := by decide

theorem test_decode_merkle : decode 0x50280200 = .ok (.cmpr 5 0 1) ∧ decode 0x51A003FF = .ok (.lwr 20 1023) ∧
    decode 0x52080002 = .ok (.lrd 1 2) ∧ decode 0x53600400 = .ok (.accum 12 1024) := by decide

/-- The illegal words of 95_test_vectors.md section 2.4, and the two boundary words. -/
theorem test_decode_illegal :
    ([0x01000000, 0xFF000000, 0x18000000, 0x54000000] : List Word32).all
      (fun w => decide (decode w = .error .unassignedOpcode)) = true ∧
    ([0x00000001, 0x10080001, 0x10040000, 0x15204200, 0x20184401, 0x27084400, 0x14010002, 0x30001503, 0x30000523,
      0x32F81000, 0x33F80020, 0x46010003, 0x34000001, 0x50280201, 0x32FFEFF7] : List Word32).all
      (fun w => decide (decode w = .error .mustBeZero)) = true ∧
    decode 0x32F80FFF = .ok (.psetrc 31 127 31) := by decide

theorem test_decodeBytes : decodeBytes [0x20, 0x18, 0x44, 0x00] = .ok (.add 3 1 2) ∧
    decodeBytes [0x20, 0x18, 0x44] = .error .notOneWord := by decide

theorem test_decodeTableWord : decodeTableWord 32 0x20184400 = some (.add 3 1 2) ∧
    decodeTableWord 32 0x20184401 = none := by decide

/-- The assembled examples of 30_encoding.md R99. -/
theorem test_encode : encode (.psettd 3 5) = 0x30000503 ∧ encode (.psetrnd 8 56) = 0x31000838 ∧
    encode (.psetrc 31 2 1) = 0x32F80041 ∧ encode (.sub 31 30 29) = 0x21FFBA00 := by decide

/- Constants (00_scope.md R7). -/

theorem test_constants :
    mont 1 = 0x0e0a77c19a07df2f666ea36f7879462e36fc76959f60cd29ac96341c4ffffffb ∧
    mont (mont 1) = 0x0216d0b17f4e44a58c49833d53bb808553fe3ab1e35c59e31bb8e645ae216da7 ∧
    val 1 = 0x15ebf95182c5551cc8260de4aeb85d5d090ef5a9e111ec87dc5ba0056db1194e ∧ 2 ^ 256 / Config.p = 5 := by
  decide +kernel

/- Small states and what a command leaves on them. -/

/-- The state after a command, or the reset state where the command has none. -/
def after (i : Instr) (s : State) : State :=
  match exec i s with
  | .next t => t
  | .fault _ => State.reset
  | .refused _ => State.reset

/-- The reset state with field values in f0, f1, .... -/
def withVals (s : State) (vs : List Nat) : State := s.setElems (vs.map mont)

/-- A committed store with these parameters, rows and diagonal (field values), in RUN mode. -/
def runState (t : BitVec 5) (d : BitVec 4) (rf rp : BitVec 8) (rows : List (List Nat)) (dg : List Nat) : State :=
  { State.reset with
    run := true
    P := ⟨t, d, rf, rp⟩
    rc := (rows.mapIdx fun r row => row.mapIdx fun c x => (rcKey r c, BitVec.ofNat 256 (mont x))).flatten
    dg := dg.mapIdx fun c x => (c, BitVec.ofNat 256 (mont x)) }

/-- Configuration toy2 of 95_test_vectors.md (program P2). -/
def toy2 : State := runState 2 3 2 1 [[1, 2], [3, 9], [4, 5]] [1, 2]

/-- Configuration T3 of 95_test_vectors.md (program P3). -/
def toy3 : State := runState 3 5 2 1 [[1, 2, 3], [4, 5, 6], [7, 8, 9]] [1, 1, 2]

/-- A committed store without rounds, t = 4, with the diagonal of the MINT example. -/
def toy4 : State := runState 4 5 0 0 [] [10, 20, 30, 40]

/-- A committed store without rounds, t = 8. -/
def toy8 : State := runState 8 7 0 0 [] [1, 2, 3, 4, 5, 6, 7, 8]

/-- The input chunk of `SETDIN x`, complete. -/
def withChunk (x : Nat) : State :=
  { State.reset with
    din := #v[BitVec.ofNat 32 (slice x 224 32), BitVec.ofNat 32 (slice x 192 32), BitVec.ofNat 32 (slice x 160 32),
      BitVec.ofNat 32 (slice x 128 32), BitVec.ofNat 32 (slice x 96 32), BitVec.ofNat 32 (slice x 64 32),
      BitVec.ofNat 32 (slice x 32 32), BitVec.ofNat 32 (slice x 0 32)]
    dinm := 0xFF }

/- Data movement (95_test_vectors.md section 2.2; 40_field_move.md). -/

theorem test_ldc : (after (.ldc 1) (withChunk 1)).reg 1 = 0x0e0a77c19a07df2f666ea36f7879462e36fc76959f60cd29ac96341c4ffffffb ∧
    (after (.ldc 1) (withChunk 1)).dinm = 0 := by decide +kernel
theorem test_ldc_reduces : (after (.ldc 1) (withChunk (2 ^ 256 - 1))).reg 1 =
    0x2470a762c678059fde2b25845cc392b44535ac64bdb4fd4ab304a7bd4e216dad := by decide +kernel
theorem test_ldr : (after (.ldr 2) (withChunk (Config.p - 1))).reg 2 = Config.p - 1 := by decide +kernel
theorem test_ldr_range : (after (.ldr 2) (withChunk Config.p)).errcode = 0x32 ∧
    (after (.ldr 2) State.reset).errcode = 0x30 := by decide +kernel
theorem test_stc : (after (.stc 1) (withVals .reset [0, 1])).dout.toList = [0, 0, 0, 0, 0, 0, 0, 1] := by decide +kernel
theorem test_str : (after (.str 1) (withVals .reset [0, 1])).dout.toList =
    [0x0e0a77c1, 0x9a07df2f, 0x666ea36f, 0x7879462e, 0x36fc7695, 0x9f60cd29, 0xac96341c, 0x4ffffffb] := by decide +kernel
theorem test_ldi : (after (.ldi 0 2) .reset).reg 0 =
    0x1c14ef83340fbe5eccdd46def0f28c5c6df8ed2b3ec19a53592c68389ffffff6 := by decide +kernel
theorem test_mov : (after (.mov 4 1) (withVals .reset [0, 5])).reg 4 =
    0x15d0085520f5bbc347d8eb76d8dd0689eaba68a3a32a913f1b0d0ef99fffffe6 := by decide +kernel
theorem test_tomont : (after (.tomont 2 1) (State.reset.setReg 1 5)).reg 2 =
    0x15d0085520f5bbc347d8eb76d8dd0689eaba68a3a32a913f1b0d0ef99fffffe6 := by decide +kernel
theorem test_frommont : (after (.frommont 3 2) (withVals .reset [0, 0, 5])).reg 3 = 5 := by decide +kernel

/- Field arithmetic (41_field_arith.md). -/

theorem test_add : (after (.add 3 1 2) (withVals .reset [0, 3, 5])).reg 3 =
    0x0f8b21270ddbb927c2d4900ec0c780b7677be41c0793882adcedb5ba9fffffd6 := by decide +kernel
theorem test_add_wraps : (after (.add 1 1 2) (withVals .reset [0, Config.p - 1, 1])).regVal 1 = 0 := by decide +kernel
theorem test_sub : (after (.sub 3 1 2) (withVals .reset [0, 0, 1])).reg 3 =
    0x2259d6b14729c0fa51e1a2470908122ef13771b2da58a367974bc177a0000006 := by decide +kernel
theorem test_mul : (after (.mul 3 1 2) (withVals .reset [0, 3, 5])).reg 3 =
    0x110bca8c81af93201f3a7cae0915bb4097fb51a26fc6432c0d453758efffffb1 := by decide +kernel
theorem test_neg : (after (.neg 3 1) (withVals .reset [0, 1])).regVal 3 = Config.p - 1 ∧
    (after (.neg 3 1) .reset).reg 3 = 0 := by decide +kernel
theorem test_dbl : (after (.dbl 3 1) (withVals .reset [0, 3])).regVal 3 = 6 := by decide +kernel
theorem test_sqr : (after (.sqr 3 1) (withVals .reset [0, 3])).reg 3 =
    0x1d9598e8a7e398572943337e3940c6e59e785ab1a6f455548983e9d6efffffd1 := by decide +kernel
theorem test_inv : (after (.inv 3 1) (withVals .reset [0, 18])).regVal 3 =
    0x2db411339bcb502766f67aba96c1453b89865b60e4bd5c176ac72f0bb8000001 := by decide +kernel
theorem test_inv_zero : (after (.inv 3 1) .reset).errcode = 0x20 ∧ (after (.inv 3 1) .reset).errcmd = 0x26184000 := by
  decide +kernel
theorem test_eq : (after (.eq 1 2) (withVals .reset [0, 7, 7])).statusWord = 4 ∧
    (after (.eq 1 2) (withVals .reset [0, 7, Config.p - 7])).statusWord = 0 := by decide +kernel

/- Parameters (42_params.md). -/

theorem test_psettd : (after (.psettd 3 5) .reset).pcfgWord = 0x503 ∧ (after (.psettd 3 5) toy2).errcode = 0x02 := by
  decide +kernel
theorem test_psetrnd : (after (.psetrnd 8 56) .reset).pcfgWord = 0x38080000 := by decide +kernel
theorem test_psetrc : (after (.psetrc 31 2 0) (State.reset.setReg 31 (mont 7))).rcAt? 2 0 = some (BitVec.ofNat 256 (mont 7)) ∧
    (after (.psetrc 31 127 31) .reset).errcode = 0x33 := by decide +kernel
theorem test_psetdg : (after (.psetdg 31 2) (State.reset.setReg 31 (mont 2))).dgAt? 2 = some (BitVec.ofNat 256 (mont 2)) ∧
    (after (.psetdg 31 24) .reset).errcode = 0x33 := by decide +kernel
theorem test_pcommit : (after .pcommit { toy2 with run := false }).statusWord = 2 ∧ (after .pcommit .reset).errcode = 0x10 := by
  decide +kernel
theorem test_pcommit_shape : (after .pcommit { toy2 with run := false, dg := toy3.dg }).errcode = 0x13 ∧
    (after .pcommit { toy2 with run := false, P := ⟨2, 3, 3, 0⟩ }).errcode = 0x12 := by decide +kernel

/- Permutation (43_poseidon2.md; 95_test_vectors.md section 2.6). -/

theorem test_arc : (after (.arc 0) (withVals toy3 [10, 20, 30])).elemVals 3 = [11, 22, 33] ∧
    (after (.arc 3) toy3).errcode = 0x33 := by decide +kernel
theorem test_arcp : (after (.arcp 1) (withVals toy3 [11, 22, 33])).elemVals 3 = [15, 22, 33] ∧
    (after (.arcp 0) .reset).errcode = 0x03 := by decide +kernel
theorem test_sbox : (after (.sbox 5 0) (withVals toy3 [2])).regVal 5 = 32 := by decide +kernel
theorem test_sboxf : (after .sboxf (withVals toy2 [2, 3, 4])).elemVals 3 = [8, 27, 4] := by decide +kernel
theorem test_mext : (after .mext (withVals toy4 [1, 2, 3, 4, 9])).elemVals 5 = [34, 23, 50, 39, 9] := by decide +kernel
theorem test_mext_groups : (after .mext (withVals toy8 [1, 2, 3, 4, 5, 6, 7, 8])).elemVals 8 =
    [166, 117, 214, 165, 230, 165, 278, 213] := by decide +kernel
theorem test_mint : (after .mint (withVals toy4 [1, 2, 3, 4, 9])).elemVals 5 = [20, 50, 100, 170, 9] := by decide +kernel
theorem test_mint_fixed : (after .mint (withVals toy3 [1, 2, 3])).elemVals 3 = [7, 8, 12] := by decide +kernel
theorem test_perm : (after (.perm 3) (withVals toy3 [1, 2, 0])).elemVals 3 =
    [0x29378a408518c267aa44bc87831b6cda3d1ead2a522e689b40be632c2d36317a,
      0x0263fb401e9f791bc298e8adbd6fbea176643e0c1da9d60931acb02b570c7e7a,
      0x05ce606ac60019e1b917102238b6ab61651baab0497f74f69a429449d3aa9921] := by decide +kernel
theorem test_perm_faults : (after (.perm 2) toy3).errcode = 0x31 ∧ (after (.perm 2) .reset).errcode = 0x03 := by
  decide +kernel

/- Merkle (44_merkle.md; 95_test_vectors.md section 2.7, rows K1, K11, K14, K25, K28, K31). -/

theorem test_cmpr : (after (.cmpr 5 0 1) (withVals toy3 [1, 2, 7])).elemVals 6 =
    [1, 2, 7, 0, 0, 0x29378a408518c267aa44bc87831b6cda3d1ead2a522e689b40be632c2d36317a] := by decide +kernel
theorem test_cmpr_width : (after (.cmpr 1 2 3) toy2).errcode = 0x31 := by decide +kernel
theorem test_lwr : (after (.lwr 3 1023) (withVals .reset [0, 0, 0, 9])).leafAt 1023 = BitVec.ofNat 256 (mont 9) ∧
    (after (.lwr 1 1024) .reset).errcmd = 0x51080400 := by decide +kernel
theorem test_lrd : (after (.lrd 4 7) (State.reset.setLeaf 7 5)).reg 4 = 5 ∧ (after (.lrd 1 65535) .reset).errcode = 0x33 := by
  decide +kernel
theorem test_accum : (after (.accum 11 3) { toy3 with leaf := [(0, BitVec.ofNat 256 (mont 1)),
      (1, BitVec.ofNat 256 (mont 2)), (2, BitVec.ofNat 256 (mont 3))] }).regVal 11 =
    0x1a4d774e28366cf44e02b77b0abef12fd0c9d8c2ce90f773fc017fa590bc91b6 := by decide +kernel
theorem test_accum_faults : (after (.accum 11 0) toy3).errcode = 0x34 ∧ (after (.accum 1 0) toy2).errcode = 0x31 := by
  decide +kernel

/- The bus, the step and the reference data. -/

/-- The next state of one step, if there is one. -/
def stepNext (s : State) : Option State :=
  match step s with
  | .next t => some t
  | .fault _ => none
  | .refused _ => none

/-- Why a step is refused, if it is. -/
def stepRefusal (s : State) : Option Refusal :=
  match step s with
  | .next _ => none
  | .fault _ => none
  | .refused r => some r

theorem test_withFetchWord : stepNext (State.reset.withFetchWord 32 0x14000002) = some (after (.ldi 0 2) .reset) := by
  decide +kernel
theorem test_srst_errclr : stepNext { toy2 with inputs := [.write 0x10 4 3] } = some .reset ∧
    stepNext { State.reset with err := true, errcode := 1, errcmd := 5, inputs := [.write 0x10 4 2] } = some .reset := by
  decide +kernel
theorem test_read_id : stepNext { State.reset with inputs := [.read 0 4] } =
    some { State.reset with rdata := [0x50324207] } := by decide +kernel
theorem test_refused : stepRefusal { State.reset with inputs := [.read 2 4] } = some (.misalignedAccess 2) ∧
    stepRefusal { State.reset with inputs := [.write 0x18 1 0] } = some (.accessWidth 1) ∧
    stepRefusal { State.reset with inputs := [.read 256 4] } = some (.outsideWindow 256) := by decide +kernel

/-- The first constant drawn by 45_reference_params.md R233 is row 0, column 0 of R232. -/
theorem test_grain_first : grainConstants 64 1 (grainDiscard 160 grainInit) =
    [0x1d066a255517b7fd8bddd3a93f7804ef7f8fcde48bb4c37a59a09a1a97052816] := by decide +kernel

/- States and operands that meet the hypotheses of the statements, clause by clause. -/

/-- The invariant of a state without a fault, from its decidable parts. -/
theorem inv_of {s : State} (h1 : ∀ r : Reg, s.reg r < Config.p) (h2 : ∀ e ∈ s.leaf, e.2.toNat < Config.p)
    (h3 : Memory.wf s.leaf = true) (h4 : ∀ e ∈ s.leaf, e.1 < Config.lmax) (h5 : ∀ e ∈ s.rc, e.2.toNat < Config.p)
    (h6 : Store.wf s.rc = true) (h7 : ∀ e ∈ s.rc, e.1 < rcSize) (h8 : ∀ e ∈ s.dg, e.2.toNat < Config.p)
    (h9 : Store.wf s.dg = true) (h10 : ∀ e ∈ s.dg, e.1 < Config.tmax)
    (h11 : s.err = false ∧ s.errcode = 0 ∧ s.errcmd = 0) (h12 : s.run = true → s.commitFault = none) : Inv s :=
  ⟨h1, h2, h3, h4, h5, h6, h7, h8, h9, h10, fun _ => h11.2, fun h => absurd (h11.1.symm.trans h) (by decide), h12⟩

theorem inv_reset : Inv State.reset := by
  apply inv_of <;> decide +kernel
theorem inv_toy2 : Inv toy2 := by
  apply inv_of <;> decide +kernel
theorem inv_toy3 : Inv toy3 := by
  apply inv_of <;> decide +kernel
theorem inv_toy4 : Inv toy4 := by
  apply inv_of <;> decide +kernel
theorem inv_toy8 : Inv toy8 := by
  apply inv_of <;> decide +kernel

theorem witness_DecodeOfEncode : (Instr.psettd 31 15).wellFormed = true := by decide
theorem witness_EncodeOfDecode : decode 0x20184400 = .ok (.add 3 1 2) := by decide
theorem witness_IllegalWords : State.reset.err = false ∧ (∀ row ∈ opTable, (0x00000001 : Word32) &&& row.mask ≠ row.pattern) ∧
    (∀ row ∈ opTable, slice (0xFF000000 : Word32).toNat 24 8 ≠ slice row.pattern.toNat 24 8) := by decide
theorem witness_OpcodeTableOverlap : ∃ a ∈ opTable, (0x20184400 : Word32) &&& a.mask = a.pattern := by decide

/-- A state whose next input is the write of a word to CMD. -/
def issuing (s : State) (w : Word32) : State := { s with inputs := [.write 0x18 4 w] }

/-- A state with a fault pending. -/
def faulted : State := { State.reset with err := true, errcode := 0x20, errcmd := 0x26184000 }

theorem witness_StepRuns : (issuing .reset 0).inputs = [.write 0x18 4 0] ∧ (issuing .reset 0).err = false ∧
    decode 0 = .ok .nop ∧ Instr.nop.wellFormed = true := by decide
theorem witness_StepRuns_illegal : (issuing .reset 1).inputs = [.write 0x18 4 1] ∧ (issuing .reset 1).err = false ∧
    decode 1 = .error .mustBeZero := by decide
theorem witness_StepRuns_dropped : (issuing faulted 0).inputs = [.write 0x18 4 0] ∧ (issuing faulted 0).err = true := by
  decide
theorem witness_WithFetchWord : decode 0x53600400 = .ok (.accum 12 1024) := by decide
theorem witness_Idle : State.reset.inputs = [] := rfl
theorem witness_BusReads : [0x00, 0x04, 0x08, 0x0C, 0x14, 0x20 + 4 * (0 : Fin 8).val, 0x20 + 4 * (7 : Fin 8).val,
    0x40 + 4 * (0 : Fin 8).val, 0x40 + 4 * (7 : Fin 8).val, 0x10, 0x18, 0x1C, 0x60, 0xFC].all
    (fun off => decide (off % 4 = 0 ∧ off < 256)) = true := by decide
theorem witness_BusWrites : (0x3 : Word32).getLsbD 0 = true ∧ (0x2 : Word32).getLsbD 0 = false ∧
    (0x2 : Word32).getLsbD 1 = true ∧ (0xFFFFFFFC : Word32).getLsbD 0 = false ∧
    (0xFFFFFFFC : Word32).getLsbD 1 = false ∧ State.reset.err = false ∧ faulted.err = true ∧
    [0x10, 0x18, 0x20, 0x3C, 0x1C, 0x40, 0xFC].all (fun off => decide (off % 4 = 0 ∧ off < 256)) = true := by decide
theorem witness_OtherAccesses : (1 ≠ 4 ∨ 0 % 4 ≠ 0 ∨ 256 ≤ 0) ∧ (4 ≠ 4 ∨ 255 % 4 ≠ 0 ∨ 256 ≤ 255) ∧
    (4 ≠ 4 ∨ 256 % 4 ≠ 0 ∨ 256 ≤ 256) := by decide
theorem witness_DinReadsBack : ({ State.reset with inputs := [.write 0x3C 4 5, .read 0x3C 4] } : State).inputs =
    .write (0x20 + 4 * (7 : Fin 8).val) 4 5 :: .read (0x20 + 4 * (7 : Fin 8).val) 4 :: [] := rfl
theorem witness_BothResets : (0x3 : Word32).getLsbD 0 = true := by decide
theorem witness_DroppedWhileFaulted : faulted.err = true ∧ (0x1 : Word32).getLsbD 0 = true ∧
    (0x2 : Word32).getLsbD 0 = false ∧ (0x2 : Word32).getLsbD 1 = true ∧ (0xFFFFFFFC : Word32).getLsbD 0 = false ∧
    (0xFFFFFFFC : Word32).getLsbD 1 = false ∧ 0 % 4 = 0 ∧ 0xFC % 4 = 0 ∧ 0xFC < 256 := by decide
theorem witness_Errclr : (0x2 : Word32).getLsbD 0 = false ∧ (0x2 : Word32).getLsbD 1 = true ∧ Inv State.reset ∧
    State.reset.err = false := ⟨by decide, by decide, inv_reset, rfl⟩

/-- INV of zero, written to CMD, faults: the hypotheses of the statements about faulting commands. -/
theorem witness_FaultingCommand : Inv State.reset ∧ State.reset.err = false ∧ writeCmd 0x26184000 .reset = .next faulted ∧
    faulted.err = true ∧ exec (.inv 3 1) .reset = .next faulted := ⟨inv_reset, rfl, rfl, rfl, rfl⟩

theorem witness_ModeFaults : needsRun (.perm 0) = true ∧ State.reset.run = false ∧ needsConfig .pcommit = true ∧
    toy2.run = true ∧ needsRun (.lrd 0 0) = false ∧ needsConfig (.lrd 0 0) = false ∧ exec .nop toy2 = .next toy2 :=
  ⟨rfl, rfl, rfl, rfl, rfl, rfl, rfl⟩
theorem witness_Chunks : (2 ^ 256 - 1 < 2 ^ 256) ∧ (31 < 32) ∧ (252 % 4 = 0 ∧ 252 < 256) := by decide
theorem witness_EveryStep : Inv toy3 ∧ step toy3 = .next toy3 := ⟨inv_toy3, rfl⟩
theorem witness_NoCommandStops : Inv { toy3 with inputs := [.write 0x18 4 0x46000003] } :=
  ⟨inv_toy3.1, inv_toy3.2, inv_toy3.3, inv_toy3.4, inv_toy3.5, inv_toy3.6, inv_toy3.7, inv_toy3.8, inv_toy3.9,
    inv_toy3.10, inv_toy3.11, inv_toy3.12, inv_toy3.13⟩
theorem witness_RunMode : toy2.run = true ∧ exec .nop toy2 = .next toy2 ∧ needsConfig (.psetdg 0 31) = true ∧
    step { toy2 with inputs := [.hardReset] } = .next State.reset ∧ State.reset.run = false := ⟨rfl, rfl, rfl, rfl, rfl⟩
theorem witness_OnlyResetUnwrites : (toy2.dgAt? 1).isSome = true ∧ State.reset.dgAt? 1 = none ∧
    (toy2.rcAt? 2 1).isSome = true ∧ State.reset.rcAt? 2 1 = none ∧
    stepNext { toy2 with inputs := [.hardReset] } = some State.reset := by decide +kernel
theorem witness_OnlyWriters : exec (.eq 0 0) .reset = .next (State.reset.setEqf true) ∧
    (State.reset.setEqf true).eqf ≠ State.reset.eqf := ⟨rfl, by decide⟩
theorem witness_OnlyWriters_regs : (after (.ldi 31 1) .reset).reg 31 ≠ State.reset.reg 31 ∧ destReg (.ldi 31 1) = some 31 ∧
    (after (.arc 0) toy3).reg 2 ≠ toy3.reg 2 ∧ writesElems (.arc 0) = true ∧ (2 : Reg).val < toy3.t := by decide +kernel
theorem witness_OnlyWriters_faults : exec (.inv 3 1) .reset = .next faulted ∧ faulted.err ≠ State.reset.err ∧
    Cause.notInvertible ∈ causesOf (.inv 3 1) := ⟨rfl, by decide, by decide⟩
theorem witness_NoCommandReads : exec (.eq 0 0) .reset = .next (State.reset.setEqf true) ∧
    exec (.stc 0) .reset = .next (State.reset.setDout 0) ∧ exec .nop .reset = .next .reset := ⟨rfl, rfl, rfl⟩
theorem witness_FaultFlag : step { faulted with inputs := [.write 0x10 4 2] } = .next .reset ∧ State.reset.err = false ∧
    step { State.reset with inputs := [.write 0x18 4 0x26184000] } = .next faulted ∧
    step { faulted with inputs := [.write 0x18 4 0] } = .next faulted := ⟨rfl, rfl, rfl, rfl⟩
theorem witness_Ldc : (withChunk (2 ^ 256 - 1)).dinm = 0xFF ∧ State.reset.dinm ≠ 0xFF := by decide
theorem witness_Ldr : (withChunk Config.p).dinm = 0xFF ∧ Config.p ≤ (withChunk Config.p).chunk ∧
    (withChunk (Config.p - 1)).dinm = 0xFF ∧ (withChunk (Config.p - 1)).chunk < Config.p ∧ State.reset.dinm ≠ 0xFF := by
  decide +kernel
theorem witness_Ldi : 65535 < 2 ^ 16 := by decide
theorem witness_WordsBelowP : State.reset.reg 31 < Config.p ∧ State.reset.reg 31 = 0 ∧
    (State.reset.setReg 31 (Config.p - 1)).reg 31 < Config.p ∧ (State.reset.setReg 31 (Config.p - 1)).reg 31 ≠ 0 := by
  decide +kernel
theorem witness_LoadedValue : (2 ^ 256 - 1 < 2 ^ 256) ∧
    ({ State.reset with inputs := pseudoLdv 31 (2 ^ 256 - 1) ++ pseudoStv 31 } : State).inputs =
      pseudoLdv 31 (2 ^ 256 - 1) ++ pseudoStv 31 ++ [] := ⟨by decide, by simp⟩
theorem witness_FieldIdentities : Config.p - 1 < Config.p ∧ 0 < Config.p ∧ Config.p - 1 ≠ 0 := by decide
theorem witness_Scalars : 31 < 2 ^ 5 ∧ 15 < 2 ^ 4 ∧ 255 < 2 ^ 8 ∧ toy2.run = true ∧ State.reset.run = false := by decide
theorem witness_Entries : 127 < 2 ^ 7 ∧ 24 < 2 ^ 5 ∧ 31 < 2 ^ 5 ∧ 24 ≤ 24 ∧ 23 < 24 ∧ toy2.run = true ∧
    State.reset.run = false := by decide

/-- PCOMMIT: a state for each of its clauses. -/
theorem witness_Pcommit : toy2.run = true ∧ State.reset.P.t.toNat ∉ [2, 3, 4, 8, 12, 16, 20, 24] ∧
    (after .pcommit { State.reset with P := ⟨2, 4, 0, 0⟩ }).errcode = 0x11 ∧
    (after .pcommit { State.reset with P := ⟨24, 11, 255, 0⟩ }).errcode = 0x12 ∧
    (after .pcommit { State.reset with P := ⟨2, 3, 128, 1⟩ }).errcode = 0x13 ∧
    (after .pcommit { toy3 with run := false, P := ⟨3, 5, 2, 2⟩ }).errcode = 0x13 ∧
    (after .pcommit { toy3 with run := false, dg := [] }).errcode = 0x13 ∧
    (after .pcommit { toy3 with run := false }).run = true := by decide +kernel

theorem witness_Arc : 65535 < 2 ^ 16 ∧ State.reset.run = false ∧ toy3.run = true ∧
    toy3.P.roundsF.toNat + toy3.P.roundsP.toNat ≤ 3 ∧ Inv toy3 ∧ 2 < toy3.P.roundsF.toNat + toy3.P.roundsP.toNat :=
  ⟨by decide, rfl, rfl, by decide, inv_toy3, by decide⟩
theorem witness_RunLayers : State.reset.run = false ∧ Inv toy2 ∧ toy2.run = true ∧ toy2.t = 2 ∧ Inv toy4 ∧
    toy4.run = true ∧ 4 ≤ toy4.t ∧ Inv toy8 ∧ toy8.run = true ∧ toy3.t = 3 :=
  ⟨rfl, inv_toy2, rfl, rfl, inv_toy4, rfl, by decide, inv_toy8, rfl, rfl⟩
theorem witness_Perm : Inv toy3 ∧ toy3.run = true ∧ toy3.err = false ∧ 3 = toy3.P.t.toNat ∧ 2 ≠ toy3.P.t.toNat :=
  ⟨inv_toy3, rfl, rfl, rfl, by decide⟩

/-- The store of toy2 with another diagonal and another column 1 of its partial row. -/
def toy2' : State := runState 2 3 2 1 [[1, 2], [3, 8], [4, 5]] [7, 7]

theorem inv_toy2' : Inv toy2' := by
  apply inv_of <;> decide +kernel

theorem witness_UnreadConstants : Inv toy2 ∧ Inv toy2' ∧ toy2.run = true ∧ toy2'.run = true ∧ toy2'.P = toy2.P ∧
    toy2'.f = toy2.f ∧ toy2.partialRow 1 = true ∧ toy2'.rcAt? 1 1 ≠ toy2.rcAt? 1 1 ∧ ¬ 4 ≤ toy2.t ∧
    exec (.perm 2) toy2 = .next (after (.perm 2) toy2) ∧ exec (.perm 2) toy2' = .next (after (.perm 2) toy2') :=
  ⟨inv_toy2, inv_toy2', rfl, rfl, rfl, rfl, rfl, by decide +kernel, by decide, by rfl, by rfl⟩

theorem witness_UnreadConstants_rc (r c : Nat) (h : c = 0 ∨ toy2.partialRow r = false) :
    toy2'.rcAt? r c = toy2.rcAt? r c := by
  by_cases h1 : r < 128 ∧ c < 24
  · have h2 : (List.range 128).all (fun r => (List.range 24).all fun c =>
        decide (c = 0 ∨ toy2.partialRow r = false → toy2'.rcAt? r c = toy2.rcAt? r c)) = true := by decide +kernel
    simp only [List.all_eq_true, List.mem_range, decide_eq_true_eq] at h2
    exact h2 r h1.1 c h1.2 h
  · have h3 : ¬ (r < Config.nrMax ∧ c < Config.tmax) := h1
    rw [State.rcAt?, State.rcAt?, if_neg h3, if_neg h3]

theorem witness_Merkle : Inv toy3 ∧ toy3.run = true ∧ toy3.P.t.toNat = 3 ∧ toy2.run = true ∧ toy2.P.t.toNat ≠ 3 ∧
    State.reset.run = false := ⟨inv_toy3, rfl, rfl, rfl, by decide, rfl⟩
theorem witness_Leaf : 65535 < 2 ^ 16 ∧ 1024 ≤ 1024 ∧ 1023 < 1024 ∧ Memory.wf State.reset.leaf = true := by decide
theorem witness_Accum : (0 = 0 ∨ 1024 < 0) ∧ (1025 = 0 ∨ 1024 < 1025) ∧ (0 < 1 ∧ 1 ≤ 1024) ∧ (0 < 1024 ∧ 1024 ≤ 1024) := by
  decide
theorem witness_Padding : ([1, 2] : List Nat).length + 1 + 1 ≤ bound (([1, 2] : List Nat).length + 1) := by decide

end Sys2Proof.Tests
end

section
/-! The answers of the shared checks: a property of every next state a check can answer, and when a check answers a next
state at all. -/

namespace Sys2Proof.Machine

/-- Every next state the result answers has the property; a stop of the model answers none. -/
def OnNext (Q : State → Prop) (r : Result) : Prop := ∀ t, r = .next t → Q t

/-- The result is a next state, no stop of the model. -/
def Answers (r : Result) : Prop := ∃ t, r = .next t

section Checks

variable {Q : State → Prop} {i : Instr} {s t : State} {k : Result} {c : Cause} {bad : Bool} {g : Option Fault}

theorem onNext_next (h : Q t) : OnNext Q (.next t) := fun _ e => Host.Outcome.next.inj e ▸ h

theorem onNext_raiseIf (hf : bad = true → Q (s.raise c (encode i))) (hk : bad = false → OnNext Q k) :
    OnNext Q (raiseIf bad i s c k) := by
  intro t h
  obtain ⟨hb, rfl⟩ | ⟨hb, h⟩ := raiseIf_next h
  · exact hf hb
  · exact hk hb t h

theorem onNext_inConfig (hf : s.run = true → Q (s.raise .paramsLocked (encode i)))
    (hk : s.run = false → OnNext Q k) : OnNext Q (inConfig i s k) := by
  intro t h
  obtain ⟨hr, rfl⟩ | ⟨hr, h⟩ := inConfig_next h
  · exact hf hr
  · exact hk hr t h

theorem onNext_inRun (hf : s.run = false → Q (s.raise .paramsNotCommitted (encode i)))
    (hk : s.run = true → OnNext Q k) : OnNext Q (inRun i s k) := by
  intro t h
  obtain ⟨hr, rfl⟩ | ⟨hr, h⟩ := inRun_next h
  · exact hf hr
  · exact hk hr t h

theorem onNext_stopIf (hk : g = none → OnNext Q k) : OnNext Q (stopIf g k) := fun t h => by
  obtain ⟨hg, h⟩ := stopIf_next h
  exact hk hg t h

theorem answers_next (t : State) : Answers (.next t) := ⟨t, rfl⟩

theorem answers_raiseIf (hk : bad = false → Answers k) : Answers (raiseIf bad i s c k) := by
  cases bad with
  | true => exact answers_next _
  | false => exact hk rfl

theorem answers_inConfig (hk : s.run = false → Answers k) : Answers (inConfig i s k) := by
  rw [inConfig_eq]
  split
  · exact answers_next _
  · exact hk (by simpa using ‹¬ s.run = true›)

theorem answers_inRun (hk : s.run = true → Answers k) : Answers (inRun i s k) := by
  rw [inRun_eq]
  split
  · exact hk ‹_›
  · exact answers_next _

theorem answers_stopIf (hg : g = none) (hk : Answers k) : Answers (stopIf g k) := hg ▸ hk

end Checks

end Sys2Proof.Machine
end

section
/-! What one command can do, said once: `Effect i s t` lists the writes, and `exec_effect` says that every next state of
`exec` is one of them. -/

namespace Sys2Proof.Machine

/-- A write of command `i` at state `s`. The bounds on written numbers hold where the invariant does. -/
inductive Effect : Instr → State → State → Prop where
  /-- a fault of the command's row of R242 -/
  | raised {i : Instr} {s : State} {c : Cause} (hc : c ∈ causesOf i) : Effect i s (s.raise c (encode i))
  /-- NOP -/
  | idle {s : State} : Effect .nop s s
  /-- the destination register -/
  | reg {i : Instr} {s : State} {r : Reg} {n : Nat} (hr : destReg i = some r) (hn : Inv s → n < Config.p) :
      Effect i s (s.setReg r n)
  /-- the state elements -/
  | elems {i : Instr} {s : State} {ws : List Nat} (hi : writesElems i = true) (hl : ws.length = s.t)
      (hw : AllBelowP ws) : Effect i s (s.setElems ws)
  /-- a load of the input chunk, which clears its mask -/
  | load {i : Instr} {s : State} {fd : Reg} {n : Nat} (hi : i = .ldc fd ∨ i = .ldr fd) (hn : n < Config.p) :
      Effect i s (s.setReg fd n).clearDinm
  /-- the output chunk -/
  | dout {i : Instr} {s : State} {fs : Reg} {x : Nat} (hi : i = .stc fs ∨ i = .str fs) : Effect i s (s.setDout x)
  /-- the comparison flag -/
  | eqf {s : State} {a b : Reg} {v : Bool} : Effect (.eq a b) s (s.setEqf v)
  /-- the scalar parameters, in CONFIG mode -/
  | scalars {i : Instr} {s : State} {P : Params} {a b : Nat} (hi : i = .psettd a b ∨ i = .psetrnd a b)
      (hr : s.run = false) : Effect i s { s with P := P }
  /-- one round constant, in CONFIG mode -/
  | rc {s : State} {fs : Reg} {row col : Nat} (hr : s.run = false) (hc : col < Config.tmax) :
      Effect (.psetrc fs row col) s (s.setRc row col s.f[fs.val])
  /-- one diagonal entry, in CONFIG mode -/
  | dg {s : State} {fs : Reg} {col : Nat} (hr : s.run = false) (hc : col < Config.tmax) :
      Effect (.psetdg fs col) s (s.setDg col s.f[fs.val])
  /-- the change to RUN mode with a store that passes every check -/
  | commit {s : State} (hr : s.run = false) (hs : s.Committable) : Effect .pcommit s s.enterRun
  /-- one leaf -/
  | leaf {s : State} {fs : Reg} {idx : Nat} (hi : idx < Config.lmax) :
      Effect (.lwr fs idx) s (s.setLeaf idx s.f[fs.val])

section

variable {i : Instr} {s : State} {k : Result} {c : Cause} {bad : Bool}

theorem effect_raiseIf (hk : bad = false → OnNext (Effect i s) k) (hc : c ∈ causesOf i := by simp [causesOf]) :
    OnNext (Effect i s) (raiseIf bad i s c k) := onNext_raiseIf (fun _ => .raised hc) hk

theorem effect_inConfig (hk : s.run = false → OnNext (Effect i s) k)
    (hc : .paramsLocked ∈ causesOf i := by simp [causesOf]) : OnNext (Effect i s) (inConfig i s k) :=
  onNext_inConfig (fun _ => .raised hc) hk

theorem effect_inRun (hk : OnNext (Effect i s) k) (hc : .paramsNotCommitted ∈ causesOf i := by simp [causesOf]) :
    OnNext (Effect i s) (inRun i s k) := onNext_inRun (fun _ => .raised hc) fun _ => hk

end

/-- A command whose answer is one register write below p. -/
theorem effect_setReg {i : Instr} {s : State} {r : Reg} {n : Nat} (hr : destReg i = some r) (hn : n < Config.p) :
    OnNext (Effect i s) (.next (s.setReg r n)) := onNext_next (.reg hr fun _ => hn)

/-- A command whose answer is a write of all state elements below p. -/
theorem effect_setElems {i : Instr} {s : State} {ws : List Nat} (hi : writesElems i = true) (hl : ws.length = s.t)
    (hw : AllBelowP ws) : OnNext (Effect i s) (.next (s.setElems ws)) := onNext_next (.elems hi hl hw)

theorem leafAt_lt {s : State} (h : Store.BelowP s.leaf) (idx : Nat) : (s.leafAt idx).toNat < Config.p := by
  unfold State.leafAt Memory.read
  cases hg : Store.get? s.leaf idx with
  | none => exact p_pos
  | some w => exact h _ (Store.mem_of_get? hg)

theorem t_mem_of_widthStop {s : State} (h : s.widthStop = none) : s.t ∈ Config.tset := by
  unfold State.widthStop at h
  split_ifs at h with ht
  exact ht

theorem t_mem_of_permStop {s : State} (h : s.permStop = none) : s.t ∈ Config.tset := by
  cases hw : s.widthStop with
  | none => exact t_mem_of_widthStop hw
  | some e => simp [State.permStop, hw] at h

theorem commitFault_mem {s : State} {c : Cause} (h : s.commitFault = some c) : c ∈ causesOf .pcommit := by
  unfold State.commitFault at h
  split_ifs at h <;> cases h <;> simp [causesOf]

/-- PCOMMIT raises the first failed check, or enters RUN mode with a store that passes them all (42_params.md R165). -/
theorem effect_pcommit (s : State) : OnNext (Effect .pcommit s) (execPcommit s) := by
  refine effect_inConfig fun hr => ?_
  cases hc : s.commitFault with
  | some c => exact onNext_next (.raised (commitFault_mem hc))
  | none => exact onNext_next (.commit hr hc)

/-- Every next state of a command is one of its writes. -/
theorem exec_onNext_effect (i : Instr) (s : State) : OnNext (Effect i s) (exec i s) := by
  cases i with
  | nop => exact onNext_next .idle
  | ldc fd => exact effect_raiseIf fun _ => onNext_next (.load (.inl rfl) (mont_lt _))
  | ldr fd =>
    refine effect_raiseIf fun _ => effect_raiseIf fun hlt => ?_
    exact onNext_next (.load (.inr rfl) (by simpa using hlt))
  | stc fs => exact onNext_next (.dout (.inl rfl))
  | str fs => exact onNext_next (.dout (.inr rfl))
  | ldi fd imm => exact effect_setReg rfl (mont_lt _)
  | mov fd fs1 => exact onNext_next (.reg rfl fun hI => hI.regs fs1)
  | tomont fd fs1 => exact effect_setReg rfl (mont_lt _)
  | frommont fd fs1 => exact effect_setReg rfl (val_lt _)
  | add fd fs1 fs2 => exact effect_setReg rfl (fadd_lt _ _)
  | sub fd fs1 fs2 => exact effect_setReg rfl (fsub_lt _ _)
  | mul fd fs1 fs2 => exact effect_setReg rfl (montMul_lt _ _)
  | neg fd fs1 => exact effect_setReg rfl (fsub_lt _ _)
  | dbl fd fs1 => exact effect_setReg rfl (fdbl_lt _)
  | sqr fd fs1 => exact effect_setReg rfl (montMul_lt _ _)
  | inv fd fs1 => exact effect_raiseIf fun _ => effect_setReg rfl (mont_lt _)
  | eq fs1 fs2 => exact onNext_next .eqf
  | psettd t d => exact effect_inConfig fun hr => onNext_next (.scalars (.inl rfl) hr)
  | psetrnd a b => exact effect_inConfig fun hr => onNext_next (.scalars (.inr rfl) hr)
  | psetrc fs row col =>
    refine effect_inConfig fun hr => effect_raiseIf fun hc => ?_
    exact onNext_next (.rc hr (by simpa using hc))
  | psetdg fs col =>
    refine effect_inConfig fun hr => effect_raiseIf fun hc => ?_
    exact onNext_next (.dg hr (by simpa using hc))
  | pcommit => exact effect_pcommit s
  | arc row =>
    refine effect_inRun (effect_raiseIf fun _ => onNext_stopIf fun _ => ?_)
    exact effect_setElems rfl (by rw [List.length_mapIdx, length_elems]) (allBelowP_mapIdx (fun _ _ => fadd_lt _ _) _)
  | arcp row =>
    refine effect_inRun (effect_raiseIf fun _ => onNext_stopIf fun _ => ?_)
    exact effect_setReg rfl (fadd_lt _ _)
  | sbox fd fs1 =>
    exact effect_inRun (onNext_stopIf fun _ => effect_setReg rfl (mont_lt _))
  | sboxf =>
    refine effect_inRun (onNext_stopIf fun _ => ?_)
    exact effect_setElems rfl (by rw [List.length_map, length_elemVals]) (allBelowP_map (fun _ => mont_lt _) _)
  | mext =>
    refine effect_inRun (onNext_stopIf fun hw => ?_)
    refine effect_setElems rfl ?_ (allBelowP_map mont_lt _)
    rw [List.length_map, length_extLayer (t_mem_of_widthStop hw) (length_elemVals _ _)]
  | mint =>
    refine effect_inRun (onNext_stopIf fun _ => ?_)
    exact effect_setElems rfl (by rw [List.length_map, length_intLayer, length_elemVals]) (allBelowP_map mont_lt _)
  | perm w =>
    refine effect_inRun (effect_raiseIf fun _ => onNext_stopIf fun hp => ?_)
    refine effect_setElems rfl ?_ (allBelowP_map mont_lt _)
    rw [List.length_map]
    exact length_perm (c := s.permParams) (t_mem_of_permStop hp) (length_elemVals _ _)
  | cmpr fd fs1 fs2 =>
    refine effect_inRun (effect_raiseIf fun _ => onNext_stopIf fun _ => ?_)
    exact effect_setReg rfl (mont_lt _)
  | lwr fs idx => exact effect_raiseIf fun hi => onNext_next (.leaf (by simpa using hi))
  | lrd fd idx =>
    exact effect_raiseIf fun _ => onNext_next (.reg rfl fun hI => leafAt_lt hI.leafBelow idx)
  | accum fd n =>
    refine effect_inRun (effect_raiseIf fun _ => ?_)
    exact effect_raiseIf fun _ => onNext_stopIf fun _ => effect_setReg rfl (mont_lt _)

theorem exec_effect {i : Instr} {s t : State} (h : exec i s = .next t) : Effect i s t := exec_onNext_effect i s t h

end Sys2Proof.Machine
end
section
/-! The invariant, kept by each write of the state. -/

namespace Sys2Proof.Machine

theorem committable_congr {s t : State} (hP : t.P = s.P) (hrc : t.rc = s.rc) (hdg : t.dg = s.dg) (h : s.Committable) :
    t.Committable := by
  simpa only [committable_iff, rcShape_iff, dgShape_iff, State.rows, State.t, State.d, State.roundsF, State.roundsP,
    State.rcAt?, State.dgAt?, hP, hrc, hdg] using h

/-- The invariant speaks of neither the comparison flag, nor the chunk buffers, nor the host's side. -/
theorem Inv.keep_unread {s : State} (h : Inv s) (eqf : Bool) (din dout : Vector Word32 8) (dinm : BitVec 8)
    (inputs : List HostInput) (rdata : List Word32) :
    Inv { s with eqf := eqf, din := din, dinm := dinm, dout := dout, inputs := inputs, rdata := rdata } :=
  { h with runStore := fun hr => committable_congr rfl rfl rfl (h.runStore hr) }

/-- New registers that hold words below p. -/
theorem Inv.keep_regs {s : State} (h : Inv s) {f : Vector Word 32} (hf : State.RegsBelowP { s with f := f }) :
    Inv { s with f := f } :=
  { h with regs := hf, runStore := fun hr => committable_congr rfl rfl rfl (h.runStore hr) }

theorem Inv.keep_setReg {s : State} (h : Inv s) (r : Reg) {n : Nat} (hn : n < Config.p) : Inv (s.setReg r n) := by
  refine h.keep_regs fun r' => ?_
  by_cases hr : r' = r
  · exact hr ▸ (reg_setReg_self hn).symm ▸ hn
  · exact (reg_setReg_ne n hr).symm ▸ h.regs r'

theorem Inv.keep_setElems {s : State} (h : Inv s) {ws : List Nat} (hw : AllBelowP ws) : Inv (s.setElems ws) := by
  refine h.keep_regs fun r => ?_
  have hr := reg_setElems s ws r
  split at hr
  · next hlt => exact hr ▸ (Nat.mod_le _ _).trans_lt (hw _ (List.getElem_mem hlt))
  · exact hr ▸ h.regs r

theorem Inv.keep_raise {s : State} (h : Inv s) {c : Cause} (hc : c ∈ Cause.all) (w : Word32) : Inv (s.raise c w) :=
  { h with
    noFault := fun he => absurd he.symm Bool.false_ne_true
    faultCode := fun _ => ⟨c, hc, rfl⟩
    runStore := fun hr => committable_congr rfl rfl rfl (h.runStore hr) }

theorem Inv.keep_clearFault {s : State} (h : Inv s) : Inv s.clearFault :=
  { h with
    noFault := fun _ => ⟨rfl, rfl⟩
    faultCode := fun he => absurd he Bool.false_ne_true
    runStore := fun hr => committable_congr rfl rfl rfl (h.runStore hr) }

theorem Inv.keep_enterRun {s : State} (h : Inv s) (hs : s.Committable) : Inv s.enterRun :=
  { h with runStore := fun _ => committable_congr rfl rfl rfl hs }

theorem Inv.keep_scalars {s : State} (h : Inv s) (hr : s.run = false) (P : Params) : Inv { s with P := P } :=
  { h with runStore := fun ht => absurd (hr.symm.trans ht) Bool.false_ne_true }

theorem Store.below_put {m : Store} {w : Word} (k : Nat) (h : Store.BelowP m) (hw : w.toNat < Config.p) :
    Store.BelowP (Store.put m k w) := fun e he => by
  obtain rfl | hm := Store.mem_put he
  · exact hw
  · exact h e hm

theorem Store.within_put {m : Store} {size k : Nat} (w : Word) (h : Store.Within size m) (hk : k < size) :
    Store.Within size (Store.put m k w) := fun e he => by
  obtain rfl | hm := Store.mem_put he
  · exact hk
  · exact h e hm

theorem rcKey_lt {row col : Nat} (hr : row < Config.nrMax) (hc : col < Config.tmax) : rcKey row col < rcSize := by
  simp only [Config.nrMax, Config.tmax, rcKey, rcSize] at *
  omega

theorem Inv.keep_setRc {s : State} (h : Inv s) (hm : s.run = false) {row col : Nat} (hr : row < Config.nrMax)
    (hc : col < Config.tmax) {w : Word} (hw : w.toNat < Config.p) : Inv (s.setRc row col w) :=
  { h with
    rcBelow := Store.below_put _ h.rcBelow hw
    rcWf := Store.wf_put w h.rcWf
    rcWithin := Store.within_put w h.rcWithin (rcKey_lt hr hc)
    runStore := fun ht => absurd (hm.symm.trans ht) Bool.false_ne_true }

theorem Inv.keep_setDg {s : State} (h : Inv s) (hm : s.run = false) {col : Nat} (hc : col < Config.tmax) {w : Word}
    (hw : w.toNat < Config.p) : Inv (s.setDg col w) :=
  { h with
    dgBelow := Store.below_put _ h.dgBelow hw
    dgWf := Store.wf_put w h.dgWf
    dgWithin := Store.within_put w h.dgWithin hc
    runStore := fun ht => absurd (hm.symm.trans ht) Bool.false_ne_true }

theorem Inv.keep_setLeaf {s : State} (h : Inv s) {i : Nat} (hi : i < Config.lmax) {w : Word}
    (hw : w.toNat < Config.p) : Inv (s.setLeaf i w) :=
  { h with
    leafBelow := fun e he => by
      obtain rfl | hm := Memory.mem_write he
      · exact hw
      · exact h.leafBelow e hm
    leafWf := Memory.wf_write h.leafWf i w
    leafWithin := fun e he => by
      obtain rfl | hm := Memory.mem_write he
      · exact hi
      · exact h.leafWithin e hm
    runStore := fun hr => committable_congr rfl rfl rfl (h.runStore hr) }

theorem reg_reset (r : Reg) : State.reset.reg r = 0 := by simp [State.reg, State.reset]

theorem reset_inv : Inv State.reset where
  regs r := reg_reset r ▸ p_pos
  leafBelow _ he := absurd he List.not_mem_nil
  leafWf := Memory.wf_reset
  leafWithin _ he := absurd he List.not_mem_nil
  rcBelow _ he := absurd he List.not_mem_nil
  rcWf := rfl
  rcWithin _ he := absurd he List.not_mem_nil
  dgBelow _ he := absurd he List.not_mem_nil
  dgWf := rfl
  dgWithin _ he := absurd he List.not_mem_nil
  noFault _ := ⟨rfl, rfl⟩
  faultCode he := absurd he Bool.false_ne_true
  runStore hr := absurd hr Bool.false_ne_true

theorem inv_resetUnit (s : State) : Inv s.resetUnit :=
  reset_inv.keep_unread State.reset.eqf State.reset.din State.reset.dout State.reset.dinm s.inputs s.rdata

theorem mem_causes (c : Cause) : c ∈ Cause.all := by cases c <;> decide

/-- The row of a well-formed command's round constant exists (30_encoding.md R94, 10_state.md R38). -/
theorem row_lt_of_wellFormed {fs : Reg} {row col : Nat} (h : (Instr.psetrc fs row col).wellFormed = true) :
    row < Config.nrMax := by
  simp only [Instr.wellFormed, Bool.and_eq_true, decide_eq_true_eq] at h
  exact h.1

/-- Every write of a well-formed command keeps the invariant. -/
theorem Effect.keeps_inv {i : Instr} {s t : State} (he : Effect i s t) (hi : i.wellFormed = true) (h : Inv s) :
    Inv t := by
  cases he with
  | raised => exact h.keep_raise (mem_causes _) _
  | idle => exact h
  | reg _ hn => exact h.keep_setReg _ (hn h)
  | elems _ _ hw => exact h.keep_setElems hw
  | load _ hn => exact (h.keep_setReg _ hn).keep_unread s.eqf s.din s.dout 0 s.inputs s.rdata
  | dout => exact h.keep_unread s.eqf s.din _ s.dinm s.inputs s.rdata
  | eqf => exact h.keep_unread _ s.din s.dout s.dinm s.inputs s.rdata
  | scalars _ hr => exact h.keep_scalars hr _
  | rc hr hc => exact h.keep_setRc hr (row_lt_of_wellFormed hi) hc (h.regs _)
  | dg hr hc => exact h.keep_setDg hr hc (h.regs _)
  | commit _ hs => exact h.keep_enterRun hs
  | leaf hidx => exact h.keep_setLeaf hidx (h.regs _)

end Sys2Proof.Machine
end

section
/-! What one step can do, said once: `StepEffect s x t` lists what input `x` can make of the state `s` it is taken
from. -/

namespace Sys2Proof

/-- What holds of the command a row builds holds of what the row decodes to. -/
theorem accept_imp {Q : Instr → Prop} {m : Nat} {i j : Instr} (h : accept m i = .ok j) (hi : Q i) : Q j :=
  (accept_ok h).2 ▸ hi

/-- The numeric operands of a decoded command are cut from fields of their width (30_encoding.md R94). -/
theorem wellFormed_of_decode {w : Word32} {i : Instr} (h : decode w = .ok i) : i.wellFormed = true := by
  simp only [decode] at h
  split at h
  case h_34 => exact absurd h (by simp)
  all_goals
    exact accept_imp (Q := fun j => j.wellFormed = true) h (by simp [Instr.wellFormed, slice_lt, -Nat.reducePow])

end Sys2Proof

namespace Sys2Proof.Machine

/-- What the step of an input can do to the state from which it was taken. -/
inductive StepEffect (s : State) : HostInput → State → Prop where
  /-- a bus read -/
  | read {off n : Nat} : StepEffect s (.read off n) (memRead off s)
  /-- the hard reset -/
  | hardReset : StepEffect s .hardReset s.resetUnit
  /-- a CTRL write with SRST -/
  | srst {v : Word32} (hv : v.getLsbD 0 = true) : StepEffect s (.write 0x10 4 v) s.resetUnit
  /-- a CTRL write with ERRCLR -/
  | errclr {v : Word32} (hv : v.getLsbD 1 = true) : StepEffect s (.write 0x10 4 v) s.clearFault
  /-- a CMD write of a command, without a pending fault -/
  | command {w : Word32} {i : Instr} {t : State} (he : s.err = false) (hd : decode w = .ok i) (h : Effect i s t) :
      StepEffect s (.write 0x18 4 w) t
  /-- a CMD write of an illegal word, without a pending fault -/
  | illegal {w : Word32} (he : s.err = false) : StepEffect s (.write 0x18 4 w) (s.raise .illegalCommand w)
  /-- a DIN write -/
  | din {off n : Nat} {v : Word32} (k : Fin 8) : StepEffect s (.write off n v) (writeDin k v s)
  /-- a write without an effect -/
  | ignored {off n : Nat} {v : Word32} : StepEffect s (.write off n v) s

theorem transaction_next {off n : Nat} {k : Result} {t : State} (h : transaction off n k = .next t) :
    n = 4 ∧ k = .next t := by
  unfold transaction accessRefusal at h
  split_ifs at h with hn
  exact ⟨not_not.mp hn, h⟩

/-- An aligned access of 4 bytes inside the window is a transaction (20_memory.md R67, R68). -/
theorem transaction_answers {off : Nat} {k : Result} (ha : off % 4 = 0) (hl : off < 256) (hk : Answers k) :
    Answers (transaction off 4 k) := by
  have hw : ¬ Config.windowBytes ≤ off := by simpa [Config.windowBytes] using hl
  simpa [transaction, accessRefusal, ha, hw] using hk

theorem busReg_eq_ctrl {off : Nat} (h : busReg off = .ctrl) : off = 0x10 := by
  unfold busReg at h
  split_ifs at h
  assumption

theorem busReg_eq_cmd {off : Nat} (h : busReg off = .cmd) : off = 0x18 := by
  unfold busReg at h
  split_ifs at h
  assumption

theorem stepEffect_writeCtrl (v : Word32) (s : State) : StepEffect s (.write 0x10 4 v) (writeCtrl v s) := by
  unfold writeCtrl
  split_ifs with h0 h1
  · exact .srst h0
  · exact .errclr h1
  · exact .ignored

theorem stepEffect_writeCmd (w : Word32) (s : State) : OnNext (StepEffect s (.write 0x18 4 w)) (writeCmd w s) := by
  unfold writeCmd execute
  split_ifs with he
  · exact onNext_next .ignored
  · have he' : s.err = false := by simpa using he
    cases hd : decode w with
    | ok i => exact fun t h => .command he' hd (exec_effect h)
    | error _ => exact onNext_next (.illegal he')

theorem stepEffect_memWrite (off : Nat) (v : Word32) (s : State) :
    OnNext (StepEffect s (.write off 4 v)) (memWrite off v s) := by
  unfold memWrite
  cases hb : busReg off with
  | ctrl => exact busReg_eq_ctrl hb ▸ onNext_next (stepEffect_writeCtrl v s)
  | cmd => exact busReg_eq_cmd hb ▸ stepEffect_writeCmd v s
  | din k => exact onNext_next (.din k)
  | _ => exact onNext_next .ignored

theorem busStep_effect (x : HostInput) (s : State) : OnNext (StepEffect s x) (busStep x s) := fun t h => by
  cases x with
  | read off n => exact onNext_next .read t (transaction_next h).2
  | write off n v =>
    obtain ⟨rfl, hw⟩ := transaction_next h
    exact stepEffect_memWrite off v s t hw
  | hardReset => exact onNext_next .hardReset t h

theorem step_cons {s : State} {x : HostInput} {rest : List HostInput} (h : s.inputs = x :: rest) :
    step s = busStep x { s with inputs := rest } := by
  simp only [step, nextInput, h]

theorem step_nil {s : State} (h : s.inputs = []) : step s = .next s := by
  simp only [step, nextInput, h]

theorem step_effect {s t : State} {x : HostInput} {rest : List HostInput} (hx : s.inputs = x :: rest)
    (h : step s = .next t) : StepEffect { s with inputs := rest } x t :=
  busStep_effect x _ t (step_cons hx ▸ h)

theorem StepEffect.keeps_inv {s t : State} {x : HostInput} (he : StepEffect s x t) (h : Inv s) : Inv t := by
  cases he with
  | read => exact h.keep_unread s.eqf s.din s.dout s.dinm s.inputs _
  | hardReset => exact inv_resetUnit s
  | srst => exact inv_resetUnit s
  | errclr => exact h.keep_clearFault
  | command _ hd hi => exact hi.keeps_inv (wellFormed_of_decode hd) h
  | illegal => exact h.keep_raise (mem_causes _) _
  | din => exact h.keep_unread s.eqf _ s.dout _ s.inputs s.rdata
  | ignored => exact h

theorem Inv.take_input {s : State} (h : Inv s) (rest : List HostInput) : Inv { s with inputs := rest } :=
  h.keep_unread s.eqf s.din s.dout s.dinm rest s.rdata

/-- Settles O23: a step is idle, or one of the effects of its input, each of which keeps the invariant. -/
theorem everyStepKeepsTheInvariant : Obligations.EveryStepKeepsTheInvariant := by
  intro s t h hst
  cases hx : s.inputs with
  | nil =>
    obtain rfl := Host.Outcome.next.inj ((step_nil hx).symm.trans hst)
    exact h
  | cons x rest => exact (step_effect hx hst).keeps_inv (h.take_input rest)

end Sys2Proof.Machine
end
section
/-! Which write touches which piece of state. -/

namespace Sys2Proof.Machine

section

variable {i : Instr} {s t : State}

theorem Effect.din_eq (h : Effect i s t) : t.din = s.din := by cases h <;> rfl

theorem Effect.inputs_eq (h : Effect i s t) : t.inputs = s.inputs := by cases h <;> rfl

theorem Effect.rdata_eq (h : Effect i s t) : t.rdata = s.rdata := by cases h <;> rfl

/-- Every state element of the width is among the registers below it (10_state.md R26). -/
theorem Effect.reg_ne (h : Effect i s t) {r : Reg} (hne : t.reg r ≠ s.reg r) :
    destReg i = some r ∨ (writesElems i = true ∧ r.val < s.t) := by
  cases h with
  | @reg _ _ fd n hd =>
    have hr : r = fd := by_contra fun hr => hne (reg_setReg_ne n hr)
    exact .inl (hr ▸ hd)
  | @load _ _ fd n hi =>
    have hr : r = fd := by_contra fun hr => hne (reg_setReg_ne n hr)
    obtain rfl | rfl := hi <;> exact .inl (hr ▸ rfl)
  | elems hi hl => exact .inr ⟨hi, by_contra fun hr => hne ((onlyElems_setElems s _).1 r (by omega))⟩
  | _ => exact absurd rfl hne

theorem Effect.raises_of_ne (h : Effect i s t)
    (hne : t.err ≠ s.err ∨ t.errcode ≠ s.errcode ∨ t.errcmd ≠ s.errcmd) :
    ∃ c ∈ causesOf i, Raises c (encode i) s t := by
  cases h with
  | raised hc => exact ⟨_, hc, raises_raise _ _ _⟩
  | _ => simp at hne

theorem Effect.eqf_ne (h : Effect i s t) (hne : t.eqf ≠ s.eqf) : ∃ a b, i = .eq a b := by
  cases h with
  | eqf => exact ⟨_, _, rfl⟩
  | _ => exact absurd rfl hne

theorem Effect.run_ne (h : Effect i s t) (hne : t.run ≠ s.run) : i = .pcommit ∧ t.run = true := by
  cases h with
  | commit => exact ⟨rfl, rfl⟩
  | _ => exact absurd rfl hne

theorem Effect.leaf_ne (h : Effect i s t) (hne : t.leaf ≠ s.leaf) : ∃ fs idx, i = .lwr fs idx := by
  cases h with
  | leaf => exact ⟨_, _, rfl⟩
  | _ => exact absurd rfl hne

theorem Effect.rc_ne (h : Effect i s t) (hne : t.rc ≠ s.rc) : ∃ fs row col, i = .psetrc fs row col := by
  cases h with
  | rc => exact ⟨_, _, _, rfl⟩
  | _ => exact absurd rfl hne

theorem Effect.dg_ne (h : Effect i s t) (hne : t.dg ≠ s.dg) : ∃ fs col, i = .psetdg fs col := by
  cases h with
  | dg => exact ⟨_, _, rfl⟩
  | _ => exact absurd rfl hne

theorem Effect.scalars_ne (h : Effect i s t) (hne : t.P ≠ s.P) :
    (∃ a d, i = .psettd a d) ∨ ∃ a b, i = .psetrnd a b := by
  cases h with
  | scalars hi => exact hi.imp (fun h => ⟨_, _, h⟩) fun h => ⟨_, _, h⟩
  | _ => exact absurd rfl hne

theorem Effect.dinm_ne (h : Effect i s t) (hne : t.dinm ≠ s.dinm) :
    t.dinm = 0 ∧ ((∃ fd, i = .ldc fd) ∨ ∃ fd, i = .ldr fd) := by
  cases h with
  | load hi => exact ⟨rfl, hi.imp (fun h => ⟨_, h⟩) fun h => ⟨_, h⟩⟩
  | _ => exact absurd rfl hne

theorem Effect.dout_ne (h : Effect i s t) (hne : t.dout ≠ s.dout) : (∃ fs, i = .stc fs) ∨ ∃ fs, i = .str fs := by
  cases h with
  | dout hi => exact hi.imp (fun h => ⟨_, h⟩) fun h => ⟨_, h⟩
  | _ => exact absurd rfl hne

/-- RUN mode freezes the parameter store (10_state.md R41). -/
theorem Effect.frozen (h : Effect i s t) (hr : s.run = true) :
    t.P = s.P ∧ t.rc = s.rc ∧ t.dg = s.dg ∧ t.run = true := by
  cases h with
  | scalars _ hc | rc hc | dg hc | commit hc => exact absurd (hc.symm.trans hr) Bool.false_ne_true
  | _ => exact ⟨rfl, rfl, rfl, hr⟩

theorem get?_of_put_none {m : Store} {k j : Nat} {w : Word} (h : Store.get? (Store.put m k w) j = none) :
    Store.get? m j = none := by
  rw [Store.get?_put] at h
  split_ifs at h
  exact h

/-- A round constant that is unwritten after a command was unwritten before it (10_state.md R40). -/
theorem Effect.rcAt?_none (h : Effect i s t) {r c : Nat} (hn : t.rcAt? r c = none) : s.rcAt? r c = none := by
  cases h with
  | rc =>
    unfold State.rcAt? at hn ⊢
    split_ifs at hn ⊢
    · exact get?_of_put_none hn
    · rfl
  | _ => exact hn

/-- A diagonal entry that is unwritten after a command was unwritten before it (10_state.md R40). -/
theorem Effect.dgAt?_none (h : Effect i s t) {c : Nat} (hn : t.dgAt? c = none) : s.dgAt? c = none := by
  cases h with
  | dg =>
    unfold State.dgAt? at hn ⊢
    split_ifs at hn ⊢
    · exact get?_of_put_none hn
    · rfl
  | _ => exact hn

end

/-- Settles O27: the writers of each piece of state are read off the writes of a command. -/
theorem eachStoreHasItsOnlyWriters : Obligations.EachStoreHasItsOnlyWriters := by
  intro i s t h
  have he := exec_effect h
  exact ⟨he.din_eq, he.inputs_eq, he.rdata_eq, fun r => he.reg_ne, he.raises_of_ne, he.eqf_ne, he.run_ne, he.leaf_ne,
    he.rc_ne, he.dg_ne, he.scalars_ne, he.dinm_ne, he.dout_ne⟩

/-- The input resets the unit: the hard reset, or a CTRL write with SRST (70_reset_and_hazards.md R280, R282). -/
def IsReset (x : HostInput) : Prop := x = .hardReset ∨ ∃ v : Word32, x = .write 0x10 4 v ∧ v.getLsbD 0 = true

section

variable {s t : State} {x : HostInput}

/-- Without a reset, a step leaves the parameter store of RUN mode as it is (10_state.md R41). -/
theorem StepEffect.frozen (h : StepEffect s x t) (hx : ¬ IsReset x) (hr : s.run = true) :
    t.P = s.P ∧ t.rc = s.rc ∧ t.dg = s.dg ∧ t.run = true := by
  cases h with
  | hardReset => exact absurd (.inl rfl) hx
  | srst hv => exact absurd (.inr ⟨_, rfl, hv⟩) hx
  | command _ _ he => exact he.frozen hr
  | _ => exact ⟨rfl, rfl, rfl, hr⟩

/-- Without a reset, a constant that is unwritten after a step was unwritten before it (10_state.md R40). -/
theorem StepEffect.unwritten_before (h : StepEffect s x t) (hx : ¬ IsReset x) :
    (∀ r c, t.rcAt? r c = none → s.rcAt? r c = none) ∧ ∀ c, t.dgAt? c = none → s.dgAt? c = none := by
  cases h with
  | hardReset => exact absurd (.inl rfl) hx
  | srst hv => exact absurd (.inr ⟨_, rfl, hv⟩) hx
  | command _ _ he => exact ⟨fun _ _ => he.rcAt?_none, fun _ => he.dgAt?_none⟩
  | _ => exact ⟨fun _ _ => id, fun _ => id⟩

theorem StepEffect.err_falls (h : StepEffect s x t) (hs : s.err = true) (ht : t.err = false) :
    x = .hardReset ∨ ∃ v : Word32, x = .write 0x10 4 v ∧ (v.getLsbD 0 = true ∨ v.getLsbD 1 = true) := by
  cases h with
  | hardReset => exact .inl rfl
  | srst hv => exact .inr ⟨_, rfl, .inl hv⟩
  | errclr hv => exact .inr ⟨_, rfl, .inr hv⟩
  | command he | illegal he => exact absurd (he.symm.trans hs) Bool.false_ne_true
  | _ => exact absurd (ht.symm.trans hs) Bool.false_ne_true

theorem StepEffect.err_rises (h : StepEffect s x t) (hs : s.err = false) (ht : t.err = true) :
    ∃ w, x = .write 0x18 4 w := by
  cases h with
  | command | illegal => exact ⟨_, rfl⟩
  | hardReset | srst | errclr => exact absurd ht Bool.false_ne_true
  | _ => exact absurd (hs.symm.trans ht) Bool.false_ne_true

/-- A pending fault keeps its first cause (60_exceptions.md R245). -/
theorem StepEffect.fault_kept (h : StepEffect s x t) (hs : s.err = true) (ht : t.err = true) :
    t.errcode = s.errcode ∧ t.errcmd = s.errcmd := by
  cases h with
  | command he | illegal he => exact absurd (he.symm.trans hs) Bool.false_ne_true
  | hardReset | srst | errclr => exact absurd ht Bool.false_ne_true
  | _ => exact ⟨rfl, rfl⟩

end

/-- A parameter command in RUN mode raises ParamsLocked (60_exceptions.md R248, R252). -/
theorem faultsWith_paramsLocked {i : Instr} {s : State} (hi : needsConfig i = true) (hr : s.run = true) :
    FaultsWith i s .paramsLocked := by
  have locked : ∀ k, inConfig i s k = .next (s.raise .paramsLocked (encode i)) := fun k => by
    rw [inConfig_eq, if_pos hr]
  cases i with
  | psettd | psetrnd | psetrc | psetdg | pcommit => exact ⟨_, locked _, raises_raise _ _ _⟩
  | _ => exact absurd hi Bool.false_ne_true

/-- Settles O25: the writes to the parameter store need CONFIG mode, and only a reset leaves RUN mode. -/
theorem runModeFreezesTheParameters : Obligations.RunModeFreezesTheParameters := by
  refine ⟨fun i s t hr h => (exec_effect h).frozen hr, fun i s => faultsWith_paramsLocked, ?_⟩
  intro s t x rest hx hst hr hch
  by_contra hreset
  obtain ⟨hP, hrc, hdg, hrun⟩ := (step_effect hx hst).frozen hreset hr
  obtain h | h | h | h := hch
  · exact absurd (h.symm.trans hrun) Bool.false_ne_true
  · exact h hP
  · exact h hrc
  · exact h hdg

/-- Settles O26: every write to a constant store leaves what was written written. -/
theorem onlyResetUnwritesAConstant : Obligations.OnlyResetUnwritesAConstant := by
  intro s t x rest hx hst hch
  by_contra hreset
  obtain ⟨hrc, hdg⟩ := (step_effect hx hst).unwritten_before hreset
  obtain ⟨r, c, hw, hn⟩ | ⟨c, hw, hn⟩ := hch
  · exact absurd (hrc r c hn) (Option.isSome_iff_ne_none.mp hw)
  · exact absurd (hdg c hn) (Option.isSome_iff_ne_none.mp hw)

/-- Settles O28: a CMD write runs only while ERR is 0, and of the other inputs only resets and ERRCLR touch the fault
registers. -/
theorem theFaultFlagHasItsOnlyWriters : Obligations.TheFaultFlagHasItsOnlyWriters := by
  intro s t x rest hx hst
  have h := step_effect hx hst
  exact ⟨h.err_falls, h.err_rises, h.fault_kept⟩

end Sys2Proof.Machine
end

section
/-! Under the invariant no stop of the model is taken. -/

namespace Sys2Proof.Machine

theorem exec_answers {s : State} (h : Inv s) (i : Instr) : Answers (exec i s) := by
  cases i with
  | nop | stc | str | ldi | mov | tomont | frommont | add | sub | mul | neg | dbl | sqr | eq => exact answers_next _
  | ldc | inv | lwr | lrd => exact answers_raiseIf fun _ => answers_next _
  | ldr => exact answers_raiseIf fun _ => answers_raiseIf fun _ => answers_next _
  | psettd | psetrnd => exact answers_inConfig fun _ => answers_next _
  | psetrc | psetdg => exact answers_inConfig fun _ => answers_raiseIf fun _ => answers_next _
  | pcommit =>
    refine answers_inConfig fun _ => ?_
    cases s.commitFault <;> exact answers_next _
  | arc row =>
    refine answers_inRun fun hr => answers_raiseIf fun hrow => ?_
    exact answers_stopIf (rowStop_none (h.runStore hr) (by simpa using hrow) le_rfl) (answers_next _)
  | arcp row =>
    refine answers_inRun fun hr => answers_raiseIf fun hrow => ?_
    have hc := h.runStore hr
    have ht := (t_le_tmax ((committable_iff s).mp hc).1).1
    exact answers_stopIf (rowStop_none hc (by simpa using hrow) ht) (answers_next _)
  | sbox | sboxf => exact answers_inRun fun hr => answers_stopIf (degreeStop_none (h.runStore hr)) (answers_next _)
  | mext => exact answers_inRun fun hr => answers_stopIf (widthStop_none (h.runStore hr)) (answers_next _)
  | mint =>
    refine answers_inRun fun hr => answers_stopIf ?_ (answers_next _)
    rw [widthStop_none (h.runStore hr), diagStop_none (h.runStore hr)]
    rfl
  | perm | cmpr =>
    refine answers_inRun fun hr => answers_raiseIf fun _ => ?_
    exact answers_stopIf (permStop_none (h.runStore hr)) (answers_next _)
  | accum =>
    refine answers_inRun fun hr => answers_raiseIf fun _ => answers_raiseIf fun _ => ?_
    exact answers_stopIf (permStop_none (h.runStore hr)) (answers_next _)

theorem writeCmd_answers {s : State} (h : Inv s) (w : Word32) : Answers (writeCmd w s) := by
  unfold writeCmd execute
  split
  · exact answers_next _
  · split
    · exact exec_answers h _
    · exact answers_next _

theorem memWrite_answers {s : State} (h : Inv s) (off : Nat) (v : Word32) : Answers (memWrite off v s) := by
  unfold memWrite
  split
  case h_2 => exact writeCmd_answers h v
  all_goals exact answers_next _

/-- No input's effect touches the inputs that follow it (log entry 1). -/
theorem StepEffect.inputs_eq {s t : State} {x : HostInput} (h : StepEffect s x t) : t.inputs = s.inputs := by
  cases h with
  | command _ _ he => exact he.inputs_eq
  | _ => rfl

/-- Settles O24: a committed store passes every check the model would stop at, and only accesses that are no transaction
are refused. -/
theorem noCommandStopsUnderTheInvariant : Obligations.NoCommandStopsUnderTheInvariant := by
  refine ⟨fun s h i => exec_answers h i, fun s x rest h hx hread hwrite => ?_⟩
  have answers : Answers (busStep x { s with inputs := rest }) := by
    cases x with
    | read off n =>
      obtain ⟨rfl, ha, hl⟩ := hread off n rfl
      exact transaction_answers ha hl (answers_next _)
    | write off n v =>
      obtain ⟨rfl, ha, hl⟩ := hwrite off n v rfl
      exact transaction_answers ha hl (memWrite_answers (h.take_input rest) off v)
    | hardReset => exact answers_next _
  obtain ⟨t, ht⟩ := answers
  exact ⟨t, (step_cons hx).trans ht, (busStep_effect x _ t ht).inputs_eq⟩

end Sys2Proof.Machine
end

section
/-! Two runs that differ in `EQF`, `DOUT` and the host's side only. -/

namespace Sys2Proof.Machine

/-- The state with another comparison flag, another output chunk and another host's side. -/
def State.withUnread (s : State) (b : Bool) (d : Vector Word32 8) (xs : List HostInput) (rs : List Word32) : State :=
  { s with eqf := b, dout := d, inputs := xs, rdata := rs }

/-- A result with its next state changed. -/
def mapNext (g : State → State) : Result → Result
  | .next t => .next (g t)
  | .fault e => .fault e
  | .refused e => .refused e

/-- `EQF` after command `i`: what EQ wrote into `t`, else as given. -/
def eqfAfter (i : Instr) (t : State) (b : Bool) : Bool :=
  match i with
  | .eq _ _ => t.eqf
  | _ => b

/-- `DOUT` after command `i`: what STC or STR wrote into `t`, else as given. -/
def doutAfter (i : Instr) (t : State) (d : Vector Word32 8) : Vector Word32 8 :=
  match i with
  | .stc _ => t.dout
  | .str _ => t.dout
  | _ => d

theorem eqfAfter_eq {i : Instr} (t : State) (b : Bool) (h : ∃ x y, i = .eq x y) : eqfAfter i t b = t.eqf := by
  obtain ⟨x, y, rfl⟩ := h
  rfl

theorem eqfAfter_of_ne {i : Instr} (t : State) (b : Bool) (h : ∀ x y, i ≠ .eq x y) : eqfAfter i t b = b := by
  cases i with
  | eq x y => exact absurd rfl (h x y)
  | _ => rfl

theorem doutAfter_eq {i : Instr} (t : State) (d : Vector Word32 8) (h : (∃ fs, i = .stc fs) ∨ ∃ fs, i = .str fs) :
    doutAfter i t d = t.dout := by
  obtain ⟨fs, rfl⟩ | ⟨fs, rfl⟩ := h <;> rfl

theorem doutAfter_of_ne {i : Instr} (t : State) (d : Vector Word32 8) (hc : ∀ fs, i ≠ .stc fs)
    (hr : ∀ fs, i ≠ .str fs) : doutAfter i t d = d := by
  cases i with
  | stc fs => exact absurd rfl (hc fs)
  | str fs => exact absurd rfl (hr fs)
  | _ => rfl

section

variable {i : Instr} {s : State} {b : Bool} {d : Vector Word32 8} {xs : List HostInput} {rs : List Word32}
  {k k' : Result} {c : Cause} {bad : Bool} {g : Option Fault}

/-! Each check, on the changed state, answers the changed answer. -/

theorem raiseIf_withUnread (hk : k' = mapNext (·.withUnread b d xs rs) k) :
    raiseIf bad i (s.withUnread b d xs rs) c k' = mapNext (·.withUnread b d xs rs) (raiseIf bad i s c k) := by
  cases bad with
  | true => rfl
  | false => exact hk

theorem inConfig_withUnread (hk : k' = mapNext (·.withUnread b d xs rs) k) :
    inConfig i (s.withUnread b d xs rs) k' = mapNext (·.withUnread b d xs rs) (inConfig i s k) :=
  raiseIf_withUnread (bad := s.run) hk

theorem inRun_withUnread (hk : k' = mapNext (·.withUnread b d xs rs) k) :
    inRun i (s.withUnread b d xs rs) k' = mapNext (·.withUnread b d xs rs) (inRun i s k) := by
  have hr : (s.withUnread b d xs rs).run = s.run := rfl
  rw [inRun_eq, inRun_eq, hr, hk]
  split <;> rfl

theorem stopIf_withUnread (hk : k' = mapNext (·.withUnread b d xs rs) k) :
    stopIf g k' = mapNext (·.withUnread b d xs rs) (stopIf g k) := by
  cases g with
  | none => exact hk
  | some _ => rfl

end

/-- A command on the changed state answers the changed answer, but for what the command itself writes there. -/
theorem exec_withUnread (i : Instr) (s : State) (b : Bool) (d : Vector Word32 8) (xs : List HostInput)
    (rs : List Word32) : exec i (s.withUnread b d xs rs) =
      mapNext (fun t => t.withUnread (eqfAfter i t b) (doutAfter i t d) xs rs) (exec i s) := by
  cases i with
  | nop | stc | str | ldi | mov | tomont | frommont | add | sub | mul | neg | dbl | sqr | eq => rfl
  | ldc | inv | lwr | lrd => exact raiseIf_withUnread rfl
  | ldr => exact raiseIf_withUnread (raiseIf_withUnread rfl)
  | psettd | psetrnd => exact inConfig_withUnread rfl
  | psetrc | psetdg => exact inConfig_withUnread (raiseIf_withUnread rfl)
  | pcommit =>
    refine inConfig_withUnread ?_
    have hc : (s.withUnread b d xs rs).commitFault = s.commitFault := rfl
    rw [hc]
    cases s.commitFault <;> rfl
  | sbox | sboxf | mext | mint => exact inRun_withUnread (stopIf_withUnread rfl)
  | arc | arcp | perm | cmpr => exact inRun_withUnread (raiseIf_withUnread (stopIf_withUnread rfl))
  | accum => exact inRun_withUnread (raiseIf_withUnread (raiseIf_withUnread (stopIf_withUnread rfl)))

/-- Settles O29: no check and no result reads the changed fields. -/
theorem noCommandReadsEqfDoutOrTheHostSide : Obligations.NoCommandReadsEqfDoutOrTheHostSide := by
  intro i s t b d xs rs h
  have hu := exec_withUnread i s b d xs rs
  rw [h] at hu
  exact ⟨_, hu, rfl, rfl, eqfAfter_eq t b, eqfAfter_of_ne t b, doutAfter_eq t d, doutAfter_of_ne t d, rfl⟩

end Sys2Proof.Machine
end

section
/-! The reset state and the layouts of the status registers. -/

namespace Sys2Proof.Machine

/-- Settles O22: the registers are 0, the stores are empty, and there is neither a fault nor RUN mode. -/
theorem resetMeetsTheInvariant : Obligations.ResetMeetsTheInvariant := reset_inv

theorem rcAt?_reset (r c : Nat) : State.reset.rcAt? r c = none := ite_self none

theorem dgAt?_reset (c : Nat) : State.reset.dgAt? c = none := ite_self none

/-- Settles O14: the registers, stores and buffers entry by entry, the rest by evaluation. -/
theorem resetStateIsTheTable : Obligations.ResetStateIsTheTable :=
  ⟨reg_reset, rfl, rfl, rfl, by decide, rfl, rfl, rfl, by decide, rcAt?_reset, dgAt?_reset, fun _ => rfl,
    fun k => by simp [State.reset], rfl, fun k => by simp [State.reset], rfl⟩

/-- Putting bits below others adds. -/
theorem toNat_append_eq_add {m n : Nat} (x : BitVec m) (y : BitVec n) :
    (x ++ y).toNat = 2 ^ n * x.toNat + y.toNat := by
  rw [BitVec.toNat_append, ← Nat.shiftLeft_add_eq_or_of_lt y.isLt, Nat.shiftLeft_eq, Nat.mul_comm]

theorem statusWord_toNat (s : State) : s.statusWord.toNat =
    (if s.err then 1 else 0) + (if s.run then 2 else 0) + (if s.eqf then 4 else 0) + 2 ^ 8 * s.dinm.toNat := by
  simp only [State.statusWord, toNat_append_eq_add, BitVec.toNat_ofBool, BitVec.toNat_ofNat]
  cases s.err <;> cases s.run <;> cases s.eqf <;> simp <;> omega

theorem pcfgWord_toNat (s : State) : s.pcfgWord.toNat =
    s.P.t.toNat + 2 ^ 8 * s.P.d.toNat + 2 ^ 16 * s.P.roundsF.toNat + 2 ^ 24 * s.P.roundsP.toNat := by
  simp only [State.pcfgWord, toNat_append_eq_add, BitVec.toNat_ofNat]
  omega

/-- Settles O21: each field's place is the sum of the widths of the fields below it. -/
theorem statusAndPcfgLayouts : Obligations.StatusAndPcfgLayouts := ⟨statusWord_toNat, pcfgWord_toNat⟩

end Sys2Proof.Machine
end

section
/-! One bus access, said once per register of the address map (20_memory.md R62 to R64), and the accesses that are none
(R68). -/

namespace Sys2Proof.Machine

theorem transaction_eq {off : Nat} (ha : off % 4 = 0) (hl : off < 256) (k : Result) : transaction off 4 k = k := by
  have hw : ¬ Config.windowBytes ≤ off := not_le.mpr hl
  simp [transaction, accessRefusal, ha, hw]

theorem transaction_refused {off n : Nat} (h : n ≠ 4 ∨ off % 4 ≠ 0 ∨ 256 ≤ off) (k : Result) :
    ∃ r, transaction off n k = .refused r := by
  unfold transaction accessRefusal
  split_ifs with hn hw ha
  · exact ⟨_, rfl⟩
  · exact ⟨_, rfl⟩
  · exact ⟨_, rfl⟩
  · exact absurd h (by simp_all [Config.windowBytes])

theorem busStep_read {off : Nat} (ha : off % 4 = 0) (hl : off < 256) (s : State) :
    busStep (.read off 4) s = .next (memRead off s) := transaction_eq ha hl _

theorem busStep_write {off : Nat} (ha : off % 4 = 0) (hl : off < 256) (v : Word32) (s : State) :
    busStep (.write off 4 v) s = memWrite off v s := transaction_eq ha hl _

/- The address map, where `Machine/Bus.lean` computes an index or takes a range. -/

theorem busReg_din (k : Fin 8) : busReg (0x20 + 4 * k.val) = .din k := by
  revert k; decide

theorem busReg_dout (k : Fin 8) : busReg (0x40 + 4 * k.val) = .dout k := by
  revert k; decide

theorem busReg_above {off : Nat} (h : 0x60 ≤ off) : busReg off = .reserved := by
  unfold busReg
  iterate 9 rw [if_neg (by omega)]

theorem busReg_eq_din {off : Nat} {k : Fin 8} (h : busReg off = .din k) : 0x20 ≤ off ∧ off ≤ 0x3C := by
  unfold busReg at h
  split_ifs at h
  assumption

theorem errcodeWord_toNat (s : State) : s.errcodeWord.toNat = s.errcode.toNat := by
  simp only [State.errcodeWord, toNat_append_eq_add, BitVec.toNat_ofNat]
  omega

/-- CTRL, CMD and the reserved offsets read as 0 (20_memory.md R63). -/
theorem busValue_unreadable (s : State) {off : Nat} (h : off = 0x10 ∨ off = 0x18 ∨ off = 0x1C ∨ 0x60 ≤ off) :
    s.busValue (busReg off) = 0 := by
  obtain rfl | rfl | rfl | h := h
  · rfl
  · rfl
  · rfl
  · rw [busReg_above h]
    rfl

/- A write, by the register it names. -/

theorem memWrite_din (k : Fin 8) (v : Word32) (s : State) :
    memWrite (0x20 + 4 * k.val) v s = .next (writeDin k v s) := by
  simp only [memWrite, busReg_din]

theorem memWrite_ignored {off : Nat} (hctrl : off ≠ 0x10) (hcmd : off ≠ 0x18) (hdin : off < 0x20 ∨ 0x3C < off)
    (v : Word32) (s : State) : memWrite off v s = .next s := by
  unfold memWrite
  cases hb : busReg off with
  | ctrl => exact absurd (busReg_eq_ctrl hb) hctrl
  | cmd => exact absurd (busReg_eq_cmd hb) hcmd
  | din k => obtain ⟨hlo, hhi⟩ := busReg_eq_din hb; omega
  | _ => rfl

theorem writeCtrl_srst {v : Word32} (h : v.getLsbD 0 = true) (s : State) : writeCtrl v s = s.resetUnit := if_pos h

theorem writeCtrl_errclr {v : Word32} (h0 : v.getLsbD 0 = false) (h1 : v.getLsbD 1 = true) (s : State) :
    writeCtrl v s = s.clearFault := by
  simp only [writeCtrl, h0, h1, Bool.false_eq_true, if_true, if_false]

theorem writeCtrl_neither {v : Word32} (h0 : v.getLsbD 0 = false) (h1 : v.getLsbD 1 = false) (s : State) :
    writeCtrl v s = s := by
  simp only [writeCtrl, h0, h1, Bool.false_eq_true, if_false]

theorem writeCmd_execute {s : State} (h : s.err = false) (w : Word32) : writeCmd w s = execute w s := by
  simp [writeCmd, h]

theorem writeCmd_dropped {s : State} (h : s.err = true) (w : Word32) : writeCmd w s = .next s := if_pos h

theorem execute_command {w : Word32} {i : Instr} (h : decode w = .ok i) (s : State) : execute w s = exec i s := by
  simp only [execute, h]

theorem execute_illegal {w : Word32} (h : ∀ i, decode w ≠ .ok i) (s : State) :
    execute w s = .next (s.raise .illegalCommand w) := by
  unfold execute
  cases hd : decode w with
  | ok i => exact absurd hd (h i)
  | error _ => rfl

theorem step_writeCmd {s : State} {w : Word32} {rest : List HostInput} (h : s.inputs = .write 0x18 4 w :: rest) :
    step s = writeCmd w { s with inputs := rest } :=
  (step_cons h).trans (busStep_write rfl (by decide) w _)

/-- A DIN write sets its own mask bit and no other (10_state.md R44). -/
theorem writeDin_dinm_bit (k j : Fin 8) (v : Word32) (s : State) :
    (writeDin k v s).dinm.getLsbD j.val = (decide (j = k) || s.dinm.getLsbD j.val) := by
  simp only [writeDin_dinm, BitVec.getLsbD_or, BitVec.getLsbD_ofNat, Nat.testBit_two_pow, j.isLt, decide_true,
    Bool.true_and, Fin.ext_iff, eq_comm (a := k.val), Bool.or_comm]

theorem writeDin_din_entry (k j : Fin 8) (v : Word32) (s : State) :
    (writeDin k v s).din[j.val] = if j = k then v else s.din[j.val] := by
  simp [Vector.getElem_set, Fin.ext_iff, eq_comm]

theorem stepN_succ {s t : State} (n : Nat) (h : step s = .next t) : stepN (n + 1) s = stepN n t := by
  simp only [stepN, h]

/-- Settles O6: the step is a CMD write, whose three cases are the pending fault, a command and an illegal word. -/
theorem stepRunsTheDecodedCommand : Obligations.StepRunsTheDecodedCommand := by
  intro s w rest hx
  rw [step_writeCmd hx]
  refine ⟨fun he i hd _ => ?_, fun he hd => ?_, fun he => ?_⟩
  · rw [writeCmd_execute (by exact he), execute_command hd]
  · rw [writeCmd_execute (by exact he), execute_illegal hd]
  · rw [writeCmd_dropped (by exact he)]

theorem tableWord_toNat (w : Word32) : tableWord 32 w.toNat = w := by
  rw [tableWord, Nat.mod_eq_of_lt w.isLt, BitVec.ofNat_toNat, BitVec.setWidth_eq]

/-- The placed write runs on the state as it was, an unacknowledged fault cleared (log entry 4). -/
theorem step_issueCommand (s : State) (w : Word32) :
    step (s.issueCommand w) = execute w (if s.err then s.clearFault else s) := by
  cases he : s.err with
  | false =>
    have placed : s.issueCommand w = { s with inputs := .write 0x18 4 w :: s.inputs } := by
      simp [State.issueCommand, he]
    rw [placed]
    exact (step_writeCmd rfl).trans (writeCmd_execute he w)
  | true =>
    have placed : s.issueCommand w = { s.clearFault with inputs := .write 0x18 4 w :: s.inputs } := by
      simp [State.issueCommand, he]
    rw [placed]
    exact (step_writeCmd rfl).trans (writeCmd_execute rfl w)

/-- Settles O7: the step runs the placed word, which decodes to the command. -/
theorem withFetchWordRunsNext : Obligations.WithFetchWordRunsNext := by
  intro s w i hd
  rw [State.withFetchWord, tableWord_toNat, step_issueCommand, execute_command hd]

/-- Settles O9: the value read is that of the register the address map gives. -/
theorem busReadsFollowTheAddressMap : Obligations.BusReadsFollowTheAddressMap := by
  intro s off ha hl
  refine ⟨s.busValue (busReg off), busStep_read ha hl s, ?_, ?_, ?_, ?_, ?_, ?_, ?_, busValue_unreadable s⟩
  · rintro rfl; rfl
  · rintro rfl; rfl
  · rintro rfl; exact errcodeWord_toNat s
  · rintro rfl; rfl
  · rintro rfl; rfl
  · rintro k rfl; rw [busReg_din]; rfl
  · rintro k rfl; rw [busReg_dout]; rfl

/-- Settles O10: a write is `memWrite`, whose cases are the registers of the address map. -/
theorem busWritesFollowTheAddressMap : Obligations.BusWritesFollowTheAddressMap := by
  intro s off v ha hl
  rw [busStep_write ha hl]
  refine ⟨?_, ?_, ?_, ?_, ?_, ?_, fun hctrl hcmd hdin => memWrite_ignored hctrl hcmd hdin v s⟩
  · rintro rfl h0
    exact congrArg _ (writeCtrl_srst h0 s)
  · rintro rfl h0 h1
    exact congrArg _ (writeCtrl_errclr h0 h1 s)
  · rintro rfl h0 h1
    exact congrArg _ (writeCtrl_neither h0 h1 s)
  · rintro rfl he
    exact writeCmd_execute he v
  · rintro rfl he
    exact writeCmd_dropped he v
  · rintro k rfl
    exact ⟨_, memWrite_din k v s, rfl, fun j => writeDin_din_entry k j v s, fun j => writeDin_dinm_bit k j v s⟩

/-- Settles O11: the step is that of the input, whose access is refused. -/
theorem otherAccessesAreRefused : Obligations.OtherAccessesAreRefused := by
  intro s off n v rest h
  refine ⟨fun hx => ?_, fun hx => ?_⟩
  · rw [step_cons hx]
    exact transaction_refused h _
  · rw [step_cons hx]
    exact transaction_refused h _

theorem step_writeDin {s : State} {k : Fin 8} {v : Word32} {rest : List HostInput}
    (h : s.inputs = .write (0x20 + 4 * k.val) 4 v :: rest) :
    step s = .next (writeDin k v { s with inputs := rest }) := by
  rw [step_cons h, busStep_write (by omega) (by omega), memWrite_din]

theorem step_readDin {s : State} {k : Fin 8} {rest : List HostInput}
    (h : s.inputs = .read (0x20 + 4 * k.val) 4 :: rest) :
    step s = .next { s with inputs := rest, rdata := s.din[k.val] :: s.rdata } := by
  rw [step_cons h, busStep_read (by omega) (by omega), memRead, busReg_din]
  rfl

/-- Settles O12: the write step and the read step, and a register read after a write of itself. -/
theorem dinReadsBackAsWritten : Obligations.DinReadsBackAsWritten := by
  intro s k v rest hx
  refine ⟨_, (stepN_succ 1 (step_writeDin hx)).trans (stepN_succ 0 (step_readDin rfl)), ?_, rfl⟩
  simp

end Sys2Proof.Machine
end

section
/-! Words and bytes of a number, most significant first (20_memory.md R65, R66). -/

namespace Sys2Proof

/-- A slice of a slice is a slice of the number. -/
theorem slice_slice (v lo : Nat) {width lo' width' : Nat} (h : lo' + width' ≤ width) :
    slice (slice v lo width) lo' width' = slice v (lo + lo') width' := by
  apply Nat.eq_of_testBit_eq
  intro b
  simp only [slice, Nat.testBit_mod_two_pow, Nat.testBit_div_two_pow]
  by_cases hb : b < width'
  · have hin : lo' + b < width := by omega
    simp [hb, hin, Nat.add_comm, Nat.add_left_comm]
  · simp [hb]

theorem byteOf32_toNat (w : Word32) (k : Nat) : (byteOf32 w k).toNat = slice w.toNat (24 - 8 * k) 8 := by
  rw [byteOf32, BitVec.toNat_ofNat]
  exact Nat.mod_eq_of_lt (slice_lt _ _ 8)

end Sys2Proof

namespace Sys2Proof.Machine

theorem windowByte_add (s : State) {off j : Nat} (ha : off % 4 = 0) (hj : j < 4) :
    s.windowByte (off + j) = byteOf32 (s.busValue (busReg off)) j := by
  have hmod : (off + j) % 4 = j := by omega
  rw [State.windowByte, hmod, Nat.add_sub_cancel]

/-- The bytes of eight registers in a row that hold the words of a number, most significant first, are the bytes of the
number, most significant first. -/
theorem windowByte_of_words {s : State} {base x : Nat} (ha : base % 4 = 0)
    (hw : ∀ k : Fin 8, (s.busValue (busReg (base + 4 * k.val))).toNat = slice x (224 - 32 * k.val) 32)
    {i : Nat} (hi : i < 32) : (s.windowByte (base + i)).toNat = x / 256 ^ (31 - i) % 256 := by
  have hk : i / 4 < 8 := by omega
  have hpos : base + i = base + 4 * (i / 4) + i % 4 := by omega
  have hlo : 224 - 32 * (i / 4) + (24 - 8 * (i % 4)) = 8 * (31 - i) := by omega
  calc (s.windowByte (base + i)).toNat
    _ = slice (s.busValue (busReg (base + 4 * (i / 4)))).toNat (24 - 8 * (i % 4)) 8 := by
        rw [hpos, windowByte_add s (by omega) (Nat.mod_lt _ (by decide)), byteOf32_toNat]
    _ = slice (slice x (224 - 32 * (i / 4)) 32) (24 - 8 * (i % 4)) 8 := by rw [hw ⟨i / 4, hk⟩]
    _ = slice x (8 * (31 - i)) 8 := by rw [slice_slice _ _ (by omega), hlo]
    _ = x / 256 ^ (31 - i) % 256 := by simp only [slice, Nat.pow_mul, Nat.reducePow]

theorem chunk_eq_sum (s : State) : s.chunk = s.din[0].toNat * 2 ^ 224 + s.din[1].toNat * 2 ^ 192
    + s.din[2].toNat * 2 ^ 160 + s.din[3].toNat * 2 ^ 128 + s.din[4].toNat * 2 ^ 96 + s.din[5].toNat * 2 ^ 64
    + s.din[6].toNat * 2 ^ 32 + s.din[7].toNat := by
  rw [State.chunk, ← Fin.sum_univ_def, Fin.sum_univ_eight]
  simp

/-- Each DIN register holds its word of the chunk. -/
theorem slice_chunk (s : State) (k : Fin 8) : slice s.chunk (224 - 32 * k.val) 32 = s.din[k.val].toNat := by
  have h0 := s.din[0].isLt
  have h1 := s.din[1].isLt
  have h2 := s.din[2].isLt
  have h3 := s.din[3].isLt
  have h4 := s.din[4].isLt
  have h5 := s.din[5].isLt
  have h6 := s.din[6].isLt
  have h7 := s.din[7].isLt
  rw [chunk_eq_sum]
  fin_cases k <;> simp only [slice] <;> omega

/-- `setDout` puts each word of the number into its DOUT register. -/
theorem setDout_dout_toNat (s : State) (x : Nat) (k : Fin 8) :
    ((s.setDout x).dout[k.val]).toNat = slice x (224 - 32 * k.val) 32 := by
  simp only [State.setDout, Vector.getElem_ofFn, BitVec.toNat_ofNat]
  exact Nat.mod_eq_of_lt (slice_lt _ _ 32)

/-- Settles O13: a register is put together from its four bytes, and DIN and DOUT hold the words of a number. -/
theorem windowAndChunksAreBigEndian : Obligations.WindowAndChunksAreBigEndian := by
  refine ⟨fun s off ha _ => ?_, chunk_eq_sum, fun s i hi => ?_, fun s x i _ hi => ?_⟩
  · have hbyte (j : Nat) (hj : j < 4) : s.windowByte (off + j) = byteOf32 (s.busValue (busReg off)) j :=
      windowByte_add s ha hj
    have hbyte0 : s.windowByte off = byteOf32 (s.busValue (busReg off)) 0 := hbyte 0 (by decide)
    rw [hbyte0, hbyte 1 (by decide), hbyte 2 (by decide), hbyte 3 (by decide), bigEndian32_byteOf32]
  · refine windowByte_of_words rfl (fun k => ?_) hi
    rw [busReg_din]
    exact (slice_chunk s k).symm
  · refine windowByte_of_words rfl (fun k => ?_) hi
    rw [busReg_dout]
    exact setDout_dout_toNat s x k

end Sys2Proof.Machine
end

section
/-! The codec, format by format (30_encoding.md R92, R94): the fields of an assembled word, and what it decodes to. -/

namespace Sys2Proof

section Fields

variable {op a b c ra imm : Nat}

/- The fields of a word of an opcode and three registers. -/

theorem regField_encodeRegs_fst (ho : op < 256) (r : Reg) (hb : b < 32) (hc : c < 32) :
    regField (encodeRegs op r b c).toNat 19 = r :=
  regField_eq (by rw [toNat_encodeRegs ho r.isLt hb hc, slice]; omega)

theorem regField_encodeRegs_snd (ho : op < 256) (ha : a < 32) (r : Reg) (hc : c < 32) :
    regField (encodeRegs op a r c).toNat 14 = r :=
  regField_eq (by rw [toNat_encodeRegs ho ha r.isLt hc, slice]; omega)

theorem regField_encodeRegs_trd (ho : op < 256) (ha : a < 32) (hb : b < 32) (r : Reg) :
    regField (encodeRegs op a b r).toNat 9 = r :=
  regField_eq (by rw [toNat_encodeRegs ho ha hb r.isLt, slice]; omega)

/- The fields of a word of an opcode, a register and an immediate. -/

theorem regField_encodeImm (ho : op < 256) (r : Reg) (hi : imm < 65536) :
    regField (encodeImm op r imm).toNat 19 = r :=
  regField_eq (by rw [toNat_encodeImm ho r.isLt hi, slice]; omega)

theorem slice_encodeImm_imm (ho : op < 256) (ha : ra < 32) (hi : imm < 65536) :
    slice (encodeImm op ra imm).toNat 0 16 = imm := by
  rw [toNat_encodeImm ho ha hi, slice]
  omega

/-- A sub-field of the immediate (30_encoding.md R94). -/
theorem slice_encodeImm_sub (ho : op < 256) (ha : ra < 32) (hi : imm < 65536) {lo width : Nat} (h : lo + width ≤ 16) :
    slice (encodeImm op ra imm).toNat lo width = slice imm lo width := by
  have hs := slice_slice (encodeImm op ra imm).toNat 0 h
  rw [slice_encodeImm_imm ho ha hi, Nat.zero_add] at hs
  exact hs.symm

end Fields

section Decode

/- Each format reads back the word assembled for it. -/

variable {op : Nat} {i : Instr}

theorem decode_encodeRegs_formatN (ho : op < 256)
    (hdec : ∀ {w : Word32}, slice w.toNat 24 8 = op → decode w = formatN w.toNat i) :
    decode (encodeRegs op 0 0 0) = .ok i := by
  rw [hdec (Laws.opcode_encodeRegs ho (by decide) (by decide) (by decide))]
  refine accept_eq_ok.mpr ⟨?_, rfl⟩
  rw [toNat_encodeRegs ho (by decide) (by decide) (by decide), slice]
  omega

theorem decode_encodeRegs_formatA {mk : Reg → Instr} (ho : op < 256)
    (hdec : ∀ {w : Word32}, slice w.toNat 24 8 = op → decode w = formatA w.toNat mk) (a : Reg) :
    decode (encodeRegs op a 0 0) = .ok (mk a) := by
  rw [hdec (Laws.opcode_encodeRegs ho a.isLt (by decide) (by decide))]
  refine accept_eq_ok.mpr ⟨?_, ?_⟩
  · rw [toNat_encodeRegs ho a.isLt (by decide) (by decide), slice]
    omega
  · rw [regField_encodeRegs_fst ho a (by decide) (by decide)]

theorem decode_encodeRegs_formatR2 {mk : Reg → Reg → Instr} (ho : op < 256)
    (hdec : ∀ {w : Word32}, slice w.toNat 24 8 = op → decode w = formatR2 w.toNat mk) (a b : Reg) :
    decode (encodeRegs op a b 0) = .ok (mk a b) := by
  rw [hdec (Laws.opcode_encodeRegs ho a.isLt b.isLt (by decide))]
  refine accept_eq_ok.mpr ⟨?_, ?_⟩
  · rw [toNat_encodeRegs ho a.isLt b.isLt (by decide), slice]
    omega
  · rw [regField_encodeRegs_fst ho a b.isLt (by decide), regField_encodeRegs_snd ho a.isLt b (by decide)]

theorem decode_encodeRegs_formatR3 {mk : Reg → Reg → Reg → Instr} (ho : op < 256)
    (hdec : ∀ {w : Word32}, slice w.toNat 24 8 = op → decode w = formatR3 w.toNat mk) (a b c : Reg) :
    decode (encodeRegs op a b c) = .ok (mk a b c) := by
  rw [hdec (Laws.opcode_encodeRegs ho a.isLt b.isLt c.isLt)]
  refine accept_eq_ok.mpr ⟨?_, ?_⟩
  · rw [toNat_encodeRegs ho a.isLt b.isLt c.isLt, slice]
    omega
  · rw [regField_encodeRegs_fst ho a b.isLt c.isLt, regField_encodeRegs_snd ho a.isLt b c.isLt,
      regField_encodeRegs_trd ho a.isLt b.isLt c]

theorem decode_encodeRegs_formatC {mk : Reg → Reg → Instr} (ho : op < 256)
    (hdec : ∀ {w : Word32}, slice w.toNat 24 8 = op → decode w = formatC w.toNat mk) (b c : Reg) :
    decode (encodeRegs op 0 b c) = .ok (mk b c) := by
  rw [hdec (Laws.opcode_encodeRegs ho (by decide) b.isLt c.isLt)]
  refine accept_eq_ok.mpr ⟨?_, ?_⟩
  · rw [toNat_encodeRegs ho (by decide) b.isLt c.isLt, slice, slice]
    omega
  · rw [regField_encodeRegs_snd ho (by decide) b c.isLt, regField_encodeRegs_trd ho (by decide) b.isLt c]

theorem decode_encodeImm_formatI {ra : Reg} {imm z : Nat} {mk : Reg → Instr} (ho : op < 256) (hi : imm < 65536)
    (hdec : slice (encodeImm op ra imm).toNat 24 8 = op →
      decode (encodeImm op ra imm) = formatI (encodeImm op ra imm).toNat z mk)
    (hz : z = 0) (hmk : mk ra = i) : decode (encodeImm op ra imm) = .ok i := by
  rw [hdec (Laws.opcode_encodeImm ho ra.isLt hi)]
  refine accept_eq_ok.mpr ⟨?_, ?_⟩
  · rw [hz, toNat_encodeImm ho ra.isLt hi, slice]
    omega
  · rw [regField_encodeImm ho ra hi, hmk]

theorem decode_encodeImm_formatJ {imm z : Nat} {j : Instr} (ho : op < 256) (hi : imm < 65536)
    (hdec : slice (encodeImm op 0 imm).toNat 24 8 = op →
      decode (encodeImm op 0 imm) = formatJ (encodeImm op 0 imm).toNat z j)
    (hz : z = 0) (hj : j = i) : decode (encodeImm op 0 imm) = .ok i := by
  rw [hdec (Laws.opcode_encodeImm ho (by decide) hi)]
  refine accept_eq_ok.mpr ⟨?_, hj⟩
  rw [hz, toNat_encodeImm ho (by decide) hi, slice]
  omega

/-- A format with a register and a whole immediate. -/
theorem decode_encodeImm_regImm {mk : Reg → Nat → Instr} (ho : op < 256)
    (hdec : ∀ {w : Word32}, slice w.toNat 24 8 = op → decode w = formatI w.toNat 0 (mk · (slice w.toNat 0 16)))
    (ra : Reg) {imm : Nat} (hi : imm < 65536) : decode (encodeImm op ra imm) = .ok (mk ra imm) :=
  decode_encodeImm_formatI ho hi hdec rfl (congrArg (mk ra) (slice_encodeImm_imm ho ra.isLt hi))

/-- A format with a whole immediate and no register. -/
theorem decode_encodeImm_wholeImm {mk : Nat → Instr} (ho : op < 256)
    (hdec : ∀ {w : Word32}, slice w.toNat 24 8 = op → decode w = formatJ w.toNat 0 (mk (slice w.toNat 0 16)))
    {imm : Nat} (hi : imm < 65536) : decode (encodeImm op 0 imm) = .ok (mk imm) :=
  decode_encodeImm_formatJ ho hi hdec rfl (congrArg mk (slice_encodeImm_imm ho (by decide) hi))

/- The four commands whose immediate is divided (30_encoding.md R94). -/

theorem decode_encode_psettd {t d : Nat} (ht : t < 32) (hd : d < 16) :
    decode (encode (.psettd t d)) = .ok (.psettd t d) := by
  have hsub {lo width : Nat} (h : lo + width ≤ 16) :=
    slice_encodeImm_sub (op := 0x30) (ra := 0) (imm := d * 2 ^ 8 + t) (by decide) (by decide) (by omega) h
  refine decode_encodeImm_formatJ (by decide) (by omega) decode_psettd ?_ ?_
  · rw [hsub (by decide), hsub (by decide), slice, slice]
    omega
  · rw [hsub (by decide), hsub (by decide), slice, slice]
    congr 1 <;> omega

theorem decode_encode_psetrnd {f q : Nat} (hf : f < 256) (hq : q < 256) :
    decode (encode (.psetrnd f q)) = .ok (.psetrnd f q) := by
  have hsub {lo width : Nat} (h : lo + width ≤ 16) :=
    slice_encodeImm_sub (op := 0x31) (ra := 0) (imm := f * 2 ^ 8 + q) (by decide) (by decide) (by omega) h
  refine decode_encodeImm_formatJ (by decide) (by omega) decode_psetrnd rfl ?_
  rw [hsub (by decide), hsub (by decide), slice, slice]
  congr 1 <;> omega

theorem decode_encode_psetrc (fs : Reg) {row col : Nat} (hr : row < 128) (hc : col < 32) :
    decode (encode (.psetrc fs row col)) = .ok (.psetrc fs row col) := by
  have hsub {lo width : Nat} (h : lo + width ≤ 16) :=
    slice_encodeImm_sub (op := 0x32) (imm := row * 2 ^ 5 + col) (by decide) fs.isLt (by omega) h
  refine decode_encodeImm_formatI (by decide) (by omega) decode_psetrc ?_ ?_
  · rw [hsub (by decide), slice]
    omega
  · rw [hsub (by decide), hsub (by decide), slice, slice]
    congr 1 <;> omega

theorem decode_encode_psetdg (fs : Reg) {col : Nat} (hc : col < 32) :
    decode (encode (.psetdg fs col)) = .ok (.psetdg fs col) := by
  have hsub {lo width : Nat} (h : lo + width ≤ 16) :=
    slice_encodeImm_sub (op := 0x33) (imm := col) (by decide) fs.isLt (by omega) h
  refine decode_encodeImm_formatI (by decide) (by omega) decode_psetdg ?_ ?_
  · rw [hsub (by decide), slice]
    omega
  · rw [hsub (by decide), slice]
    congr 1
    omega

end Decode

/-- Settles O1: each command's word, read back by the format of its row. -/
theorem decodeOfEncode : Obligations.DecodeOfEncode := by
  intro i hi
  cases i with
  | nop => exact decode_encodeRegs_formatN (by decide) decode_nop
  | ldc fd => exact decode_encodeRegs_formatA (by decide) decode_ldc fd
  | ldr fd => exact decode_encodeRegs_formatA (by decide) decode_ldr fd
  | stc fs => exact decode_encodeRegs_formatA (by decide) decode_stc fs
  | str fs => exact decode_encodeRegs_formatA (by decide) decode_str fs
  | ldi fd imm => exact decode_encodeImm_regImm (by decide) decode_ldi fd (of_decide_eq_true hi)
  | mov fd fs1 => exact decode_encodeRegs_formatR2 (by decide) decode_mov fd fs1
  | tomont fd fs1 => exact decode_encodeRegs_formatR2 (by decide) decode_tomont fd fs1
  | frommont fd fs1 => exact decode_encodeRegs_formatR2 (by decide) decode_frommont fd fs1
  | add fd fs1 fs2 => exact decode_encodeRegs_formatR3 (by decide) decode_add fd fs1 fs2
  | sub fd fs1 fs2 => exact decode_encodeRegs_formatR3 (by decide) decode_sub fd fs1 fs2
  | mul fd fs1 fs2 => exact decode_encodeRegs_formatR3 (by decide) decode_mul fd fs1 fs2
  | neg fd fs1 => exact decode_encodeRegs_formatR2 (by decide) decode_neg fd fs1
  | dbl fd fs1 => exact decode_encodeRegs_formatR2 (by decide) decode_dbl fd fs1
  | sqr fd fs1 => exact decode_encodeRegs_formatR2 (by decide) decode_sqr fd fs1
  | inv fd fs1 => exact decode_encodeRegs_formatR2 (by decide) decode_inv fd fs1
  | eq fs1 fs2 => exact decode_encodeRegs_formatC (by decide) decode_eq fs1 fs2
  | psettd t d =>
    obtain ⟨ht, hd⟩ := Bool.and_eq_true_iff.mp hi
    exact decode_encode_psettd (of_decide_eq_true ht) (of_decide_eq_true hd)
  | psetrnd f q =>
    obtain ⟨hf, hq⟩ := Bool.and_eq_true_iff.mp hi
    exact decode_encode_psetrnd (of_decide_eq_true hf) (of_decide_eq_true hq)
  | psetrc fs row col =>
    obtain ⟨hr, hc⟩ := Bool.and_eq_true_iff.mp hi
    exact decode_encode_psetrc fs (of_decide_eq_true hr) (of_decide_eq_true hc)
  | psetdg fs col => exact decode_encode_psetdg fs (of_decide_eq_true hi)
  | pcommit => exact decode_encodeRegs_formatN (by decide) decode_pcommit
  | arc row => exact decode_encodeImm_wholeImm (by decide) decode_arc (of_decide_eq_true hi)
  | arcp row => exact decode_encodeImm_wholeImm (by decide) decode_arcp (of_decide_eq_true hi)
  | sbox fd fs1 => exact decode_encodeRegs_formatR2 (by decide) decode_sbox fd fs1
  | sboxf => exact decode_encodeRegs_formatN (by decide) decode_sboxf
  | mext => exact decode_encodeRegs_formatN (by decide) decode_mext
  | mint => exact decode_encodeRegs_formatN (by decide) decode_mint
  | perm w => exact decode_encodeImm_wholeImm (by decide) decode_perm (of_decide_eq_true hi)
  | cmpr fd fs1 fs2 => exact decode_encodeRegs_formatR3 (by decide) decode_cmpr fd fs1 fs2
  | lwr fs idx => exact decode_encodeImm_regImm (by decide) decode_lwr fs (of_decide_eq_true hi)
  | lrd fd idx => exact decode_encodeImm_regImm (by decide) decode_lrd fd (of_decide_eq_true hi)
  | accum fd n => exact decode_encodeImm_regImm (by decide) decode_accum fd (of_decide_eq_true hi)

/-- Settles O5: each word is the one assembled for its command. -/
theorem wordsOfTheSpecDecode : Obligations.WordsOfTheSpecDecode :=
  ⟨decodeOfEncode .nop rfl, decodeOfEncode (.ldc 1) rfl, decodeOfEncode (.ldi 0 2) rfl,
    decodeOfEncode (.mov 4 1) rfl, decodeOfEncode (.add 3 1 2) rfl, decodeOfEncode (.eq 1 2) rfl,
    decodeOfEncode (.psettd 3 5) rfl, decodeOfEncode (.psetrnd 8 56) rfl, decodeOfEncode (.psetrc 31 2 1) rfl,
    decodeOfEncode (.psetdg 31 2) rfl, decodeOfEncode (.arcp 1) rfl, decodeOfEncode (.sbox 5 0) rfl,
    decodeOfEncode (.perm 3) rfl, decodeOfEncode (.cmpr 5 0 1) rfl, decodeOfEncode (.lwr 20 2) rfl,
    decodeOfEncode (.accum 12 3) rfl⟩

end Sys2Proof
end

section
/-! The word of a word's own fields: what a format accepts is assembled again from the fields it took. -/

namespace Sys2Proof

section Encode

variable {w : Word32} {op : Nat} {i : Instr}

theorem encodeRegs_eq {a b c : Nat} (h : op * 2 ^ 24 + a * 2 ^ 19 + b * 2 ^ 14 + c * 2 ^ 9 = w.toNat) :
    encodeRegs op a b c = w := by
  rw [encodeRegs, h, BitVec.ofNat_toNat, BitVec.setWidth_eq]

theorem encodeImm_eq {ra imm : Nat} (h : op * 2 ^ 24 + ra * 2 ^ 19 + imm = w.toNat) : encodeImm op ra imm = w := by
  rw [encodeImm, h, BitVec.ofNat_toNat, BitVec.setWidth_eq]

theorem encode_of_formatN {j : Instr} (hop : slice w.toNat 24 8 = op) (henc : encode j = encodeRegs op 0 0 0)
    (h : formatN w.toNat j = .ok i) : encode i = w := by
  obtain ⟨hz, rfl⟩ := accept_ok h
  rw [henc]
  refine encodeRegs_eq ?_
  have hw := w.isLt
  rw [slice] at hop hz
  omega

theorem encode_of_formatA {mk : Reg → Instr} (hop : slice w.toNat 24 8 = op)
    (henc : ∀ a, encode (mk a) = encodeRegs op a 0 0) (h : formatA w.toNat mk = .ok i) : encode i = w := by
  obtain ⟨hz, rfl⟩ := accept_ok h
  rw [henc]
  refine encodeRegs_eq ?_
  have hw := w.isLt
  rw [regField_val, slice]
  rw [slice] at hop hz
  omega

theorem encode_of_formatR2 {mk : Reg → Reg → Instr} (hop : slice w.toNat 24 8 = op)
    (henc : ∀ a b, encode (mk a b) = encodeRegs op a b 0) (h : formatR2 w.toNat mk = .ok i) : encode i = w := by
  obtain ⟨hz, rfl⟩ := accept_ok h
  rw [henc]
  refine encodeRegs_eq ?_
  have hw := w.isLt
  rw [regField_val, regField_val, slice, slice]
  rw [slice] at hop hz
  omega

theorem encode_of_formatR3 {mk : Reg → Reg → Reg → Instr} (hop : slice w.toNat 24 8 = op)
    (henc : ∀ a b c, encode (mk a b c) = encodeRegs op a b c) (h : formatR3 w.toNat mk = .ok i) : encode i = w := by
  obtain ⟨hz, rfl⟩ := accept_ok h
  rw [henc]
  refine encodeRegs_eq ?_
  have hw := w.isLt
  rw [regField_val, regField_val, regField_val, slice, slice, slice]
  rw [slice] at hop hz
  omega

theorem encode_of_formatC {mk : Reg → Reg → Instr} (hop : slice w.toNat 24 8 = op)
    (henc : ∀ b c, encode (mk b c) = encodeRegs op 0 b c) (h : formatC w.toNat mk = .ok i) : encode i = w := by
  obtain ⟨hz, rfl⟩ := accept_ok h
  rw [henc]
  refine encodeRegs_eq ?_
  have hw := w.isLt
  rw [regField_val, regField_val, slice, slice]
  rw [slice] at hop
  rw [slice, slice] at hz
  omega

/-- The immediate is put together from the fields the command took of it where `z`, the rest of it, is zero. -/
theorem encode_of_formatI {mk : Reg → Instr} {z imm : Nat} (hop : slice w.toNat 24 8 = op)
    (henc : ∀ a, encode (mk a) = encodeImm op a imm) (himm : z = 0 → imm = slice w.toNat 0 16)
    (h : formatI w.toNat z mk = .ok i) : encode i = w := by
  obtain ⟨hz, rfl⟩ := accept_ok h
  obtain ⟨hgap, hz0⟩ := Nat.add_eq_zero_iff.mp hz
  rw [henc, himm hz0]
  refine encodeImm_eq ?_
  have hw := w.isLt
  rw [regField_val, slice, slice]
  rw [slice] at hop hgap
  omega

/-- As `encode_of_formatI`, with no register. -/
theorem encode_of_formatJ {j : Instr} {z imm : Nat} (hop : slice w.toNat 24 8 = op)
    (henc : encode j = encodeImm op 0 imm) (himm : z = 0 → imm = slice w.toNat 0 16)
    (h : formatJ w.toNat z j = .ok i) : encode i = w := by
  obtain ⟨hz, rfl⟩ := accept_ok h
  obtain ⟨hgap, hz0⟩ := Nat.add_eq_zero_iff.mp hz
  rw [henc, himm hz0]
  refine encodeImm_eq ?_
  have hw := w.isLt
  rw [slice]
  rw [slice] at hop hgap
  omega

end Encode

/- The divided immediates (30_encoding.md R94), put together again. -/

theorem imm_of_psettd {v : Nat} (h : slice v 5 3 + slice v 12 4 = 0) :
    slice v 8 4 * 2 ^ 8 + slice v 0 5 = slice v 0 16 := by
  simp only [slice] at h ⊢
  omega

theorem imm_of_psetrnd (v : Nat) : slice v 8 8 * 2 ^ 8 + slice v 0 8 = slice v 0 16 := by
  simp only [slice]
  omega

theorem imm_of_psetrc {v : Nat} (h : slice v 12 4 = 0) : slice v 5 7 * 2 ^ 5 + slice v 0 5 = slice v 0 16 := by
  simp only [slice] at h ⊢
  omega

theorem imm_of_psetdg {v : Nat} (h : slice v 5 11 = 0) : slice v 0 5 = slice v 0 16 := by
  simp only [slice] at h ⊢
  omega

/-- A word that decodes is assembled from what it decodes to: the decoder's arms, grouped by format. -/
theorem encode_of_decode {w : Word32} {i : Instr} (h : decode w = .ok i) : encode i = w := by
  simp only [decode] at h
  split at h
  case h_1 hop | h_22 hop | h_26 hop | h_27 hop | h_28 hop => exact encode_of_formatN hop rfl h
  case h_2 hop | h_3 hop | h_4 hop | h_5 hop => exact encode_of_formatA hop (fun _ => rfl) h
  case h_7 hop | h_8 hop | h_9 hop | h_13 hop | h_14 hop | h_15 hop | h_16 hop | h_25 hop =>
    exact encode_of_formatR2 hop (fun _ _ => rfl) h
  case h_10 hop | h_11 hop | h_12 hop | h_30 hop => exact encode_of_formatR3 hop (fun _ _ _ => rfl) h
  case h_17 hop => exact encode_of_formatC hop (fun _ _ => rfl) h
  case h_6 hop | h_31 hop | h_32 hop | h_33 hop => exact encode_of_formatI hop (fun _ => rfl) (fun _ => rfl) h
  case h_20 hop => exact encode_of_formatI hop (fun _ => rfl) imm_of_psetrc h
  case h_21 hop => exact encode_of_formatI hop (fun _ => rfl) imm_of_psetdg h
  case h_23 hop | h_24 hop | h_29 hop => exact encode_of_formatJ hop rfl (fun _ => rfl) h
  case h_18 hop => exact encode_of_formatJ hop rfl imm_of_psettd h
  case h_19 hop => exact encode_of_formatJ hop rfl (fun _ => imm_of_psetrnd w.toNat) h
  case h_34 => cases h

/-- Settles O2: the word is put together again from its fields, and a field holds no more than its width. -/
theorem encodeOfDecode : Obligations.EncodeOfDecode :=
  fun _ _ h => ⟨encode_of_decode h, wellFormed_of_decode h⟩

end Sys2Proof
end

section
/-! The opcode table beside the decoder (30_encoding.md R95): a row's mask is the opcode and the must-be-zero bits of the
row's format. -/

namespace Sys2Proof

/-- The mask of bits [lo + width - 1 : lo]. -/
def fieldMask (lo width : Nat) : Word32 := BitVec.ofNat 32 ((2 ^ width - 1) * 2 ^ lo)

theorem getLsbD_fieldMask {lo width : Nat} (b : Nat) (h : lo + width ≤ 32) :
    (fieldMask lo width).getLsbD b = decide (lo ≤ b ∧ b < lo + width) := by
  rw [fieldMask, BitVec.getLsbD_ofNat, Nat.testBit_mul_two_pow, Nat.testBit_two_pow_sub_one]
  grind

/-- The bits a field's mask keeps are the field in its place. -/
theorem toNat_and_fieldMask (w : Word32) {lo width : Nat} (h : lo + width ≤ 32) :
    (w &&& fieldMask lo width).toNat = slice w.toNat lo width * 2 ^ lo := by
  apply Nat.eq_of_testBit_eq
  intro b
  simp only [BitVec.testBit_toNat, BitVec.getLsbD_and, getLsbD_fieldMask b h, slice, Nat.testBit_mul_two_pow,
    Nat.testBit_mod_two_pow, Nat.testBit_div_two_pow]
  grind

/-- A pattern that lies in a field matches where the fields are equal. -/
theorem and_fieldMask_eq_iff {w p : Word32} {lo width : Nat} (h : lo + width ≤ 32)
    (hp : p &&& fieldMask lo width = p) :
    w &&& fieldMask lo width = p ↔ slice w.toNat lo width = slice p.toNat lo width := by
  conv_lhs => rw [← hp]
  rw [← BitVec.toNat_inj, toNat_and_fieldMask w h, toNat_and_fieldMask p h]
  exact Nat.mul_left_inj (by positivity)

/-- The bits of `z` are zero in the words in whose number the sum `m` of fields is zero. -/
def MasksZero (z : Word32) (m : Nat → Nat) : Prop := ∀ w : Word32, w &&& z = 0 ↔ m w.toNat = 0

theorem masksZero_field {lo width : Nat} (h : lo + width ≤ 32) : MasksZero (fieldMask lo width) (slice · lo width) :=
  fun _ => (and_fieldMask_eq_iff h BitVec.zero_and).trans (by simp [slice])

theorem masksZero_none : MasksZero 0 fun _ => 0 := fun _ => iff_of_true BitVec.and_zero rfl

theorem MasksZero.or {x y : Word32} {m n : Nat → Nat} (hx : MasksZero x m) (hy : MasksZero y n) :
    MasksZero (x ||| y) fun v => m v + n v := by
  intro w
  rw [BitVec.and_or_distrib_left, Nat.add_eq_zero_iff, ← hx, ← hy]
  exact BitVec.or_eq_zero_iff

theorem or_and_absorb (x y : Word32) : (x ||| y) &&& x = x := by
  ext b
  cases hx : x[b] <;> simp [hx]

/-- A mask of the opcode and of bits below it matches a pattern that is an opcode where the opcodes are equal and the
other bits zero. -/
theorem and_rowMask_eq_iff {w p z : Word32} (hp : p &&& fieldMask 24 8 = p) (hz : z &&& fieldMask 24 8 = 0) :
    w &&& (fieldMask 24 8 ||| z) = p ↔ slice w.toNat 24 8 = slice p.toNat 24 8 ∧ w &&& z = 0 := by
  rw [← and_fieldMask_eq_iff (by decide) hp]
  have hzp : p &&& z = 0 := by
    rw [← hp, BitVec.and_assoc, BitVec.and_comm _ z, hz]
    exact BitVec.and_zero
  constructor
  · intro h
    refine ⟨?_, ?_⟩
    · rw [← hp, ← h, BitVec.and_assoc, or_and_absorb]
    · rw [← hzp, ← h, BitVec.and_assoc, BitVec.or_comm, or_and_absorb]
  · rintro ⟨hop, hlow⟩
    rw [BitVec.and_or_distrib_left, hop, hlow]
    exact BitVec.or_zero

/-- A row matches a word exactly where the word has the row's opcode and decodes. -/
def MatchesWhatDecodes (row : OpRow) : Prop :=
  ∀ w : Word32, w &&& row.mask = row.pattern ↔
    slice w.toNat 24 8 = slice row.pattern.toNat 24 8 ∧ ∃ i, decode w = .ok i

section Formats

variable {name : String} {p mask : Word32}

/-- It does when the row's mask holds the opcode and the bits that the row's format wants zero. -/
theorem matchesWhatDecodes_of_format {z : Word32} {m : Nat → Nat} {mk : Nat → Instr} (hzero : MasksZero z m)
    (hdec : ∀ {w : Word32}, slice w.toNat 24 8 = slice p.toNat 24 8 → decode w = accept (m w.toNat) (mk w.toNat))
    (hmask : mask = fieldMask 24 8 ||| z) (hz : z &&& fieldMask 24 8 = 0) (hp : p &&& fieldMask 24 8 = p) :
    MatchesWhatDecodes ⟨name, p, mask⟩ := by
  intro w
  subst hmask
  refine (and_rowMask_eq_iff hp hz).trans (and_congr_right fun hop => ?_)
  rw [hzero, hdec hop]
  exact ⟨fun h => ⟨_, accept_eq_ok.mpr ⟨h, rfl⟩⟩, fun ⟨_, h⟩ => (accept_ok h).1⟩

/- The masks of the seven formats of 30_encoding.md R92. -/

theorem matchesWhatDecodes_formatN {i : Instr}
    (hdec : ∀ {w : Word32}, slice w.toNat 24 8 = slice p.toNat 24 8 → decode w = formatN w.toNat i)
    (hp : p &&& fieldMask 24 8 = p := by decide) : MatchesWhatDecodes ⟨name, p, 0xFFFFFFFF⟩ :=
  matchesWhatDecodes_of_format (mk := fun _ => i) (masksZero_field (lo := 0) (width := 24) (by decide)) hdec (by decide)
    (by decide) hp

theorem matchesWhatDecodes_formatA {mk : Reg → Instr}
    (hdec : ∀ {w : Word32}, slice w.toNat 24 8 = slice p.toNat 24 8 → decode w = formatA w.toNat mk)
    (hp : p &&& fieldMask 24 8 = p := by decide) : MatchesWhatDecodes ⟨name, p, 0xFF07FFFF⟩ :=
  matchesWhatDecodes_of_format (mk := fun v => mk (regField v 19))
    (masksZero_field (lo := 0) (width := 19) (by decide)) hdec (by decide) (by decide) hp

theorem matchesWhatDecodes_formatR2 {mk : Reg → Reg → Instr}
    (hdec : ∀ {w : Word32}, slice w.toNat 24 8 = slice p.toNat 24 8 → decode w = formatR2 w.toNat mk)
    (hp : p &&& fieldMask 24 8 = p := by decide) : MatchesWhatDecodes ⟨name, p, 0xFF003FFF⟩ :=
  matchesWhatDecodes_of_format (mk := fun v => mk (regField v 19) (regField v 14))
    (masksZero_field (lo := 0) (width := 14) (by decide)) hdec (by decide) (by decide) hp

theorem matchesWhatDecodes_formatR3 {mk : Reg → Reg → Reg → Instr}
    (hdec : ∀ {w : Word32}, slice w.toNat 24 8 = slice p.toNat 24 8 → decode w = formatR3 w.toNat mk)
    (hp : p &&& fieldMask 24 8 = p := by decide) : MatchesWhatDecodes ⟨name, p, 0xFF0001FF⟩ :=
  matchesWhatDecodes_of_format (mk := fun v => mk (regField v 19) (regField v 14) (regField v 9))
    (masksZero_field (lo := 0) (width := 9) (by decide)) hdec (by decide) (by decide) hp

theorem matchesWhatDecodes_formatC {mk : Reg → Reg → Instr}
    (hdec : ∀ {w : Word32}, slice w.toNat 24 8 = slice p.toNat 24 8 → decode w = formatC w.toNat mk)
    (hp : p &&& fieldMask 24 8 = p := by decide) : MatchesWhatDecodes ⟨name, p, 0xFFF801FF⟩ :=
  matchesWhatDecodes_of_format (mk := fun v => mk (regField v 14) (regField v 9))
    ((masksZero_field (lo := 19) (width := 5) (by decide)).or (masksZero_field (lo := 0) (width := 9) (by decide))) hdec
    (by decide) (by decide) hp

/-- `z` masks the bits of the immediate that must be zero (30_encoding.md R94). -/
theorem matchesWhatDecodes_formatI {z : Word32} {m : Nat → Nat} {mk : Nat → Reg → Instr} (hzero : MasksZero z m)
    (hdec : ∀ {w : Word32}, slice w.toNat 24 8 = slice p.toNat 24 8 →
      decode w = formatI w.toNat (m w.toNat) (mk w.toNat))
    (hmask : mask = fieldMask 24 8 ||| (fieldMask 16 3 ||| z) := by decide)
    (hz : (fieldMask 16 3 ||| z) &&& fieldMask 24 8 = 0 := by decide)
    (hp : p &&& fieldMask 24 8 = p := by decide) : MatchesWhatDecodes ⟨name, p, mask⟩ :=
  matchesWhatDecodes_of_format (mk := fun v => mk v (regField v 19)) ((masksZero_field (by decide)).or hzero) hdec hmask
    hz hp

/-- As `matchesWhatDecodes_formatI`, with no register. -/
theorem matchesWhatDecodes_formatJ {z : Word32} {m : Nat → Nat} {mk : Nat → Instr} (hzero : MasksZero z m)
    (hdec : ∀ {w : Word32}, slice w.toNat 24 8 = slice p.toNat 24 8 →
      decode w = formatJ w.toNat (m w.toNat) (mk w.toNat))
    (hmask : mask = fieldMask 24 8 ||| (fieldMask 16 8 ||| z) := by decide)
    (hz : (fieldMask 16 8 ||| z) &&& fieldMask 24 8 = 0 := by decide)
    (hp : p &&& fieldMask 24 8 = p := by decide) : MatchesWhatDecodes ⟨name, p, mask⟩ :=
  matchesWhatDecodes_of_format (mk := mk) ((masksZero_field (by decide)).or hzero) hdec hmask hz hp

/- A whole immediate has no bit that must be zero. -/

theorem matchesWhatDecodes_regImm {mk : Reg → Nat → Instr}
    (hdec : ∀ {w : Word32}, slice w.toNat 24 8 = slice p.toNat 24 8 →
      decode w = formatI w.toNat 0 (mk · (slice w.toNat 0 16)))
    (hp : p &&& fieldMask 24 8 = p := by decide) : MatchesWhatDecodes ⟨name, p, 0xFF070000⟩ :=
  matchesWhatDecodes_formatI (mk := fun v => (mk · (slice v 0 16))) masksZero_none hdec (hp := hp)

theorem matchesWhatDecodes_wholeImm {mk : Nat → Instr}
    (hdec : ∀ {w : Word32}, slice w.toNat 24 8 = slice p.toNat 24 8 → decode w = formatJ w.toNat 0 (mk w.toNat))
    (hp : p &&& fieldMask 24 8 = p := by decide) : MatchesWhatDecodes ⟨name, p, 0xFFFF0000⟩ :=
  matchesWhatDecodes_formatJ masksZero_none hdec (hp := hp)

end Formats

/- The three rows with must-be-zero bits in the immediate. -/

theorem matchesWhatDecodes_psettd : MatchesWhatDecodes ⟨"PSETTD", 0x30000000, 0xFFFFF0E0⟩ :=
  matchesWhatDecodes_formatJ (mk := fun v => .psettd (slice v 0 5) (slice v 8 4))
    ((masksZero_field (lo := 5) (width := 3) (by decide)).or (masksZero_field (lo := 12) (width := 4) (by decide)))
    decode_psettd

theorem matchesWhatDecodes_psetrc : MatchesWhatDecodes ⟨"PSETRC", 0x32000000, 0xFF07F000⟩ :=
  matchesWhatDecodes_formatI (mk := fun v => (.psetrc · (slice v 5 7) (slice v 0 5)))
    (masksZero_field (lo := 12) (width := 4) (by decide)) decode_psetrc

theorem matchesWhatDecodes_psetdg : MatchesWhatDecodes ⟨"PSETDG", 0x33000000, 0xFF07FFE0⟩ :=
  matchesWhatDecodes_formatI (mk := fun v => (.psetdg · (slice v 0 5)))
    (masksZero_field (lo := 5) (width := 11) (by decide)) decode_psetdg

/-- Every row of the table, by its format. -/
theorem opTable_matchesWhatDecodes : ∀ row ∈ opTable, MatchesWhatDecodes row := by
  simp only [opTable, List.cons_append, List.nil_append, List.forall_mem_cons]
  exact ⟨matchesWhatDecodes_formatN decode_nop, matchesWhatDecodes_formatA decode_ldc,
    matchesWhatDecodes_formatA decode_ldr, matchesWhatDecodes_formatA decode_stc,
    matchesWhatDecodes_formatA decode_str, matchesWhatDecodes_regImm decode_ldi,
    matchesWhatDecodes_formatR2 decode_mov, matchesWhatDecodes_formatR2 decode_tomont,
    matchesWhatDecodes_formatR2 decode_frommont, matchesWhatDecodes_formatR3 decode_add,
    matchesWhatDecodes_formatR3 decode_sub, matchesWhatDecodes_formatR3 decode_mul,
    matchesWhatDecodes_formatR2 decode_neg, matchesWhatDecodes_formatR2 decode_dbl,
    matchesWhatDecodes_formatR2 decode_sqr, matchesWhatDecodes_formatR2 decode_inv,
    matchesWhatDecodes_formatC decode_eq, matchesWhatDecodes_psettd,
    matchesWhatDecodes_wholeImm (mk := fun v => .psetrnd (slice v 8 8) (slice v 0 8)) decode_psetrnd,
    matchesWhatDecodes_psetrc, matchesWhatDecodes_psetdg, matchesWhatDecodes_formatN decode_pcommit,
    matchesWhatDecodes_wholeImm (mk := fun v => .arc (slice v 0 16)) decode_arc,
    matchesWhatDecodes_wholeImm (mk := fun v => .arcp (slice v 0 16)) decode_arcp,
    matchesWhatDecodes_formatR2 decode_sbox, matchesWhatDecodes_formatN decode_sboxf,
    matchesWhatDecodes_formatN decode_mext, matchesWhatDecodes_formatN decode_mint,
    matchesWhatDecodes_wholeImm (mk := fun v => .perm (slice v 0 16)) decode_perm,
    matchesWhatDecodes_formatR3 decode_cmpr, matchesWhatDecodes_regImm decode_lwr,
    matchesWhatDecodes_regImm decode_lrd, matchesWhatDecodes_regImm decode_accum, List.forall_mem_nil _⟩

/-- No two rows have one opcode. -/
theorem opTable_opcode_inj {a b : OpRow} (ha : a ∈ opTable) (hb : b ∈ opTable)
    (h : slice a.pattern.toNat 24 8 = slice b.pattern.toNat 24 8) : a = b :=
  List.inj_on_of_nodup_map (f := fun row : OpRow => slice row.pattern.toNat 24 8) (by decide) ha hb h

/-- No two rows have one mnemonic. -/
theorem opTable_mnemonic_inj {a b : OpRow} (ha : a ∈ opTable) (hb : b ∈ opTable) (h : a.mnemonic = b.mnemonic) :
    a = b :=
  List.inj_on_of_nodup_map (f := OpRow.mnemonic) (by decide) ha hb h

/-- Every command's word has the opcode of the command's row (Laws/PerInstr.lean, constructor by constructor). -/
theorem opcodeField : ∀ i : Instr, Laws.OpcodeField.Statement i
  | .nop => Laws.OpcodeField.nop
  | .ldc fd => Laws.OpcodeField.ldc fd
  | .ldr fd => Laws.OpcodeField.ldr fd
  | .stc fs => Laws.OpcodeField.stc fs
  | .str fs => Laws.OpcodeField.str fs
  | .ldi fd imm => Laws.OpcodeField.ldi fd imm
  | .mov fd fs1 => Laws.OpcodeField.mov fd fs1
  | .tomont fd fs1 => Laws.OpcodeField.tomont fd fs1
  | .frommont fd fs1 => Laws.OpcodeField.frommont fd fs1
  | .add fd fs1 fs2 => Laws.OpcodeField.add fd fs1 fs2
  | .sub fd fs1 fs2 => Laws.OpcodeField.sub fd fs1 fs2
  | .mul fd fs1 fs2 => Laws.OpcodeField.mul fd fs1 fs2
  | .neg fd fs1 => Laws.OpcodeField.neg fd fs1
  | .dbl fd fs1 => Laws.OpcodeField.dbl fd fs1
  | .sqr fd fs1 => Laws.OpcodeField.sqr fd fs1
  | .inv fd fs1 => Laws.OpcodeField.inv fd fs1
  | .eq fs1 fs2 => Laws.OpcodeField.eq fs1 fs2
  | .psettd t d => Laws.OpcodeField.psettd t d
  | .psetrnd f q => Laws.OpcodeField.psetrnd f q
  | .psetrc fs row col => Laws.OpcodeField.psetrc fs row col
  | .psetdg fs col => Laws.OpcodeField.psetdg fs col
  | .pcommit => Laws.OpcodeField.pcommit
  | .arc row => Laws.OpcodeField.arc row
  | .arcp row => Laws.OpcodeField.arcp row
  | .sbox fd fs1 => Laws.OpcodeField.sbox fd fs1
  | .sboxf => Laws.OpcodeField.sboxf
  | .mext => Laws.OpcodeField.mext
  | .mint => Laws.OpcodeField.mint
  | .perm w => Laws.OpcodeField.perm w
  | .cmpr fd fs1 fs2 => Laws.OpcodeField.cmpr fd fs1 fs2
  | .lwr fs idx => Laws.OpcodeField.lwr fs idx
  | .lrd fd idx => Laws.OpcodeField.lrd fd idx
  | .accum fd n => Laws.OpcodeField.accum fd n

/-- A word that decodes has the opcode of its mnemonic's row. -/
theorem row_of_decode {w : Word32} {i : Instr} (h : decode w = .ok i) :
    ∃ row ∈ opTable, row.mnemonic = i.mnemonic ∧ slice w.toNat 24 8 = slice row.pattern.toNat 24 8 := by
  have hrow := opcodeField i (wellFormed_of_decode h)
  rwa [encode_of_decode h] at hrow

/-- Settles O3: opcode and mnemonic both name the row, so a row matches the words that decode to its mnemonic. -/
theorem decoderAgreesWithOpcodeTable : Obligations.DecoderAgreesWithOpcodeTable := by
  refine ⟨⟨rfl, fun row hrow w => ?_⟩, fun w a ha b hb hwa hwb => ?_⟩
  · rw [opTable_matchesWhatDecodes row hrow w]
    constructor
    · rintro ⟨hop, i, hi⟩
      obtain ⟨row', hrow', hname, hop'⟩ := row_of_decode hi
      obtain rfl := opTable_opcode_inj hrow' hrow (hop'.symm.trans hop)
      exact ⟨i, hi, hname.symm⟩
    · rintro ⟨i, hi, hname⟩
      obtain ⟨row', hrow', hname', hop⟩ := row_of_decode hi
      obtain rfl := opTable_mnemonic_inj hrow' hrow (hname'.trans hname)
      exact ⟨hop, i, hi⟩
  · obtain ⟨hopa, -⟩ := (opTable_matchesWhatDecodes a ha w).mp hwa
    obtain ⟨hopb, -⟩ := (opTable_matchesWhatDecodes b hb w).mp hwb
    exact opTable_opcode_inj ha hb (hopa.symm.trans hopb)

/-- A word that no row matches is no command (30_encoding.md R96). -/
theorem decode_ne_ok_of_no_row {w : Word32} (h : ∀ row ∈ opTable, w &&& row.mask ≠ row.pattern) (i : Instr) :
    decode w ≠ .ok i := by
  intro hi
  obtain ⟨row, hrow, -, hop⟩ := row_of_decode hi
  exact h row hrow ((opTable_matchesWhatDecodes row hrow w).mpr ⟨hop, i, hi⟩)

end Sys2Proof

namespace Sys2Proof.Machine

/-- Settles O4: a word that no row matches does not decode, and a row matches only words of its opcode. -/
theorem illegalWordsRaiseIllegalCommand : Obligations.IllegalWordsRaiseIllegalCommand := by
  refine ⟨fun s w he hw => ?_, fun w hop row hrow hm => ?_, by decide +kernel⟩
  · rw [writeCmd_execute he, execute_illegal (decode_ne_ok_of_no_row hw)]
    exact ⟨_, rfl, raises_raise _ w s⟩
  · obtain ⟨hop', -⟩ := (opTable_matchesWhatDecodes row hrow w).mp hm
    exact hop row hrow hop'

end Sys2Proof.Machine
end

section
/-! LDV and STV as the transactions they are (30_encoding.md R101): eight DIN writes, a command, a command, eight DOUT
reads. -/

namespace Sys2Proof.Machine

/-- The first part of a run may be run first. -/
theorem stepN_add {m : Nat} {s t : State} (n : Nat) (h : stepN m s = .next t) : stepN (m + n) s = stepN n t := by
  induction m generalizing s with
  | zero =>
    obtain rfl : s = t := Host.Outcome.next.inj h
    rw [Nat.zero_add]
  | succ m ih =>
    rw [Nat.succ_add]
    cases hs : step s with
    | next u =>
      rw [stepN_succ _ hs] at h ⊢
      exact ih h
    | fault e => simp [stepN, hs] at h
    | refused e => simp [stepN, hs] at h

/-- The step of a command's own word, with no fault pending, runs the command (30_encoding.md R100). -/
theorem step_issue {s : State} {i : Instr} {rest : List HostInput} (he : s.err = false) (hi : i.wellFormed = true)
    (hx : s.inputs = issue i :: rest) : step s = exec i { s with inputs := rest } := by
  rw [step_writeCmd hx, writeCmd_execute (by exact he), execute_command (decodeOfEncode i hi)]

/- The DIN writes. -/

/-- The words `v k` written to the registers `DINk` of a list, one after another. -/
def writeDins (v : Fin 8 → Word32) (ks : List (Fin 8)) (s : State) : State :=
  ks.foldl (fun s k => writeDin k (v k) s) s

theorem writeDins_eq (v : Fin 8 → Word32) (ks : List (Fin 8)) (s : State) :
    writeDins v ks s = { s with din := (writeDins v ks s).din, dinm := (writeDins v ks s).dinm } := by
  induction ks generalizing s with
  | nil => rfl
  | cons k ks ih => exact ih (writeDin k (v k) s)

theorem writeDins_err (v : Fin 8 → Word32) (ks : List (Fin 8)) (s : State) : (writeDins v ks s).err = s.err := by
  rw [writeDins_eq]

theorem writeDins_inputs (v : Fin 8 → Word32) (ks : List (Fin 8)) (s : State) :
    (writeDins v ks s).inputs = s.inputs := by
  rw [writeDins_eq]

theorem writeDins_rdata (v : Fin 8 → Word32) (ks : List (Fin 8)) (s : State) :
    (writeDins v ks s).rdata = s.rdata := by
  rw [writeDins_eq]

theorem writeDins_din_entry (v : Fin 8 → Word32) (ks : List (Fin 8)) (s : State) (j : Fin 8) :
    (writeDins v ks s).din[j.val] = if j ∈ ks then v j else s.din[j.val] := by
  induction ks generalizing s with
  | nil => rfl
  | cons k ks ih =>
    refine (ih (writeDin k (v k) s)).trans ?_
    rw [writeDin_din_entry]
    grind

theorem writeDins_dinm_bit (v : Fin 8 → Word32) (ks : List (Fin 8)) (s : State) (j : Fin 8) :
    (writeDins v ks s).dinm.getLsbD j.val = (decide (j ∈ ks) || s.dinm.getLsbD j.val) := by
  induction ks generalizing s with
  | nil => rfl
  | cons k ks ih =>
    refine (ih (writeDin k (v k) s)).trans ?_
    rw [writeDin_dinm_bit]
    grind

theorem stepN_writeDins (v : Fin 8 → Word32) (ks : List (Fin 8)) {s : State} {rest : List HostInput}
    (hx : s.inputs = (ks.map fun k => .write (0x20 + 4 * k.val) 4 (v k)) ++ rest) :
    stepN ks.length s = .next (writeDins v ks { s with inputs := rest }) := by
  induction ks generalizing s with
  | nil =>
    obtain rfl : s.inputs = rest := hx
    rfl
  | cons k ks ih =>
    rw [List.length_cons, stepN_succ _ (step_writeDin hx)]
    exact ih rfl

/-- A number of 256 bits is the sum of its eight words (20_memory.md R66). -/
theorem sum_words {x : Nat} (hx : x < 2 ^ 256) :
    slice x 224 32 * 2 ^ 224 + slice x 192 32 * 2 ^ 192 + slice x 160 32 * 2 ^ 160 + slice x 128 32 * 2 ^ 128 +
      slice x 96 32 * 2 ^ 96 + slice x 64 32 * 2 ^ 64 + slice x 32 32 * 2 ^ 32 + slice x 0 32 = x := by
  simp only [slice]
  omega

/-- The chunk is the number whose words the DIN registers hold. -/
theorem chunk_eq_of_words {s : State} {x : Nat} (hx : x < 2 ^ 256)
    (hw : ∀ k : Fin 8, (s.din[k.val]).toNat = slice x (224 - 32 * k.val) 32) : s.chunk = x := by
  have h0 : s.din[0].toNat = slice x 224 32 := hw 0
  have h1 : s.din[1].toNat = slice x 192 32 := hw 1
  have h2 : s.din[2].toNat = slice x 160 32 := hw 2
  have h3 : s.din[3].toNat = slice x 128 32 := hw 3
  have h4 : s.din[4].toNat = slice x 96 32 := hw 4
  have h5 : s.din[5].toNat = slice x 64 32 := hw 5
  have h6 : s.din[6].toNat = slice x 32 32 := hw 6
  have h7 : s.din[7].toNat = slice x 0 32 := hw 7
  rw [chunk_eq_sum, h0, h1, h2, h3, h4, h5, h6, h7, sum_words hx]

/- The load. -/

/-- Word `k` of a number, most significant first, as `SETDIN` writes it. -/
def wordAt (x : Nat) (k : Fin 8) : Word32 := BitVec.ofNat 32 (slice x (224 - 32 * k.val) 32)

theorem pseudoSetdin_eq (x : Nat) :
    pseudoSetdin x = (List.finRange 8).map fun k => .write (0x20 + 4 * k.val) 4 (wordAt x k) := rfl

theorem wordAt_toNat (x : Nat) (k : Fin 8) : (wordAt x k).toNat = slice x (224 - 32 * k.val) 32 := by
  rw [wordAt, BitVec.toNat_ofNat]
  exact Nat.mod_eq_of_lt (slice_lt _ _ 32)

theorem chunk_writeDins {x : Nat} (hx : x < 2 ^ 256) (s : State) :
    (writeDins (wordAt x) (List.finRange 8) s).chunk = x :=
  chunk_eq_of_words hx fun k => by rw [writeDins_din_entry, if_pos (List.mem_finRange k), wordAt_toNat]

theorem chunkFull_writeDins (v : Fin 8 → Word32) (s : State) :
    (writeDins v (List.finRange 8) s).chunkFull = true := by
  refine decide_eq_true ?_
  have hmask (j : Fin 8) : (0xFF : BitVec 8).getLsbD j.val = true := by
    revert j
    decide
  refine BitVec.eq_of_getLsbD_eq fun b hb => ?_
  rw [writeDins_dinm_bit v (List.finRange 8) s ⟨b, hb⟩, decide_eq_true (List.mem_finRange _), Bool.true_or,
    hmask ⟨b, hb⟩]

/-- LDC of a complete chunk (40_field_move.md R121). -/
theorem exec_ldc_of_full {s : State} (h : s.chunkFull = true) (fd : Reg) :
    exec (.ldc fd) s = .next (s.setReg fd (mont (s.chunk % Config.p))).clearDinm := by
  change execLdc fd s = _
  rw [execLdc, raiseIf_eq, h]
  rfl

/- The store. -/

theorem step_readDout {s : State} {k : Fin 8} {rest : List HostInput}
    (h : s.inputs = .read (0x40 + 4 * k.val) 4 :: rest) :
    step s = .next { s with inputs := rest, rdata := s.dout[k.val] :: s.rdata } := by
  rw [step_cons h, busStep_read (by omega) (by omega), memRead, busReg_dout]
  rfl

theorem stepN_readDouts (ks : List (Fin 8)) {s : State} {rest : List HostInput}
    (hx : s.inputs = (ks.map fun k => .read (0x40 + 4 * k.val) 4) ++ rest) :
    stepN ks.length s =
      .next { s with inputs := rest, rdata := (ks.map fun k => s.dout[k.val]).reverse ++ s.rdata } := by
  induction ks generalizing s with
  | nil =>
    obtain rfl : s.inputs = rest := hx
    rfl
  | cons k ks ih =>
    rw [List.length_cons, stepN_succ _ (step_readDout hx), ih rfl]
    simp

theorem pseudoGetdout_eq : pseudoGetdout = (List.finRange 8).map fun k => .read (0x40 + 4 * k.val) 4 := rfl

theorem doutValue_eq_sum (v : Fin 8 → Word32) : doutValue ((List.finRange 8).map v) =
    (v 0).toNat * 2 ^ 224 + (v 1).toNat * 2 ^ 192 + (v 2).toNat * 2 ^ 160 + (v 3).toNat * 2 ^ 128 +
      (v 4).toNat * 2 ^ 96 + (v 5).toNat * 2 ^ 64 + (v 6).toNat * 2 ^ 32 + (v 7).toNat := by
  have hlist : (List.finRange 8).map v = [v 0, v 1, v 2, v 3, v 4, v 5, v 6, v 7] := rfl
  simp only [hlist, doutValue, List.foldl_cons, List.foldl_nil]
  ring

/-- The host puts the words of the output chunk together again. -/
theorem doutValue_setDout (s : State) {x : Nat} (hx : x < 2 ^ 256) :
    doutValue ((List.finRange 8).map fun k => (s.setDout x).dout[k.val]) = x := by
  rw [doutValue_eq_sum]
  simp only [setDout_dout_toNat]
  exact sum_words hx

/-- LDV: nine transactions leave the chunk's value in the register (30_encoding.md R101, 40_field_move.md R121). -/
theorem stepN_pseudoLdv {s : State} {fd : Reg} {x : Nat} {rest : List HostInput} (hx : x < 2 ^ 256) (he : s.err = false)
    (hin : s.inputs = pseudoLdv fd x ++ rest) :
    ∃ t, stepN 9 s = .next t ∧ t.inputs = rest ∧ t.err = false ∧ t.dinm = 0 ∧ t.regVal fd = x % Config.p ∧
      t.rdata = s.rdata := by
  rw [pseudoLdv, List.append_assoc, pseudoSetdin_eq] at hin
  obtain ⟨u, hu⟩ : ∃ u, u = writeDins (wordAt x) (List.finRange 8) { s with inputs := issue (.ldc fd) :: rest } :=
    ⟨_, rfl⟩
  have hwrites : stepN 8 s = .next u := hu ▸ stepN_writeDins (wordAt x) (List.finRange 8) hin
  have herr : u.err = false := hu ▸ (writeDins_err _ _ _).trans he
  have hinputs : u.inputs = issue (.ldc fd) :: rest := hu ▸ writeDins_inputs _ _ _
  have hfull : u.chunkFull = true := hu ▸ chunkFull_writeDins _ _
  have hchunk : u.chunk = x := hu ▸ chunk_writeDins hx _
  have hldc : step u = .next (({ u with inputs := rest }).setReg fd (mont (u.chunk % Config.p))).clearDinm :=
    (step_issue herr rfl hinputs).trans (exec_ldc_of_full (s := { u with inputs := rest }) hfull fd)
  refine ⟨_, (stepN_add 1 hwrites).trans (stepN_succ 0 hldc), rfl, herr, rfl, ?_, hu ▸ writeDins_rdata _ _ _⟩
  calc ((({ u with inputs := rest } : State).setReg fd (mont (u.chunk % Config.p))).clearDinm).regVal fd
    _ = val (mont (u.chunk % Config.p)) := regVal_setReg_self (mont_lt _)
    _ = x % Config.p := by rw [val_mont (Nat.mod_lt _ p_pos), hchunk]

/-- STV: nine transactions read the register's value into the host's hands (30_encoding.md R101, 40_field_move.md
R123). -/
theorem stepN_pseudoStv {s : State} {fs : Reg} {rest : List HostInput} (he : s.err = false)
    (hin : s.inputs = pseudoStv fs ++ rest) :
    ∃ words, stepN 9 s = .next { s.setDout (s.regVal fs) with inputs := rest, rdata := words.reverse ++ s.rdata } ∧
      words.length = 8 ∧ doutValue words = s.regVal fs := by
  rw [pseudoStv, pseudoGetdout_eq] at hin
  obtain ⟨u, hu⟩ : ∃ u : State, u = { s.setDout (s.regVal fs) with
      inputs := (List.finRange 8).map (fun k => .read (0x40 + 4 * k.val) 4) ++ rest } := ⟨_, rfl⟩
  have hstc : step s = .next u := hu ▸ step_issue he rfl hin
  have hreads := stepN_readDouts (List.finRange 8) (s := u) (rest := rest) (by subst hu; rfl)
  refine ⟨(List.finRange 8).map fun k => u.dout[k.val], (stepN_succ 8 hstc).trans (hreads.trans (by subst hu; rfl)),
    rfl, ?_⟩
  subst hu
  exact doutValue_setDout s ((val_lt _).trans p_lt_two_pow)

/-- Settles O35: LDV leaves the value in the register, and STV reads the register's value. -/
theorem loadedValueReadsBack : Obligations.LoadedValueReadsBack := by
  intro s fd x rest hx he hin
  rw [List.append_assoc] at hin
  obtain ⟨u, hldv, hinputs, herr, hdinm, hval, hrdata⟩ := stepN_pseudoLdv hx he hin
  obtain ⟨words, hstv, hlen, hwords⟩ := stepN_pseudoStv herr hinputs
  refine ⟨_, (stepN_add 9 hldv).trans hstv, rfl, herr, hdinm, ?_, ?_⟩
  · rw [List.take_left' (by rw [List.length_reverse, hlen]), List.reverse_reverse, hwords, hval]
  · rw [List.drop_left' (by rw [List.length_reverse, hlen]), hrdata]

end Sys2Proof.Machine
end

section
/-! Data movement and representation (40_field_move.md): loads, stores and conversions, each as its write of a register
or of the output chunk. -/

namespace Sys2Proof.Machine

/- Registers. -/

theorem reg_lt (s : State) (r : Reg) : s.reg r < 2 ^ 256 := (s.f[r.val]).isLt

theorem regVal_lt (s : State) (r : Reg) : s.regVal r < Config.p := val_lt _

/-- Writing a register with its own word changes nothing. -/
theorem setReg_reg (s : State) (r : Reg) : s.setReg r (s.reg r) = s := by
  rw [State.setReg, State.reg, BitVec.ofNat_toNat, BitVec.setWidth_eq, Vector.set_getElem_self]

/-- The last of two writes of a register is the one that stays. -/
theorem setReg_setReg (s : State) (r : Reg) (m n : Nat) : (s.setReg r m).setReg r n = s.setReg r n := by
  simp only [State.setReg, Vector.set_set]

theorem reg_clearDinm (s : State) (r : Reg) : s.clearDinm.reg r = s.reg r := rfl

theorem setReg_clearDinm (s : State) (r : Reg) (n : Nat) : s.clearDinm.setReg r n = (s.setReg r n).clearDinm := rfl

/-- `mont` encodes any word's value back, reduced (00_scope.md R11). -/
theorem mont_val_mod (w : Nat) : mont (val w) = w % Config.p := by
  refine eq_of_zmod (mont_lt _) (Nat.mod_lt _ p_pos) ?_
  rw [zmod_mont, zmod_val, mul_assoc, mul_comm (Config.Rinv : ZMod Config.p), zmod_R_mul_Rinv, mul_one, zmod_mod]

/- NOP. -/

theorem decode_zero : decode 0 = .ok .nop := decodeOfEncode .nop rfl

/-- Settles O30: the word 0 is NOP, so a write of it runs NOP or is dropped. -/
theorem nopChangesNothing : Obligations.NopChangesNothing := by
  refine ⟨decode_zero, fun s => ⟨rfl, ?_⟩⟩
  cases he : s.err with
  | true => exact writeCmd_dropped he 0
  | false => exact (writeCmd_execute he 0).trans (execute_command decode_zero s)

/- LDC and LDR. -/

/-- A command whose next check fails raises the cause of that check (60_exceptions.md R244). -/
theorem faultsWith_of_check {i : Instr} {s : State} {c : Cause} {bad : Bool} {k : Result}
    (h : exec i s = raiseIf bad i s c k) (hbad : bad = true) : FaultsWith i s c := by
  rw [raiseIf_eq, if_pos hbad] at h
  exact ⟨_, h, raises_raise c (encode i) s⟩

/-- A command goes on where its next check finds nothing (60_exceptions.md R244). -/
theorem raiseIf_pass {bad : Bool} (h : bad = false) (i : Instr) (s : State) (c : Cause) (k : Result) :
    raiseIf bad i s c k = k := by
  rw [raiseIf_eq, h, if_neg Bool.false_ne_true]

theorem chunkFull_iff (s : State) : s.chunkFull = true ↔ s.dinm = 0xFF := decide_eq_true_iff

theorem not_chunkFull {s : State} (h : s.dinm ≠ 0xFF) : (!s.chunkFull) = true := by
  rw [Bool.not_eq_true', ← Bool.not_eq_true, chunkFull_iff]
  exact h

/-- LDR of a complete chunk goes on to the range check (40_field_move.md R122). -/
theorem exec_ldr_of_full {s : State} (h : s.chunkFull = true) (fd : Reg) : exec (.ldr fd) s =
    raiseIf (decide (Config.p ≤ s.chunk)) (.ldr fd) s .rawRange (.next (s.setReg fd s.chunk).clearDinm) := by
  change execLdr fd s = _
  rw [execLdr, raiseIf_pass (by rw [h, Bool.not_true])]

/-- LDR of a complete chunk below p loads it (40_field_move.md R122). -/
theorem exec_ldr_of_lt {s : State} (h : s.chunkFull = true) (hlt : s.chunk < Config.p) (fd : Reg) :
    exec (.ldr fd) s = .next (s.setReg fd s.chunk).clearDinm := by
  rw [exec_ldr_of_full h, raiseIf_pass (decide_eq_false hlt.not_ge)]

/-- A load writes one register and the mask (40_field_move.md R121, R122). -/
theorem load_frame (s : State) (fd : Reg) (n : Nat) :
    (∀ r, r ≠ fd → (s.setReg fd n).clearDinm.reg r = s.reg r) ∧ SameStores s (s.setReg fd n).clearDinm ∧
      (s.setReg fd n).clearDinm =
        { s with f := (s.setReg fd n).clearDinm.f, dinm := (s.setReg fd n).clearDinm.dinm } := by
  obtain ⟨hregs, hstores, -⟩ := onlyReg_setReg s fd n
  exact ⟨hregs, hstores, rfl⟩

/-- Settles O31: the mask is checked first, then LDR's range, and a load without a fault writes one register. -/
theorem ldcAndLdrLoadTheChunk : Obligations.LdcAndLdrLoadTheChunk := by
  refine ⟨fun fd s => ⟨decodeOfEncode (.ldc fd) rfl, fun hm => ?_, fun hm => ?_⟩,
    fun fd s => ⟨decodeOfEncode (.ldr fd) rfl, fun hm => ?_, fun hm hge => ?_, fun hm hlt => ?_⟩⟩
  · exact faultsWith_of_check rfl (not_chunkFull hm)
  · have hval : (s.setReg fd (mont (s.chunk % Config.p))).regVal fd = s.chunk % Config.p := by
      rw [regVal_setReg_self (mont_lt _), val_mont (Nat.mod_lt _ p_pos)]
    exact ⟨_, exec_ldc_of_full ((chunkFull_iff s).mpr hm) fd, hval, reg_setReg_self (mont_lt _), rfl,
      load_frame s fd _⟩
  · exact faultsWith_of_check rfl (not_chunkFull hm)
  · exact faultsWith_of_check (exec_ldr_of_full ((chunkFull_iff s).mpr hm) fd) (decide_eq_true hge)
  · exact ⟨_, exec_ldr_of_lt ((chunkFull_iff s).mpr hm) hlt fd, reg_setReg_self hlt, rfl, load_frame s fd _⟩

/- STC and STR. -/

/-- The number over DOUT after a number was put there (20_memory.md R66). -/
theorem doutChunk_setDout (s : State) {x : Nat} (hx : x < 2 ^ 256) : (s.setDout x).doutChunk = x := by
  have hlist : (s.setDout x).dout.toList = (List.finRange 8).map fun k => (s.setDout x).dout[k.val] :=
    List.ext_getElem (by simp) fun k _ _ => by simp
  rw [State.doutChunk, hlist, doutValue_setDout s hx]

/-- Settles O32: a store puts the words of its number into DOUT, and a residue mod p has 254 bits. -/
theorem stcAndStrStoreTheChunk : Obligations.StcAndStrStoreTheChunk := by
  refine fun fs s => ⟨decodeOfEncode (.stc fs) rfl, decodeOfEncode (.str fs) rfl, ?_, ?_⟩
  · have hsum : (s.setDout (s.regVal fs)).doutChunk = s.regVal fs :=
      doutChunk_setDout s ((regVal_lt s fs).trans p_lt_two_pow)
    have htop : (s.setDout (s.regVal fs)).dout[0].toNat < 2 ^ 30 := by
      have hval : s.regVal fs < 2 ^ 254 := (regVal_lt s fs).trans p_lt_two_pow_254
      have hword : (s.setDout (s.regVal fs)).dout[0].toNat = slice (s.regVal fs) 224 32 := setDout_dout_toNat s _ 0
      rw [hword, slice]
      omega
    exact ⟨s.setDout (s.regVal fs), rfl, onlyDout_setDout s _, hsum, setDout_dout_toNat s _, htop⟩
  · exact ⟨s.setDout (s.reg fs), rfl, onlyDout_setDout s _, doutChunk_setDout s (reg_lt s fs),
      setDout_dout_toNat s _⟩

/- LDI and MOV. -/

/-- Settles O33: an immediate is below p, and a word copied onto itself is as it was. -/
theorem ldiAndMovWriteOneRegister : Obligations.LdiAndMovWriteOneRegister := by
  refine ⟨fun fd imm s hi => ⟨decodeOfEncode (.ldi fd imm) (decide_eq_true hi), ?_⟩,
    fun fd fs1 s => ⟨decodeOfEncode (.mov fd fs1) rfl, ?_, ?_⟩⟩
  · have himm : imm < Config.p := hi.trans (by decide)
    have hval : (s.setReg fd (mont imm)).regVal fd = imm := (regVal_setReg_self (mont_lt _)).trans (val_mont himm)
    exact ⟨s.setReg fd (mont imm), rfl, hval, reg_setReg_self (mont_lt _), onlyReg_setReg s fd _⟩
  · have hreg : (s.setReg fd (s.reg fs1)).reg fd = s.reg fs1 := by
      rw [reg_setReg, if_pos rfl, Nat.mod_eq_of_lt (reg_lt s fs1)]
    exact ⟨s.setReg fd (s.reg fs1), rfl, hreg, onlyReg_setReg s fd _⟩
  · exact congrArg Host.Outcome.next (setReg_reg s fd)

/- TOMONT and FROMMONT. -/

theorem exec_tomont (fd fs1 : Reg) (s : State) :
    exec (.tomont fd fs1) s = .next (s.setReg fd (mont (s.reg fs1))) := rfl

theorem exec_frommont (fd fs1 : Reg) (s : State) :
    exec (.frommont fd fs1) s = .next (s.setReg fd (s.regVal fs1)) := rfl

/-- The value of an encoded word is the word reduced, which is what the radix makes of the word's value. -/
theorem val_mont_eq_mul (w : Nat) : val (mont w) = val w * (2 ^ 256 % Config.p) % Config.p :=
  calc val (mont w)
    _ = mont (val w) := by rw [val_mont_mod, mont_val_mod]
    _ = val w * (2 ^ 256 % Config.p) % Config.p := (Nat.mul_mod_mod _ _ _).symm

/-- FROMMONT then STR leaves the output chunk of STC (40_field_move.md R128). -/
theorem str_frommont_eq_stc (fd fs1 : Reg) (s : State) :
    ∃ a b, exec (.str fd) (s.setReg fd (s.regVal fs1)) = .next a ∧ exec (.stc fs1) s = .next b ∧
      a.dout = b.dout := by
  have hreg : (s.setReg fd (s.regVal fs1)).reg fd = s.regVal fs1 := reg_setReg_self (regVal_lt s fs1)
  refine ⟨_, _, rfl, rfl, ?_⟩
  rw [hreg]
  rfl

/-- FROMMONT then TOMONT restores a word below p (40_field_move.md R128). -/
theorem tomont_frommont (fd fs1 : Reg) {s : State} (h : s.reg fs1 < Config.p) :
    ∃ t u, exec (.frommont fd fs1) s = .next t ∧ exec (.tomont fd fd) t = .next u ∧ u.reg fd = s.reg fs1 := by
  refine ⟨_, _, exec_frommont fd fs1 s, exec_tomont fd fd _, ?_⟩
  rw [reg_setReg_self (mont_lt _), reg_setReg_self (regVal_lt _ _), State.regVal, mont_val h]

/-- TOMONT then FROMMONT restores a word below p (40_field_move.md R128). -/
theorem frommont_tomont (fd fs1 : Reg) {s : State} (h : s.reg fs1 < Config.p) :
    ∃ t u, exec (.tomont fd fs1) s = .next t ∧ exec (.frommont fd fd) t = .next u ∧ u.reg fd = s.reg fs1 := by
  refine ⟨_, _, exec_tomont fd fs1 s, exec_frommont fd fd _, ?_⟩
  rw [reg_setReg_self (regVal_lt _ _), regVal_setReg_self (mont_lt _), val_mont h]

/-- LDR then TOMONT of a chunk below p is LDC of it (40_field_move.md R127). -/
theorem tomont_ldr_eq_ldc {s : State} (hfull : s.chunkFull = true) (hlt : s.chunk < Config.p) (fd : Reg) :
    ∃ t u, exec (.ldr fd) s = .next t ∧ exec (.tomont fd fd) t = .next u ∧ exec (.ldc fd) s = .next u := by
  refine ⟨_, _, exec_ldr_of_lt hfull hlt fd, exec_tomont fd fd _, ?_⟩
  rw [exec_ldc_of_full hfull, reg_clearDinm, reg_setReg_self hlt, setReg_clearDinm, setReg_setReg,
    Nat.mod_eq_of_lt hlt]

/-- Settles O34: `mont` and `val` undo each other below p, and the encoded chunk is what LDC writes. -/
theorem tomontAndFrommontConvert : Obligations.TomontAndFrommontConvert := by
  refine ⟨fun fd fs1 s => ⟨decodeOfEncode (.tomont fd fs1) rfl, ?_⟩,
    fun fd fs1 s => ⟨decodeOfEncode (.frommont fd fs1) rfl, ?_, fun hlt => ?_, fun hm hlt => ?_⟩⟩
  · have hval : (s.setReg fd (mont (s.reg fs1))).regVal fd = s.regVal fs1 * (2 ^ 256 % Config.p) % Config.p :=
      (regVal_setReg_self (mont_lt _)).trans (val_mont_eq_mul _)
    exact ⟨_, exec_tomont fd fs1 s, reg_setReg_self (mont_lt _), hval, onlyReg_setReg s fd _⟩
  · have hreg : (s.setReg fd (s.regVal fs1)).reg fd = s.regVal fs1 := reg_setReg_self (regVal_lt s fs1)
    exact ⟨_, exec_frommont fd fs1 s, hreg, hreg, onlyReg_setReg s fd _, str_frommont_eq_stc fd fs1 s⟩
  · exact ⟨tomont_frommont fd fs1 hlt, frommont_tomont fd fs1 hlt⟩
  · exact tomont_ldr_eq_ldc ((chunkFull_iff s).mpr hm) hlt fd

end Sys2Proof.Machine
end

section
/-! Field arithmetic (41_field_arith.md): the laws of the field on the functions the commands use, and each command as
its write of one register or of `EQF`. -/

namespace Sys2Proof.Machine

/- The laws of the field, through the images in `ZMod p` (R149). -/

theorem fadd_comm (x y : Nat) : fadd x y = fadd y x := congrArg (· % Config.p) (Nat.add_comm x y)

theorem fadd_assoc (x y z : Nat) : fadd (fadd x y) z = fadd x (fadd y z) :=
  eq_of_zmod (fadd_lt _ _) (fadd_lt _ _) (by simp only [zmod_fadd, add_assoc])

theorem fadd_zero {x : Nat} (hx : x < Config.p) : fadd x 0 = x := Nat.mod_eq_of_lt hx

theorem fadd_neg (x : Nat) : fadd x (fsub 0 x) = 0 :=
  eq_of_zmod (fadd_lt _ _) p_pos (by simp only [zmod_fadd, zmod_fsub, Nat.cast_zero, zero_sub, add_neg_cancel])

theorem fsub_eq_fadd_neg (x y : Nat) : fsub x y = fadd x (fsub 0 y) :=
  eq_of_zmod (fsub_lt _ _) (fadd_lt _ _)
    (by simp only [zmod_fadd, zmod_fsub, Nat.cast_zero, sub_eq_add_neg, zero_add])

theorem fmul_comm (x y : Nat) : fmul x y = fmul y x := congrArg (· % Config.p) (Nat.mul_comm x y)

theorem fmul_assoc (x y z : Nat) : fmul (fmul x y) z = fmul x (fmul y z) :=
  eq_of_zmod (fmul_lt _ _) (fmul_lt _ _) (by simp only [zmod_fmul, mul_assoc])

theorem fmul_one {x : Nat} (hx : x < Config.p) : fmul x 1 = x := by rw [fmul, Nat.mul_one, Nat.mod_eq_of_lt hx]

theorem fmul_zero (x : Nat) : fmul x 0 = 0 := Nat.zero_mod _

theorem fmul_fadd (x y z : Nat) : fmul x (fadd y z) = fadd (fmul x y) (fmul x z) :=
  eq_of_zmod (fmul_lt _ _) (fadd_lt _ _) (by simp only [zmod_fmul, zmod_fadd, mul_add])

theorem fdbl_eq_fadd_self (x : Nat) : fdbl x = fadd x x := congrArg (· % Config.p) (Nat.two_mul x)

theorem mod_p_ne_zero {x : Nat} (hx : x < Config.p) (h0 : x ≠ 0) : x % Config.p ≠ 0 := by
  rwa [Nat.mod_eq_of_lt hx]

/-- A non-zero value is the inverse of its inverse, since the inverse is unique. -/
theorem finv_finv {x : Nat} (hx : x < Config.p) (h0 : x ≠ 0) : finv (finv x) = x := by
  have hprod : fmul (finv x) x = 1 := (fmul_comm _ _).trans (fmul_finv (mod_p_ne_zero hx h0))
  exact (finv_unique hx hprod).symm

/-- Settles O42. -/
theorem fieldIdentitiesHold : Obligations.FieldIdentitiesHold := fun x y z hx _ _ =>
  ⟨fadd_comm x y, fadd_assoc x y z, fadd_zero hx, fadd_neg x, fsub_eq_fadd_neg x y, fmul_comm x y,
    fmul_assoc x y z, fmul_one hx, fmul_zero x, fmul_fadd x y z, fdbl_eq_fadd_self x,
    (fsub_eq_fadd_neg 0 0).trans (fadd_neg 0), fun h0 => ⟨fmul_finv (mod_p_ne_zero hx h0), finv_finv hx h0,
      (finv_pos (mod_p_ne_zero hx h0)).ne'⟩⟩

/- Subtraction as a residue of integers (R142, R144). -/

theorem intCast_fsub (a b : Nat) : ((fsub a b : Nat) : Int) = ((a : Int) - b) % (Config.p : Int) :=
  Int.toNat_of_nonneg (Int.emod_nonneg _ (by exact_mod_cast p_pos.ne'))

/-- The negative by cases: 0 for 0, never p (41_field_arith.md R144). -/
theorem fsub_zero_eq_ite {a : Nat} (ha : a < Config.p) : fsub 0 a = if a = 0 then 0 else Config.p - a := by
  rw [fsub_eq_ite p_pos ha]
  simp only [Nat.le_zero, Nat.zero_sub, Nat.zero_add]

/- The commands that write one register. -/

theorem exec_add (fd a b : Reg) (s : State) :
    exec (.add fd a b) s = .next (s.setReg fd (fadd (s.reg a) (s.reg b))) := rfl

theorem exec_sub (fd a b : Reg) (s : State) :
    exec (.sub fd a b) s = .next (s.setReg fd (fsub (s.reg a) (s.reg b))) := rfl

theorem exec_mul (fd a b : Reg) (s : State) :
    exec (.mul fd a b) s = .next (s.setReg fd (montMul (s.reg a) (s.reg b))) := rfl

theorem exec_neg (fd a : Reg) (s : State) : exec (.neg fd a) s = .next (s.setReg fd (fsub 0 (s.reg a))) := rfl

theorem exec_dbl_eq_add (fd a : Reg) (s : State) : exec (.dbl fd a) s = exec (.add fd a a) s :=
  congrArg (fun n => Host.Outcome.next (s.setReg fd n)) (fdbl_eq_fadd_self (s.reg a))

theorem exec_sqr_eq_mul (fd a : Reg) (s : State) : exec (.sqr fd a) s = exec (.mul fd a a) s := rfl

/-- The value that ADD leaves is the sum of the values (41_field_arith.md R141). -/
theorem regVal_add (fd a b : Reg) (s : State) :
    (s.setReg fd (fadd (s.reg a) (s.reg b))).regVal fd = fadd (s.regVal a) (s.regVal b) :=
  (regVal_setReg_self (fadd_lt _ _)).trans (val_fadd _ _)

/-- The value that SUB leaves is the difference of the values (41_field_arith.md R142). -/
theorem regVal_sub (fd a b : Reg) (s : State) :
    (s.setReg fd (fsub (s.reg a) (s.reg b))).regVal fd = fsub (s.regVal a) (s.regVal b) :=
  (regVal_setReg_self (fsub_lt _ _)).trans (val_fsub _ _)

/-- The value that MUL leaves is the product of the values (41_field_arith.md R143). -/
theorem regVal_mul (fd a b : Reg) (s : State) :
    (s.setReg fd (montMul (s.reg a) (s.reg b))).regVal fd = fmul (s.regVal a) (s.regVal b) :=
  (regVal_setReg_self (montMul_lt _ _)).trans (val_montMul _ _)

/-- The value that NEG leaves is the negative of the value (41_field_arith.md R144). -/
theorem regVal_neg (fd a : Reg) (s : State) :
    (s.setReg fd (fsub 0 (s.reg a))).regVal fd = fsub 0 (s.regVal a) := by
  rw [regVal_setReg_self (fsub_lt _ _), val_fsub, val_zero, State.regVal]

/-- Settles O36: the value of the written sum or difference is that of the values. -/
theorem addAndSubAreModP : Obligations.AddAndSubAreModP := by
  refine ⟨fun fd a b s => ⟨decodeOfEncode (.add fd a b) rfl, ?_⟩,
    fun fd a b s => ⟨decodeOfEncode (.sub fd a b) rfl, ?_⟩⟩
  · exact ⟨_, exec_add fd a b s, regVal_add fd a b s, reg_setReg_self (fadd_lt _ _), onlyReg_setReg s fd _⟩
  · refine ⟨_, exec_sub fd a b s, ?_, ?_, fun ha hb => ?_, onlyReg_setReg s fd _⟩
    · rw [regVal_sub, intCast_fsub]
    · rw [reg_setReg_self (fsub_lt _ _), intCast_fsub]
    · rw [reg_setReg_self (fsub_lt _ _), fsub_eq_ite ha hb]

/-- Settles O37. -/
theorem mulMultipliesModP : Obligations.MulMultipliesModP := fun fd a b s =>
  ⟨decodeOfEncode (.mul fd a b) rfl, _, exec_mul fd a b s, regVal_mul fd a b s, reg_setReg_self (montMul_lt _ _),
    onlyReg_setReg s fd _⟩

/-- Settles O38: NEG is the difference from 0, whose word is 0. -/
theorem negNegatesModP : Obligations.NegNegatesModP := by
  refine fun fd a s => ⟨decodeOfEncode (.neg fd a) rfl, _, exec_neg fd a s, ?_, ?_, fun ha => ?_, ?_,
    onlyReg_setReg s fd _⟩
  · rw [regVal_neg, intCast_fsub, Nat.cast_zero]
  · rw [reg_setReg_self (fsub_lt _ _), intCast_fsub, Nat.cast_zero]
  · rw [reg_setReg_self (fsub_lt _ _), fsub_zero_eq_ite ha]
  · rw [regVal_neg, fsub_zero_eq_ite (regVal_lt s a)]

/-- Settles O39: DBL and SQR are ADD and MUL of a register with itself. -/
theorem dblAndSqrAreModP : Obligations.DblAndSqrAreModP := by
  refine ⟨fun fd a s => ⟨decodeOfEncode (.dbl fd a) rfl, ?_⟩, fun fd a s => ⟨decodeOfEncode (.sqr fd a) rfl, ?_⟩⟩
  · have hword : (s.setReg fd (fadd (s.reg a) (s.reg a))).reg fd = fdbl (s.reg a) := by
      rw [reg_setReg_self (fadd_lt _ _), fdbl_eq_fadd_self]
    exact ⟨_, exec_dbl_eq_add fd a s, exec_add fd a a s, regVal_add fd a a s, hword, onlyReg_setReg s fd _⟩
  · exact ⟨_, exec_sqr_eq_mul fd a s, exec_mul fd a a s, regVal_mul fd a a s, reg_setReg_self (montMul_lt _ _),
      onlyReg_setReg s fd _⟩

/- INV. -/

/-- INV makes one check of its source and then writes the encoded inverse of its value (41_field_arith.md R147). -/
theorem exec_inv (fd a : Reg) (s : State) : exec (.inv fd a) s =
    raiseIf (decide (s.reg a = 0)) (.inv fd a) s .notInvertible (.next (s.setReg fd (mont (finv (s.regVal a))))) :=
  rfl

theorem exec_inv_of_ne_zero {s : State} {a : Reg} (h0 : s.reg a ≠ 0) (fd : Reg) :
    exec (.inv fd a) s = .next (s.setReg fd (mont (finv (s.regVal a)))) := by
  rw [exec_inv, raiseIf_pass (decide_eq_false h0)]

/-- Settles O40: a non-zero word below p has a non-zero value, and `finv` of it is the one inverse. -/
theorem invGivesTheUniqueInverse : Obligations.InvGivesTheUniqueInverse := by
  refine fun fd a s => ⟨decodeOfEncode (.inv fd a) rfl, fun h0 => ?_, fun hlt => (val_eq_zero_iff hlt).symm,
    fun hlt h0 => ?_⟩
  · exact faultsWith_of_check (exec_inv fd a s) (decide_eq_true h0)
  · have hval : s.regVal a % Config.p ≠ 0 := mod_p_ne_zero (regVal_lt s a) (mt (val_eq_zero_iff hlt).mp h0)
    have hres : (s.setReg fd (mont (finv (s.regVal a)))).regVal fd = finv (s.regVal a) := by
      rw [regVal_setReg_self (mont_lt _), val_mont (finv_lt _)]
    exact ⟨_, finv (s.regVal a), exec_inv_of_ne_zero h0 fd, finv_pos hval, finv_lt _, fmul_finv hval,
      fun _ hy hprod => finv_unique hy hprod, hres, reg_setReg_self (mont_lt _), onlyReg_setReg s fd _⟩

/- EQ. -/

theorem exec_eq (a b : Reg) (s : State) :
    exec (.eq a b) s = .next (s.setEqf (decide (s.reg a = s.reg b))) := rfl

/-- Writing `EQF` changes no store (41_field_arith.md R148). -/
theorem sameStores_setEqf (s : State) (b : Bool) : SameStores s (s.setEqf b) :=
  ⟨fun _ => rfl, fun _ _ => rfl, fun _ => rfl⟩

/-- Two words below p are equal exactly when their values are (00_scope.md R11, 10_state.md R23). -/
theorem reg_eq_iff_regVal_eq {s : State} {a b : Reg} (ha : s.reg a < Config.p) (hb : s.reg b < Config.p) :
    s.reg a = s.reg b ↔ s.regVal a = s.regVal b :=
  ⟨congrArg val, val_inj ha hb⟩

/-- Settles O41: EQF is the comparison of the words, and `val` is injective below p. -/
theorem eqComparesTheWords : Obligations.EqComparesTheWords := by
  intro a b s
  have heqf : (s.setEqf (decide (s.reg a = s.reg b))).eqf = true ↔ s.reg a = s.reg b := decide_eq_true_iff
  exact ⟨decodeOfEncode (.eq a b) rfl, _, exec_eq a b s, heqf, sameStores_setEqf s _, rfl,
    fun ha hb => heqf.trans (reg_eq_iff_regVal_eq ha hb)⟩

end Sys2Proof.Machine
end

section
/-! The parameter commands (42_params.md): each as its write behind its checks, and the checks of PCOMMIT as one
equation per outcome. -/

namespace Sys2Proof.Machine

/-- A parameter command goes on in CONFIG mode (60_exceptions.md R252). -/
theorem inConfig_pass {s : State} (hr : s.run = false) (i : Instr) (k : Result) : inConfig i s k = k := by
  rw [inConfig_eq, hr, if_neg Bool.false_ne_true]

/- PSETTD and PSETRND. -/

theorem exec_psettd_of_config {s : State} (hr : s.run = false) (t d : Nat) : exec (.psettd t d) s =
    .next { s with P := { s.P with t := BitVec.ofNat 5 t, d := BitVec.ofNat 4 d } } :=
  inConfig_pass hr (.psettd t d) _

theorem exec_psetrnd_of_config {s : State} (hr : s.run = false) (a b : Nat) : exec (.psetrnd a b) s =
    .next { s with P := { s.P with roundsF := BitVec.ofNat 8 a, roundsP := BitVec.ofNat 8 b } } :=
  inConfig_pass hr (.psetrnd a b) _

theorem sameStores_params (s : State) (P : Params) : SameStores s { s with P := P } :=
  ⟨fun _ => rfl, fun _ _ => rfl, fun _ => rfl⟩

/-- Settles O43: a field that fits its scalar is the number the scalar holds. -/
theorem psettdAndPsetrndWriteTheScalars : Obligations.PsettdAndPsetrndWriteTheScalars := by
  refine ⟨fun t d s ht hd => ⟨decode_encode_psettd ht hd, faultsWith_paramsLocked rfl, fun hr => ?_⟩,
    fun a b s ha hb => ⟨decode_encode_psetrnd ha hb, faultsWith_paramsLocked rfl, fun hr => ?_⟩⟩
  · exact ⟨_, exec_psettd_of_config hr t d, Nat.mod_eq_of_lt ht, Nat.mod_eq_of_lt hd, rfl, rfl,
      sameStores_params s _, rfl⟩
  · exact ⟨_, exec_psetrnd_of_config hr a b, Nat.mod_eq_of_lt ha, Nat.mod_eq_of_lt hb, rfl, rfl,
      sameStores_params s _, rfl⟩

/- PSETRC and PSETDG. -/

theorem exec_psetrc_of_config {s : State} (hr : s.run = false) (fs : Reg) (row col : Nat) :
    exec (.psetrc fs row col) s =
      raiseIf (decide (Config.tmax ≤ col)) (.psetrc fs row col) s .indexRange (.next (s.setRc row col s.f[fs.val])) :=
  inConfig_pass hr (.psetrc fs row col) _

theorem exec_psetdg_of_config {s : State} (hr : s.run = false) (fs : Reg) (col : Nat) : exec (.psetdg fs col) s =
    raiseIf (decide (Config.tmax ≤ col)) (.psetdg fs col) s .indexRange (.next (s.setDg col s.f[fs.val])) :=
  inConfig_pass hr (.psetdg fs col) _

theorem exec_psetrc_of_lt {s : State} (hr : s.run = false) (fs : Reg) (row : Nat) {col : Nat} (hc : col < Config.tmax) :
    exec (.psetrc fs row col) s = .next (s.setRc row col s.f[fs.val]) := by
  rw [exec_psetrc_of_config hr, raiseIf_pass (decide_eq_false hc.not_ge)]

theorem exec_psetdg_of_lt {s : State} (hr : s.run = false) (fs : Reg) {col : Nat} (hc : col < Config.tmax) :
    exec (.psetdg fs col) s = .next (s.setDg col s.f[fs.val]) := by
  rw [exec_psetdg_of_config hr, raiseIf_pass (decide_eq_false hc.not_ge)]

/-- Settles O44: behind the two checks stands one write of a store, whose every entry `rcAt?_setRc` and `dgAt?_setDg`
give. -/
theorem psetrcAndPsetdgWriteOneEntry : Obligations.PsetrcAndPsetdgWriteOneEntry := by
  refine ⟨fun fs row col s hrow hcol => ⟨decode_encode_psetrc fs hrow hcol, faultsWith_paramsLocked rfl,
      fun hr hge => ?_, fun hr hlt => ?_⟩,
    fun fs col s hcol => ⟨decode_encode_psetdg fs hcol, faultsWith_paramsLocked rfl,
      fun hr hge => ?_, fun hr hlt => ?_⟩⟩
  · exact faultsWith_of_check (exec_psetrc_of_config hr fs row col) (decide_eq_true hge)
  · exact ⟨_, exec_psetrc_of_lt hr fs row hlt, fun r c => rcAt?_setRc s hrow hlt r c _, fun _ => rfl, rfl⟩
  · exact faultsWith_of_check (exec_psetdg_of_config hr fs col) (decide_eq_true hge)
  · exact ⟨_, exec_psetdg_of_lt hr fs hlt, fun c => dgAt?_setDg s hlt c _, fun _ => rfl, rfl⟩

/- PCOMMIT. -/

section CommitFault

variable {s : State}

/-! The outcomes of the checks of PCOMMIT (42_params.md R165), each from the checks before it; that all pass is
`committable_iff`. -/

theorem commitFault_width (ht : s.t ∉ Config.tset) : s.commitFault = some .unsupportedStateWidth := if_pos ht

theorem commitFault_degree (ht : s.t ∈ Config.tset) (hd : s.d ∉ Config.dset) :
    s.commitFault = some .unsupportedSboxDegree := by
  rw [State.commitFault, if_neg (not_not_intro ht), if_pos hd]

theorem commitFault_odd (ht : s.t ∈ Config.tset) (hd : s.d ∈ Config.dset) (hf : s.roundsF % 2 = 1) :
    s.commitFault = some .oddFullRounds := by
  rw [State.commitFault, if_neg (not_not_intro ht), if_neg (not_not_intro hd), if_pos hf]

/-- Too many rows, a round-constant store and a diagonal of the wrong shape answer the same fault. -/
theorem commitFault_shape (ht : s.t ∈ Config.tset) (hd : s.d ∈ Config.dset) (hf : s.roundsF % 2 = 0)
    (hbad : Config.nrMax < s.rows ∨ s.rcShape = false ∨ s.dgShape = false) :
    s.commitFault = some .constantTableShape := by
  have heven : s.roundsF % 2 ≠ 1 := by rw [hf]; decide
  rw [State.commitFault, if_neg (not_not_intro ht), if_neg (not_not_intro hd), if_neg heven]
  split_ifs with hrows hrc hdg
  · rfl
  · rfl
  · rfl
  · exact absurd hbad (not_or.mpr ⟨hrows, not_or.mpr ⟨hrc, hdg⟩⟩)

theorem faultsWith_pcommit {c : Cause} (hr : s.run = false) (hc : s.commitFault = some c) :
    FaultsWith .pcommit s c := by
  have hexec : exec .pcommit s = .next (s.raise c (encode .pcommit)) := by
    change execPcommit s = _
    rw [execPcommit, inConfig_pass hr, hc]
    rfl
  exact ⟨_, hexec, raises_raise c (encode .pcommit) s⟩

theorem exec_pcommit_of_committable (hr : s.run = false) (hs : s.Committable) : exec .pcommit s = .next s.enterRun := by
  change execPcommit s = _
  rw [execPcommit, inConfig_pass hr, show s.commitFault = none from hs]

end CommitFault

/-- Settles O45: each outcome of `commitFault` is a fault, and none is the change to RUN mode. -/
theorem pcommitChecksInOrder : Obligations.PcommitChecksInOrder := by
  refine ⟨decodeOfEncode .pcommit rfl, ?_⟩
  rintro s t d rf rp rfl rfl rfl rfl okT okD okRc okDg
  have hokRc : s.rcShape = true ↔ okRc :=
    (rcShape_iff s).trans ⟨fun h r c hr hc => h r hr c hc, fun h r hr c hc => h r c hr hc⟩
  have hokDg : s.dgShape = true ↔ okDg := dgShape_iff s
  refine ⟨faultsWith_paramsLocked rfl, fun hr ht => ?_, fun hr ht hd => ?_, fun hr ht hd hf => ?_,
    fun hr ht hd hf hbad => ?_, fun hr ht hd hf hrows hrc hdg => ?_⟩
  · exact faultsWith_pcommit hr (commitFault_width ht)
  · exact faultsWith_pcommit hr (commitFault_degree ht hd)
  · exact faultsWith_pcommit hr (commitFault_odd ht hd hf)
  · rw [← hokRc, ← hokDg, Bool.not_eq_true, Bool.not_eq_true] at hbad
    exact faultsWith_pcommit hr (commitFault_shape ht hd hf hbad)
  · exact exec_pcommit_of_committable hr
      ((committable_iff s).mpr ⟨ht, hd, hf, hrows, hokRc.mpr hrc, hokDg.mpr hdg⟩)

end Sys2Proof.Machine
end

section
/-! What the permutation reads of its parameters (43_poseidon2.md R190, R193): two parameter objects that agree there
give the same permutation. -/

namespace Sys2Proof.Machine

/-- Row `r` belongs to a full round, which reads the whole row (43_poseidon2.md R193). -/
def PermParams.FullRow (c : PermParams) (r : Nat) : Prop := r < c.roundsF / 2 ∨ c.roundsF / 2 + c.roundsP ≤ r

/-- `c'` has the scalars of `c`, and its constants where the permutation reads them: column 0 of every row, the full
rows, and the diagonal except for t = 2 and 3 (43_poseidon2.md R190, R193). -/
structure PermParams.AgreesWhereRead (c c' : PermParams) : Prop where
  t : c'.t = c.t
  d : c'.d = c.d
  roundsF : c'.roundsF = c.roundsF
  roundsP : c'.roundsP = c.roundsP
  rc : ∀ r i, i = 0 ∨ c.FullRow r → c'.rc r i = c.rc r i
  dg : c.t ≠ 2 → c.t ≠ 3 → c'.dg = c.dg

/-- For t = 2 and 3 the internal layer does not read the diagonal (43_poseidon2.md R190). -/
theorem intLayer_congr {t : Nat} {dg dg' : Nat → Nat} (h : t ≠ 2 → t ≠ 3 → dg' = dg) (s : List Nat) :
    intLayer t dg' s = intLayer t dg s := by
  unfold intLayer
  split_ifs with h2 h3
  · rfl
  · rfl
  · rw [h h2 h3]

/-- Rounds that do the same on the rows of a run make the same run. -/
theorem runRounds_congr {round round' : Nat → List Nat → List Nat} {start : Nat} (n : Nat)
    (h : ∀ j, j < n → round' (start + j) = round (start + j)) (s : List Nat) :
    runRounds round' start n s = runRounds round start n s := by
  induction n with
  | zero => rfl
  | succ k ih =>
    rw [runRounds_succ, runRounds_succ, h k k.lt_succ_self, ih fun j hj => h j (hj.trans k.lt_succ_self)]

section Agree

variable {c c' : PermParams} (h : c.AgreesWhereRead c')
include h

theorem PermParams.AgreesWhereRead.fullRound_eq {r : Nat} (hr : c.FullRow r) : fullRound c' r = fullRound c r := by
  have hrow : c'.rc r = c.rc r := funext fun i => h.rc r i (.inr hr)
  funext s
  simp only [fullRound, addRow, h.t, h.d, hrow]

theorem PermParams.AgreesWhereRead.partialRound_eq (r : Nat) : partialRound c' r = partialRound c r := by
  funext s
  simp only [partialRound, h.t, h.d, h.rc r 0 (.inl rfl), intLayer_congr h.dg]

/-- The permutation reads nothing else (43_poseidon2.md R193). -/
theorem PermParams.AgreesWhereRead.perm_eq (s : List Nat) : perm c' s = perm c s := by
  have hbegin : ∀ j, j < c.roundsF / 2 → fullRound c' (0 + j) = fullRound c (0 + j) := fun j hj =>
    h.fullRound_eq (.inl (by omega))
  have hend (j : Nat) : fullRound c' (c.roundsF / 2 + c.roundsP + j) = fullRound c (c.roundsF / 2 + c.roundsP + j) :=
    h.fullRound_eq (.inr (Nat.le_add_right _ _))
  simp only [perm, h.t, h.roundsF, h.roundsP]
  rw [runRounds_congr _ hbegin, runRounds_congr _ fun j _ => h.partialRound_eq _, runRounds_congr _ fun j _ => hend j]

end Agree

/-- A store's rows outside the partial ones are the full rows of its parameter object. -/
theorem partialRow_eq_false_of_fullRow {s : State} {r : Nat} (h : s.permParams.FullRow r) : s.partialRow r = false := by
  refine decide_eq_false fun ⟨hlo, hhi⟩ => ?_
  obtain hlt | hge := h
  · exact hlo.not_gt hlt
  · exact hhi.not_ge hge

/-- Two committed stores that agree where the permutation reads give parameter objects that do (42_params.md R166). -/
theorem permParams_agreesWhereRead {s s' : State} (ht : s.t ∈ Config.tset) (hP : s'.P = s.P)
    (hrc : ∀ r c, c = 0 ∨ s.partialRow r = false → s'.rcAt? r c = s.rcAt? r c)
    (hdg : 4 ≤ s.t → ∀ c, s'.dgAt? c = s.dgAt? c) : s.permParams.AgreesWhereRead s'.permParams where
  t := congrArg (·.t.toNat) hP
  d := congrArg (·.d.toNat) hP
  roundsF := congrArg (·.roundsF.toNat) hP
  roundsP := congrArg (·.roundsP.toNat) hP
  rc r i hi := by
    have hentry : s'.rcAt? r i = s.rcAt? r i := hrc r i (hi.imp_right partialRow_eq_false_of_fullRow)
    simp only [State.permParams, State.rcWord, hentry]
  dg h2 h3 := by
    have hwide : 4 ≤ s.t := Nat.le_of_dvd (t_le_tmax ht).1 (four_dvd_of_tset ht (not_or.mpr ⟨h2, h3⟩))
    simp only [State.permParams, State.dgWord, hdg hwide]

/-- PERM on a committed store makes one check of its width and then writes the permuted elements
(43_poseidon2.md R194). -/
theorem exec_perm_of_run {s : State} (h : Inv s) (hr : s.run = true) (w : Nat) : exec (.perm w) s =
    raiseIf (decide (w ≠ s.t)) (.perm w) s .stateWidth
      (.next (s.setElems ((perm s.permParams (s.elemVals s.t)).map mont))) := by
  change execPerm w s = _
  rw [execPerm, inRun_eq, if_pos hr, permStop_none (h.runStore hr)]
  rfl

/-- Settles O52: PERM makes the same check on both states, and beside the registers the permutation only reads where the
stores agree. -/
theorem unreadConstantsDoNotMatter : Obligations.UnreadConstantsDoNotMatter := by
  intro s s' t t' hI hI' hr hr' hP hf hrc hdg w hex hex'
  have ht : s'.t = s.t := congrArg (·.t.toNat) hP
  have hvals : s'.elemVals s.t = s.elemVals s.t := by
    simp only [State.elemVals, State.regVal, State.reg, hf]
  have hagree := permParams_agreesWhereRead ((committable_iff s).mp (hI.runStore hr)).1 hP hrc hdg
  rw [exec_perm_of_run hI hr] at hex
  rw [exec_perm_of_run hI' hr', ht, hvals, hagree.perm_eq] at hex'
  rw [raiseIf_eq] at hex hex'
  split_ifs at hex hex'
  · cases hex
    cases hex'
    exact hf
  · cases hex
    cases hex'
    exact congrArg (writeFrom · 0 _) hf

end Sys2Proof.Machine
end

section
/-! The linear layers as matrix products (43_poseidon2.md R186 to R191), on a state given as the list of the values of a
function at 0, ..., t - 1. -/

namespace Sys2Proof.Machine

/- Lists of the values of a function. -/

theorem mapIdx_map_range (n : Nat) (x : Nat → Nat) (g : Nat → Nat → Nat) :
    ((List.range n).map x).mapIdx g = (List.range n).map fun i => g i (x i) :=
  List.ext_getElem (by simp) fun i _ _ => by simp

/-- Replacing element 0 of a list of values. -/
theorem onHead_map_range (n : Nat) (x : Nat → Nat) (g : Nat → Nat) :
    onHead g ((List.range n).map x) = (List.range n).map fun i => if i = 0 then g (x 0) else x i := by
  cases n with
  | zero => rfl
  | succ k => simp [List.range_succ_eq_map, onHead]

/-- Two lists of values are equal where the functions agree below the length. -/
theorem map_range_congr {n : Nat} {x y : Nat → Nat} (h : ∀ i, i < n → x i = y i) :
    (List.range n).map x = (List.range n).map y :=
  List.map_congr_left fun i hi => h i (List.mem_range.mp hi)

theorem fsum_map_range (n : Nat) (x : Nat → Nat) : fsum ((List.range n).map x) = sumTo n x % Config.p := rfl

/- Sums. -/

theorem sumTo_eq_sum (n : Nat) (g : Nat → Nat) : sumTo n g = ∑ j ∈ Finset.range n, g j := rfl

/-- A sum may be reduced term by term. -/
theorem sumTo_mod (n : Nat) (g : Nat → Nat) : sumTo n (fun j => g j % Config.p) % Config.p = sumTo n g % Config.p :=
  (Finset.sum_nat_mod (Finset.range n) Config.p g).symm

/-- A sum over `4 n` terms, group by group. -/
theorem sumTo_four_mul (n : Nat) (g : Nat → Nat) :
    sumTo (4 * n) g = sumTo n fun b => sumTo 4 fun k => g (4 * b + k) := by
  induction n with
  | zero => rfl
  | succ n ih =>
    simp only [sumTo_eq_sum] at ih ⊢
    rw [Finset.sum_range_succ, ← ih, Nat.mul_succ, Finset.sum_range_add]

/-- A row of ones but for the entry `c + 1` at place `i`, times a vector. -/
theorem sumTo_ones_add_single {n i : Nat} (hi : i < n) (c : Nat) (g : Nat → Nat) :
    (sumTo n fun j => (if i = j then c + 1 else 1) * g j) = g i * c + sumTo n g := by
  have hterm (j : Nat) : (if i = j then c + 1 else 1) * g j = (if i = j then g j * c else 0) + g j := by
    split <;> ring
  simp only [sumTo_eq_sum, hterm, Finset.sum_add_distrib, Finset.sum_ite_eq, Finset.mem_range, if_pos hi]

/- Matrix products. -/

/-- Element `i` of the product of the matrix `M` with the vector `x` of width `t`. -/
def mulVec (t : Nat) (M : Nat → Nat → Nat) (x : Nat → Nat) (i : Nat) : Nat :=
  sumTo t (fun j => M i j * x j) % Config.p

theorem mulVec_lt (t : Nat) (M : Nat → Nat → Nat) (x : Nat → Nat) (i : Nat) : mulVec t M x i < Config.p :=
  Nat.mod_lt _ p_pos

/-- The product depends on the vector mod p only. -/
theorem mulVec_congr {x y : Nat → Nat} (h : ∀ j, x j % Config.p = y j % Config.p) (t : Nat) (M : Nat → Nat → Nat) :
    mulVec t M x = mulVec t M y := by
  funext i
  have hterm (j : Nat) : M i j * x j % Config.p = M i j * y j % Config.p := Nat.ModEq.mul_left (M i j) (h j)
  simp only [mulVec, ← sumTo_mod t fun j => M i j * _, hterm]

theorem mulVec_mod (t : Nat) (M : Nat → Nat → Nat) (x : Nat → Nat) :
    mulVec t M (fun j => x j % Config.p) = mulVec t M x := mulVec_congr (fun _ => Nat.mod_mod _ _) t M

/-- A matrix whose row `i` is all ones plus `c` on the diagonal. -/
theorem mulVec_ones_add_diag {t i c : Nat} {M : Nat → Nat → Nat} (hi : i < t)
    (hM : ∀ j, M i j = if i = j then c + 1 else 1) (x : Nat → Nat) :
    mulVec t M x i = (x i * c + sumTo t x) % Config.p := by
  simp only [mulVec, hM, sumTo_ones_add_single hi]

/- The external layer. -/

/-- Lists of numbers below p are equal when their images in `ZMod p` are. -/
theorem list_eq_of_zmod {l l' : List Nat} (hl : AllBelowP l) (hl' : AllBelowP l')
    (h : l.map (Nat.cast : Nat → ZMod Config.p) = l'.map Nat.cast) : l = l' := by
  have hback {m : List Nat} (hm : AllBelowP m) : (m.map (Nat.cast : Nat → ZMod Config.p)).map ZMod.val = m := by
    rw [List.map_map]
    refine (List.map_congr_left fun x hx => ?_).trans (List.map_id m)
    exact (ZMod.val_natCast Config.p x).trans (Nat.mod_eq_of_lt (hm x hx))
  rw [← hback hl, h, hback hl']

/-- The network of M4 is its matrix (43_poseidon2.md R187). -/
theorem m4_eq_mulVec (x : Nat → Nat) :
    m4 (x 0) (x 1) (x 2) (x 3) = (List.range 4).map (mulVec 4 m4Coeff x) := by
  have hbelow : AllBelowP (m4 (x 0) (x 1) (x 2) (x 3)) := by
    simpa [m4Groups] using allBelowP_m4Groups [x 0, x 1, x 2, x 3]
  refine list_eq_of_zmod hbelow (allBelowP_map (mulVec_lt 4 m4Coeff x) _) ((m4_zmod _ _ _ _).trans ?_)
  simp [List.range_succ, mulVec, sumTo, m4Coeff, add_assoc]

/-- M4 on each group of a state, as the product of M4 with the group of each element (43_poseidon2.md R188). -/
theorem m4Groups_map_range (n : Nat) (x : Nat → Nat) : m4Groups ((List.range (4 * n)).map x) =
    (List.range (4 * n)).map fun i => mulVec 4 m4Coeff (fun k => x (4 * (i / 4) + k)) (i % 4) := by
  induction n generalizing x with
  | zero => rfl
  | succ n ih =>
    have hsplit (y : Nat → Nat) : (List.range (4 * (n + 1))).map y =
        (List.range 4).map y ++ (List.range (4 * n)).map fun i => y (4 + i) := by
      rw [show 4 * (n + 1) = 4 + 4 * n by omega, List.range_add, List.map_append, List.map_map]
      rfl
    have hfirst : (List.range 4).map (mulVec 4 m4Coeff x) =
        (List.range 4).map fun i => mulVec 4 m4Coeff (fun k => x (4 * (i / 4) + k)) (i % 4) :=
      map_range_congr fun i hi => by simp [Nat.div_eq_of_lt hi, Nat.mod_eq_of_lt hi]
    have hgroup (i k : Nat) : 4 * ((4 + i) / 4) + k = 4 + (4 * (i / 4) + k) := by omega
    rw [hsplit x, hsplit, ← hfirst, ← m4_eq_mulVec]
    simp only [hgroup, Nat.add_mod_left, ← ih fun i => x (4 + i)]
    rfl

/-- The sum of a class, over a state of `n` groups (43_poseidon2.md R188). -/
theorem classSum_map_range {n r : Nat} (hr : r < 4) (y : Nat → Nat) :
    classSum ((List.range (4 * n)).map y) r = sumTo n (fun b => y (4 * b + r)) % Config.p := by
  have hgroups : ((List.range (4 * n)).map y).length / 4 = n := by simp
  rw [classSum, hgroups, ← fsum_map_range]
  refine congrArg fsum (List.map_congr_left fun b hb => ?_)
  have hb' : b < n := List.mem_range.mp hb
  rw [List.getD_eq_getElem _ _ (by simp; omega)]
  simp

/-- The product with the block matrix of 2 M4 and M4: the element's own group once, and every group once
(43_poseidon2.md R188). -/
theorem mulVec_blocks {n i : Nat} (hi : i < 4 * n) (x : Nat → Nat) :
    mulVec (4 * n) (fun i j => (if i / 4 = j / 4 then 2 else 1) * m4Coeff (i % 4) (j % 4)) x i =
      fadd (mulVec 4 m4Coeff (fun k => x (4 * (i / 4) + k)) (i % 4))
        (sumTo n (fun b => mulVec 4 m4Coeff (fun k => x (4 * b + k)) (i % 4)) % Config.p) := by
  have hrow : (sumTo (4 * n) fun j => (if i / 4 = j / 4 then 2 else 1) * m4Coeff (i % 4) (j % 4) * x j) =
      sumTo n fun b => (if i / 4 = b then 1 + 1 else 1) * sumTo 4 fun k => m4Coeff (i % 4) k * x (4 * b + k) := by
    rw [sumTo_four_mul]
    refine congrArg List.sum (List.map_congr_left fun b _ => ?_)
    simp only [sumTo_eq_sum, Finset.mul_sum]
    refine Finset.sum_congr rfl fun k hk => ?_
    have hk' : k < 4 := Finset.mem_range.mp hk
    rw [show (4 * b + k) / 4 = b by omega, show (4 * b + k) % 4 = k by omega, mul_assoc]
  have hi' : i / 4 < n := by omega
  rw [mulVec, hrow, sumTo_ones_add_single hi']
  simp only [mulVec, sumTo_mod, fadd, ← Nat.add_mod, mul_one]

/-- The external layer is the product with its matrix, at every width of `TSET` (43_poseidon2.md R186 to R188). -/
theorem extLayer_map_range {t : Nat} (ht : t ∈ Config.tset) (x : Nat → Nat) :
    extLayer t ((List.range t).map x) = (List.range t).map (mulVec t (extCoeff t) x) := by
  by_cases hsmall : t = 2 ∨ t = 3
  · rw [extLayer, if_pos hsmall, List.map_map]
    refine map_range_congr fun i hi => ?_
    rw [mulVec_ones_add_diag (c := 1) hi fun j => if_pos hsmall]
    simp [fadd, fsum_map_range]
  · obtain ⟨n, rfl⟩ := four_dvd_of_tset ht hsmall
    by_cases hfour : 4 * n = 4
    · obtain rfl : n = 1 := by omega
      have hM : extCoeff (4 * 1) = m4Coeff := rfl
      rw [extLayer, if_neg hsmall, if_pos hfour, m4Groups_map_range, hM]
      exact map_range_congr fun i hi => by simp [Nat.div_eq_of_lt hi, Nat.mod_eq_of_lt hi]
    · have hM : extCoeff (4 * n) = fun i j => (if i / 4 = j / 4 then 2 else 1) * m4Coeff (i % 4) (j % 4) := by
        funext i j
        rw [extCoeff, if_neg hsmall, if_neg hfour]
      rw [extLayer, if_neg hsmall, if_neg hfour, m4Groups_map_range, mapIdx_map_range]
      refine map_range_congr fun i hi => ?_
      have hr : i % 4 < 4 := Nat.mod_lt _ (by decide)
      have hgroup (b : Nat) : (4 * b + i % 4) / 4 = b := by omega
      have hplace (b : Nat) : (4 * b + i % 4) % 4 = i % 4 := by omega
      rw [hM, mulVec_blocks hi, classSum_map_range hr]
      simp only [hgroup, hplace]

/- The internal layer. -/

/-- Entry (i, j) of the matrix of the internal layer: the fixed matrix for t = 2 and 3, else all ones plus the diagonal
(43_poseidon2.md R190, R191). -/
def intEntry (t : Nat) (dg : Nat → Nat) (i j : Nat) : Nat :=
  if t < 4 then intCoeff t i j else if i = j then dg i + 1 else 1

theorem intMatrix_eq (s : State) : s.intMatrix = intEntry s.t s.permParams.dg := rfl

/-- A row of the fixed matrix is all ones, plus 2 on the diagonal in the last row and 1 in the others
(43_poseidon2.md R190). -/
theorem intCoeff_eq (t i j : Nat) : intCoeff t i j = if i = j then (if i + 1 = t then 2 else 1) + 1 else 1 := by
  unfold intCoeff
  split_ifs <;> rfl

/-- The internal layer is the product with its matrix, at every width of `TSET` (43_poseidon2.md R190, R191). -/
theorem intLayer_map_range {t : Nat} (ht : t ∈ Config.tset) (dg x : Nat → Nat) :
    intLayer t dg ((List.range t).map x) = (List.range t).map (mulVec t (intEntry t dg) x) := by
  have hfixed (last : Nat) (hlast : last + 1 = t) (hlt : t < 4) :
      (((List.range t).map x).mapIdx fun i v => fadd (if i = last then fdbl v else v) (fsum ((List.range t).map x))) =
        (List.range t).map (mulVec t (intEntry t dg) x) := by
    rw [mapIdx_map_range]
    refine map_range_congr fun i hi => ?_
    have hrow (j : Nat) : intEntry t dg i j = _ := (if_pos hlt).trans (intCoeff_eq t i j)
    rw [mulVec_ones_add_diag hi hrow, fsum_map_range]
    subst hlast
    by_cases h : i = last <;> simp [h, fadd, fdbl, mul_comm]
  unfold intLayer
  split_ifs with h2 h3
  · exact hfixed 1 h2.symm (by omega)
  · exact hfixed 2 h3.symm (by omega)
  · have hwide : ¬ t < 4 :=
      (Nat.le_of_dvd (t_le_tmax ht).1 (four_dvd_of_tset ht (not_or.mpr ⟨h2, h3⟩))).not_gt
    rw [mapIdx_map_range]
    refine map_range_congr fun i hi => ?_
    rw [mulVec_ones_add_diag hi fun j => if_neg hwide, fsum_map_range]
    simp [fadd, fmul]

end Sys2Proof.Machine
end

section
/-! The state elements as a list of field values, and each permutation command (43_poseidon2.md section 5) as the list it
writes there. -/

namespace Sys2Proof.Machine

/- Registers. -/

/-- A state that differs in the registers only, and reads the same in each, is the same. -/
theorem eq_of_reg {s t : State} (hf : t = { s with f := t.f }) (h : ∀ r, t.reg r = s.reg r) : t = s := by
  have hregs : t.f = s.f := Vector.ext fun i hi => BitVec.eq_of_toNat_eq (h ⟨i, hi⟩)
  rw [hf, hregs]

/-- `s` with the field values `l` in the state elements `f[0], f[1], ...` (10_state.md R22, R26). -/
def State.withValues (s : State) (l : List Nat) : State := s.setElems (l.map mont)

theorem reg_withValues (s : State) (l : List Nat) (r : Reg) :
    (s.withValues l).reg r = if h : r.val < l.length then mont l[r.val] else s.reg r := by
  simp only [State.withValues, reg_setElems, List.length_map, List.getElem_map,
    Nat.mod_eq_of_lt ((mont_lt _).trans p_lt_two_pow)]

/-- A state element reads as written (10_state.md R26). -/
theorem reg_setElems_map_range (s : State) {t i : Nat} {y : Nat → Nat} (hy : ∀ j, y j < Config.p) (hi : i < t)
    (ht : t < 32) : (s.setElems ((List.range t).map y)).reg (elemReg i) = y i := by
  have hval : (elemReg i).val = i := elemReg_val (hi.trans ht)
  rw [reg_setElems, dif_pos (by simpa [hval] using hi)]
  simp only [hval, List.getElem_map, List.getElem_range, Nat.mod_eq_of_lt ((hy _).trans p_lt_two_pow)]

/-- A state element holds the encoded value that was written. -/
theorem reg_withValues_map_range (s : State) {t i : Nat} (y : Nat → Nat) (hi : i < t) (ht : t < 32) :
    (s.withValues ((List.range t).map y)).reg (elemReg i) = mont (y i) := by
  rw [State.withValues, List.map_map, Function.comp_def]
  exact reg_setElems_map_range s (y := fun j => mont (y j)) (fun j => mont_lt (y j)) hi ht

theorem R_eq_two_pow : Config.R = 2 ^ 256 := by norm_num [Config.R]

/-- `mont` with the radix written out (00_scope.md R6). -/
theorem mont_eq (v : Nat) : mont v = v * 2 ^ 256 % Config.p := by rw [mont, R_eq_two_pow]

theorem sboxPow_eq (s : State) (x : Nat) : sboxPow s.d x = x ^ s.P.d.toNat % Config.p := rfl

/-- A state element has the value that was written, and its word is that value times the radix (10_state.md R22). -/
theorem regVal_withValues_map_range (s : State) {t i : Nat} {y : Nat → Nat} (hy : ∀ j, y j < Config.p) (hi : i < t)
    (ht : t < 32) : (s.withValues ((List.range t).map y)).regVal (elemReg i) = y i ∧
      (s.withValues ((List.range t).map y)).reg (elemReg i) =
        (s.withValues ((List.range t).map y)).regVal (elemReg i) * 2 ^ 256 % Config.p := by
  have hval : (s.withValues ((List.range t).map y)).regVal (elemReg i) = y i := by
    rw [State.regVal, reg_withValues_map_range s y hi ht, val_mont (hy i)]
  exact ⟨hval, by rw [hval, reg_withValues_map_range s y hi ht, mont_eq]⟩

theorem onlyElems_withValues (s : State) {t : Nat} {l : List Nat} (hl : l.length = t) :
    OnlyElems t s (s.withValues l) := by
  have h := onlyElems_setElems s (l.map mont)
  rwa [List.length_map, hl] at h

theorem length_map_range (t : Nat) (y : Nat → Nat) : ((List.range t).map y).length = t := by simp

/- The checks. -/

/-- A permutation or Merkle command in CONFIG mode raises ParamsNotCommitted (60_exceptions.md R248, R252). -/
theorem faultsWith_paramsNotCommitted {i : Instr} {s : State} (hi : needsRun i = true) (hr : s.run = false) :
    FaultsWith i s .paramsNotCommitted := by
  have config : ∀ k, inRun i s k = .next (s.raise .paramsNotCommitted (encode i)) := fun k => by
    rw [inRun_eq, hr, if_neg Bool.false_ne_true]
  cases i with
  | arc | arcp | sbox | sboxf | mext | mint | perm | cmpr | accum => exact ⟨_, config _, raises_raise _ _ _⟩
  | _ => exact absurd hi Bool.false_ne_true

/-- A permutation or Merkle command goes on in RUN mode (60_exceptions.md R252). -/
theorem inRun_pass {s : State} (hr : s.run = true) (i : Instr) (k : Result) : inRun i s k = k := by
  rw [inRun_eq, if_pos hr]

theorem stopIf_pass {g : Option Fault} (hg : g = none) (k : Result) : stopIf g k = k := by rw [hg]; rfl

section Commands

variable {s : State}

/-- In RUN mode the width is a supported one (42_params.md R165). -/
theorem t_mem_tset_of_run (h : Inv s) (hr : s.run = true) : s.t ∈ Config.tset :=
  ((committable_iff s).mp (h.runStore hr)).1

theorem t_pos_of_run (h : Inv s) (hr : s.run = true) : 0 < s.t := (t_le_tmax (t_mem_tset_of_run h hr)).1

/- ARC and ARCP. -/

theorem exec_arc_of_run (hr : s.run = true) (row : Nat) : exec (.arc row) s =
    raiseIf (decide (s.rows ≤ row)) (.arc row) s .indexRange
      (stopIf (s.rowStop row s.t) (.next (s.setElems ((s.elems s.t).mapIdx fun i w => fadd w (s.rcWord row i))))) :=
  inRun_pass hr (.arc row) _

theorem exec_arcp_of_run (hr : s.run = true) (row : Nat) : exec (.arcp row) s =
    raiseIf (decide (s.rows ≤ row)) (.arcp row) s .indexRange
      (stopIf (s.rowStop row 1) (.next (s.setReg 0 (fadd (s.reg 0) (s.rcWord row 0))))) :=
  inRun_pass hr (.arcp row) _

/-- ARC of a row of the table adds the row word by word (43_poseidon2.md R182). -/
theorem exec_arc_of_lt (h : Inv s) (hr : s.run = true) {row : Nat} (hrow : row < s.rows) : exec (.arc row) s =
    .next (s.setElems ((List.range s.t).map fun i => fadd (s.reg (elemReg i)) (s.rcWord row i))) := by
  rw [exec_arc_of_run hr, raiseIf_pass (decide_eq_false hrow.not_ge),
    stopIf_pass (rowStop_none (h.runStore hr) hrow le_rfl), State.elems, mapIdx_map_range]

/-- ARCP of a row of the table adds its first word to `f[0]` (43_poseidon2.md R183). -/
theorem exec_arcp_of_lt (h : Inv s) (hr : s.run = true) {row : Nat} (hrow : row < s.rows) :
    exec (.arcp row) s = .next (s.setReg 0 (fadd (s.reg 0) (s.rcWord row 0))) := by
  rw [exec_arcp_of_run hr, raiseIf_pass (decide_eq_false hrow.not_ge),
    stopIf_pass (rowStop_none (h.runStore hr) hrow (t_pos_of_run h hr))]

/-- An entry of the committed table is written, and `rcWord` is its word (42_params.md R166). -/
theorem rcAt?_eq_some (h : Inv s) (hr : s.run = true) {row i : Nat} (hrow : row < s.rows) (hi : i < s.t) :
    ∃ w, s.rcAt? row i = some w ∧ s.rcWord row i = w.toNat := by
  obtain ⟨w, hw⟩ := Option.isSome_iff_exists.mp (rc_written (h.runStore hr) hrow hi)
  exact ⟨w, hw, by rw [State.rcWord, hw, Option.getD_some]⟩

/- SBOX and SBOXF. -/

theorem exec_sbox_of_run (h : Inv s) (hr : s.run = true) (fd fs1 : Reg) :
    exec (.sbox fd fs1) s = .next (s.setReg fd (mont (sboxPow s.d (s.regVal fs1)))) :=
  (inRun_pass hr (.sbox fd fs1) _).trans (stopIf_pass (degreeStop_none (h.runStore hr)) _)

theorem exec_sboxf_of_run (h : Inv s) (hr : s.run = true) :
    exec .sboxf s = .next (s.withValues ((s.elemVals s.t).map (sboxPow s.d))) := by
  rw [State.withValues, List.map_map]
  exact (inRun_pass hr .sboxf _).trans (stopIf_pass (degreeStop_none (h.runStore hr)) _)

/- MEXT and MINT. -/

theorem exec_mext_of_run (h : Inv s) (hr : s.run = true) :
    exec .mext s = .next (s.withValues (extLayer s.t (s.elemVals s.t))) :=
  (inRun_pass hr .mext _).trans (stopIf_pass (widthStop_none (h.runStore hr)) _)

theorem exec_mint_of_run (h : Inv s) (hr : s.run = true) :
    exec .mint s = .next (s.withValues (intLayer s.t s.permParams.dg (s.elemVals s.t))) := by
  have hstop : (s.widthStop <|> s.diagStop) = none := by
    rw [widthStop_none (h.runStore hr), diagStop_none (h.runStore hr)]
    rfl
  exact (inRun_pass hr .mint _).trans (stopIf_pass hstop _)

/-- The external layer of the state elements, as the matrix product (43_poseidon2.md R186 to R188). -/
theorem extLayer_elemVals (h : Inv s) (hr : s.run = true) : extLayer s.t (s.elemVals s.t) =
    (List.range s.t).map (mulVec s.t (extCoeff s.t) fun j => s.regVal (elemReg j)) :=
  extLayer_map_range (t_mem_tset_of_run h hr) _

/-- The internal layer of the state elements, as the matrix product (43_poseidon2.md R190, R191). -/
theorem intLayer_elemVals (h : Inv s) (hr : s.run = true) : intLayer s.t s.permParams.dg (s.elemVals s.t) =
    (List.range s.t).map (mulVec s.t s.intMatrix fun j => s.regVal (elemReg j)) :=
  intLayer_map_range (t_mem_tset_of_run h hr) _ _

/-- The matrix of the internal layer is the fixed one for t = 2 and 3 (43_poseidon2.md R190). -/
theorem intMatrix_of_lt (ht : s.t < 4) : s.intMatrix = intCoeff s.t := by
  funext i j
  exact if_pos ht

/-- A row of the internal layer for t >= 4 (43_poseidon2.md R191). -/
theorem mulVec_intMatrix (ht : 4 ≤ s.t) {i : Nat} (hi : i < s.t) (x : Nat → Nat) :
    mulVec s.t s.intMatrix x i = (x i * val (s.dgWord i) + sumTo s.t x) % Config.p :=
  mulVec_ones_add_diag hi (fun _ => if_neg ht.not_gt) x

/-- An entry of the committed diagonal is written, and `dgWord` is its word (42_params.md R166). -/
theorem dgAt?_eq_some (h : Inv s) (hr : s.run = true) {i : Nat} (hi : i < s.t) :
    ∃ w, s.dgAt? i = some w ∧ s.dgWord i = w.toNat := by
  obtain ⟨w, hw⟩ := Option.isSome_iff_exists.mp (dg_written (h.runStore hr) hi)
  exact ⟨w, hw, by rw [State.dgWord, hw, Option.getD_some]⟩

end Commands

/-- Settles O46: behind the mode and the row check stands one write, of words that are written. -/
theorem arcAndArcpAddConstants : Obligations.ArcAndArcpAddConstants := by
  refine ⟨fun row s => ⟨fun hw => decodeOfEncode (.arc row) (decide_eq_true hw), faultsWith_paramsNotCommitted rfl,
      fun hr hge => ?_, fun h hr hrow => ?_⟩,
    fun row s => ⟨fun hw => decodeOfEncode (.arcp row) (decide_eq_true hw), faultsWith_paramsNotCommitted rfl,
      fun hr hge => ?_, fun h hr hrow => ?_⟩⟩
  · exact faultsWith_of_check (exec_arc_of_run hr row) (decide_eq_true hge)
  · refine ⟨_, exec_arc_of_lt h hr hrow, ?_, fun i hi => ?_⟩
    · simpa using onlyElems_setElems s ((List.range s.t).map fun i => fadd (s.reg (elemReg i)) (s.rcWord row i))
    · obtain ⟨w, hw, hword⟩ := rcAt?_eq_some h hr hrow hi
      refine ⟨w, hw, ?_⟩
      rw [reg_setElems_map_range s (fun _ => fadd_lt _ _) hi (t_lt s), hword, fadd]
  · exact faultsWith_of_check (exec_arcp_of_run hr row) (decide_eq_true hge)
  · obtain ⟨w, hw, hword⟩ := rcAt?_eq_some h hr hrow (t_pos_of_run h hr)
    refine ⟨_, w, exec_arcp_of_lt h hr hrow, hw, ?_, onlyReg_setReg s 0 _⟩
    rw [reg_setReg_self (fadd_lt _ _), hword, fadd]

/-- Settles O47: the S-box is the power, encoded. -/
theorem sboxAndSboxfRaiseToThePower : Obligations.SboxAndSboxfRaiseToThePower := by
  refine ⟨fun fd fs1 s => ⟨decodeOfEncode (.sbox fd fs1) rfl, faultsWith_paramsNotCommitted rfl, fun h hr => ?_⟩,
    decodeOfEncode .sboxf rfl, fun s => ⟨faultsWith_paramsNotCommitted rfl, fun h hr => ?_⟩⟩
  · have hval : (s.setReg fd (mont (sboxPow s.d (s.regVal fs1)))).regVal fd = sboxPow s.d (s.regVal fs1) :=
      (regVal_setReg_self (mont_lt _)).trans (val_mont (sboxPow_lt _ _))
    have hword := reg_setReg_self (s := s) (r := fd) (mont_lt (sboxPow s.d (s.regVal fs1)))
    rw [sboxPow_eq] at hval
    rw [mont_eq, sboxPow_eq] at hword
    exact ⟨_, exec_sbox_of_run h hr fd fs1, hval, hword, onlyReg_setReg s fd _⟩
  · refine ⟨_, exec_sboxf_of_run h hr, onlyElems_withValues s (by simp [length_elemVals]), fun i hi => ?_⟩
    rw [State.elemVals, List.map_map, Function.comp_def,
      reg_withValues_map_range s (fun i => sboxPow s.d (s.regVal (elemReg i))) hi (t_lt s), mont_eq, sboxPow_eq]

/-- Settles O48: the external layer is the matrix product at each width. -/
theorem mextIsTheExternalMatrix : Obligations.MextIsTheExternalMatrix := by
  refine ⟨decodeOfEncode .mext rfl, fun s => ⟨faultsWith_paramsNotCommitted rfl, fun h hr => ?_⟩⟩
  refine ⟨_, (exec_mext_of_run h hr).trans (by rw [extLayer_elemVals h hr]),
    onlyElems_withValues s (length_map_range _ _), fun i hi => ?_⟩
  exact regVal_withValues_map_range s (mulVec_lt _ _ _) hi (t_lt s)

/-- Settles O49: the internal layer is the matrix product, whose matrix is fixed for t = 2 and 3 and else all ones plus
the committed diagonal. -/
theorem mintIsTheInternalMatrix : Obligations.MintIsTheInternalMatrix := by
  refine ⟨decodeOfEncode .mint rfl, fun s => ⟨faultsWith_paramsNotCommitted rfl, fun h hr => ?_⟩⟩
  have helem {i : Nat} (hi : i < s.t) := regVal_withValues_map_range s
    (mulVec_lt s.t s.intMatrix fun j => s.regVal (elemReg j)) hi (t_lt s)
  refine ⟨_, (exec_mint_of_run h hr).trans (by rw [intLayer_elemVals h hr]),
    onlyElems_withValues s (length_map_range _ _), fun i hi => (helem hi).2, fun ht i hi => ?_, fun ht i hi => ?_⟩
  · rw [(helem hi).1, intMatrix_of_lt (by omega)]
    rfl
  · obtain ⟨w, hw, hword⟩ := dgAt?_eq_some h hr hi
    exact ⟨w, hw, by rw [(helem hi).1, mulVec_intMatrix ht hi, hword]⟩

end Sys2Proof.Machine
end

section
/-! The permutation as rounds of matrix products (43_poseidon2.md R193), on a state given as the list of the values of a
function at 0, ..., t - 1. -/

namespace Sys2Proof.Machine

/-- Constant and S-box, as the power of the sum. -/
theorem sboxPow_fadd (d x y : Nat) : sboxPow d (fadd x y) = (x + y) ^ d % Config.p := by
  rw [sboxPow, fadd, ← Nat.pow_mod]

theorem permParams_rc (s : State) (r i : Nat) : s.permParams.rc r i = val (s.rcWord r i) := rfl

section Rounds

variable {s : State} (ht : s.t ∈ Config.tset)
include ht

/-- A full round: constants and powers of every element, then the external matrix (43_poseidon2.md R193). -/
theorem fullRound_map_range {r : Nat} (hr : s.partialRow r = false) (x : Nat → Nat) :
    fullRound s.permParams r ((List.range s.t).map x) = (List.range s.t).map (s.roundValue r x) := by
  have hsbox : (addRow s.permParams r ((List.range s.t).map x)).map (sboxPow s.d) =
      (List.range s.t).map fun j => (x j + val (s.rcWord r j)) ^ s.d % Config.p := by
    rw [addRow, mapIdx_map_range, List.map_map]
    refine map_range_congr fun j _ => ?_
    rw [Function.comp_apply, permParams_rc, sboxPow_fadd]
  have hround : s.roundValue r x = mulVec s.t (extCoeff s.t) fun j => (x j + val (s.rcWord r j)) ^ s.d := by
    funext i
    rw [State.roundValue, hr, if_neg Bool.false_ne_true, mulVec]
  calc fullRound s.permParams r ((List.range s.t).map x)
    _ = extLayer s.t ((addRow s.permParams r ((List.range s.t).map x)).map (sboxPow s.d)) := rfl
    _ = (List.range s.t).map (s.roundValue r x) := by
      rw [hsbox, extLayer_map_range ht, hround, mulVec_mod]

/-- A partial round: constant and power of element 0, then the internal matrix (43_poseidon2.md R193). -/
theorem partialRound_map_range {r : Nat} (hr : s.partialRow r = true) (x : Nat → Nat) :
    partialRound s.permParams r ((List.range s.t).map x) = (List.range s.t).map (s.roundValue r x) := by
  have hhead : onHead (sboxPow s.d) (onHead (fun v => fadd v (val (s.rcWord r 0))) ((List.range s.t).map x)) =
      (List.range s.t).map fun j => if j = 0 then (x 0 + val (s.rcWord r 0)) ^ s.d % Config.p else x j := by
    rw [onHead_map_range, onHead_map_range]
    refine map_range_congr fun j _ => ?_
    split
    · rw [if_pos rfl, sboxPow_fadd]
    · rfl
  have hround : s.roundValue r x =
      mulVec s.t s.intMatrix fun j => if j = 0 then (x 0 + val (s.rcWord r 0)) ^ s.d else x j := by
    funext i
    rw [State.roundValue, if_pos hr, mulVec]
  calc partialRound s.permParams r ((List.range s.t).map x)
    _ = intLayer s.t s.permParams.dg
          (onHead (sboxPow s.d) (onHead (fun v => fadd v (val (s.rcWord r 0))) ((List.range s.t).map x))) := rfl
    _ = (List.range s.t).map (s.roundValue r x) := by
      rw [hhead, intLayer_map_range ht, hround, intMatrix_eq, mulVec_congr fun j => ?_]
      split
      · exact Nat.mod_mod _ _
      · rfl

end Rounds

/-- A run of rounds that are those of the schedule takes the elements from one round to a later one. -/
theorem runRounds_permValue {s : State} {round : Nat → List Nat → List Nat} {start : Nat} (n : Nat)
    (h : ∀ j, j < n → ∀ x, round (start + j) ((List.range s.t).map x) =
      (List.range s.t).map (s.roundValue (start + j) x)) :
    runRounds round start n ((List.range s.t).map (s.permValue start)) =
      (List.range s.t).map (s.permValue (start + n)) := by
  induction n with
  | zero => rfl
  | succ k ih =>
    rw [runRounds_succ, ih fun j hj => h j (hj.trans k.lt_succ_self), h k k.lt_succ_self]
    rfl

theorem partialRow_eq_true {s : State} {r : Nat} (hlo : s.roundsF / 2 ≤ r) (hhi : r < s.roundsF / 2 + s.roundsP) :
    s.partialRow r = true := decide_eq_true ⟨hlo, hhi⟩

/-- The permutation of the state elements is the rounds 0 to NR - 1 after the initial external layer
(43_poseidon2.md R193). -/
theorem perm_elemVals {s : State} (ht : s.t ∈ Config.tset) :
    perm s.permParams (s.elemVals s.t) = (List.range s.t).map (s.permValue s.rows) := by
  have hfirst : extLayer s.t (s.elemVals s.t) = (List.range s.t).map (s.permValue 0) := extLayer_map_range ht _
  have hbegin := runRounds_permValue (s := s) (round := fullRound s.permParams) (start := 0) (s.roundsF / 2)
    fun j hj => fullRound_map_range ht (partialRow_eq_false_of_fullRow (.inl ((Nat.zero_add j).symm ▸ hj)))
  have hmiddle := runRounds_permValue (s := s) (round := partialRound s.permParams) (start := s.roundsF / 2) s.roundsP
    fun j hj => partialRound_map_range ht (partialRow_eq_true (by omega) (by omega))
  have hend := runRounds_permValue (s := s) (round := fullRound s.permParams) (start := s.roundsF / 2 + s.roundsP)
    (s.roundsF - s.roundsF / 2)
    fun j _ => fullRound_map_range ht (partialRow_eq_false_of_fullRow (.inr (Nat.le_add_right _ _)))
  have hrows : s.roundsF / 2 + s.roundsP + (s.roundsF - s.roundsF / 2) = s.rows := by
    rw [State.rows]
    omega
  rw [Nat.zero_add] at hbegin
  rw [hrows] at hend
  rw [← hend, ← hmiddle, ← hbegin, ← hfirst]
  rfl

theorem roundValue_lt (s : State) (r : Nat) (x : Nat → Nat) (i : Nat) : s.roundValue r x i < Config.p := by
  unfold State.roundValue
  split <;> exact Nat.mod_lt _ p_pos

theorem permValue_lt (s : State) (n i : Nat) : s.permValue n i < Config.p := by
  cases n with
  | zero => exact Nat.mod_lt _ p_pos
  | succ n => exact roundValue_lt s n _ i

/-- PERM of the committed width writes the permuted elements (43_poseidon2.md R194). -/
theorem exec_perm_of_width {s : State} (h : Inv s) (hr : s.run = true) :
    exec (.perm s.t) s = .next (s.withValues (perm s.permParams (s.elemVals s.t))) := by
  rw [exec_perm_of_run h hr, raiseIf_pass (decide_eq_false (not_not_intro rfl)), State.withValues]

/-- Settles O50: the list that PERM writes is the round schedule's, element by element. -/
theorem permIsTheRoundSchedule : Obligations.PermIsTheRoundSchedule := by
  refine fun w s => ⟨fun hw => decodeOfEncode (.perm w) (decide_eq_true hw), faultsWith_paramsNotCommitted rfl,
    fun hr hw => ?_, fun h hr hw => ?_⟩
  · exact faultsWith_of_check (inRun_pass hr (.perm w) _) (decide_eq_true hw)
  · obtain rfl : w = s.t := hw
    refine ⟨_, (exec_perm_of_width h hr).trans (by rw [perm_elemVals (t_mem_tset_of_run h hr)]),
      onlyElems_withValues s (length_map_range _ _), fun i hi => ?_⟩
    exact regVal_withValues_map_range s (permValue_lt s s.rows) hi (t_lt s)

end Sys2Proof.Machine
end

section
/-! PERM as its micro-operations, each word written to CMD (43_poseidon2.md R196). -/

namespace Sys2Proof.Machine

/- Runs of command words. -/

theorem writeCmds_append {ws : List Word32} {s t : State} (vs : List Word32) (h : writeCmds ws s = .next t) :
    writeCmds (ws ++ vs) s = writeCmds vs t := by
  induction ws generalizing s with
  | nil =>
    obtain rfl : s = t := Host.Outcome.next.inj h
    rfl
  | cons w ws ih =>
    simp only [List.cons_append, writeCmds] at h ⊢
    cases hw : writeCmd w s with
    | next u =>
      rw [hw] at h
      exact ih h
    | fault e => simp [hw] at h
    | refused e => simp [hw] at h

/-- One command without a pending fault is its meaning. -/
theorem writeCmds_encode {s t : State} {i : Instr} (he : s.err = false) (hi : i.wellFormed = true)
    (h : exec i s = .next t) : writeCmds ([i].map encode) s = .next t := by
  have hw : writeCmd (encode i) s = .next t := by
    rw [writeCmd_execute he, execute_command (decodeOfEncode i hi), h]
  simp only [List.map_cons, List.map_nil, writeCmds, hw]

/- Lists of field values. -/

/-- A list of `t` field values: what the state elements hold. -/
structure IsValues (t : Nat) (l : List Nat) : Prop where
  length : l.length = t
  below : AllBelowP l

theorem isValues_elemVals (s : State) (t : Nat) : IsValues t (s.elemVals t) where
  length := length_elemVals s t
  below := allBelowP_map (fun _ => regVal_lt s _) _

theorem IsValues.onHead {t : Nat} {l : List Nat} (hl : IsValues t l) {g : Nat → Nat} (hg : ∀ x, g x < Config.p) :
    IsValues t (onHead g l) where
  length := (length_onHead g l).trans hl.length
  below := by
    cases l with
    | nil => exact hl.below
    | cons x xs =>
      obtain ⟨-, hxs⟩ := List.forall_mem_cons.mp hl.below
      exact List.forall_mem_cons.mpr ⟨hg x, hxs⟩

theorem IsValues.extLayer {t : Nat} {l : List Nat} (hl : IsValues t l) (ht : t ∈ Config.tset) :
    IsValues t (extLayer t l) := ⟨length_extLayer ht hl.length, allBelowP_extLayer t l⟩

theorem IsValues.fullRound {c : PermParams} {l : List Nat} (hl : IsValues c.t l) (ht : c.t ∈ Config.tset) (r : Nat) :
    IsValues c.t (fullRound c r l) := ⟨length_fullRound ht r hl.length, allBelowP_extLayer _ _⟩

theorem IsValues.partialRound {c : PermParams} {l : List Nat} (hl : IsValues c.t l) (r : Nat) :
    IsValues c.t (partialRound c r l) := ⟨length_partialRound r hl.length, allBelowP_intLayer _ _ _⟩

/- The state elements. -/

/-- The state elements hold the values that were written. -/
theorem elemVals_withValues (s : State) {t : Nat} {l : List Nat} (hl : IsValues t l) (ht : t < 32) :
    (s.withValues l).elemVals t = l := by
  obtain ⟨rfl, hb⟩ := hl
  refine List.ext_getElem (length_elemVals _ _) fun i hi hi' => ?_
  simp only [State.elemVals, List.getElem_map, List.getElem_range, State.regVal, reg_withValues,
    elemReg_val (hi'.trans ht), dif_pos hi', val_mont (hb _ (List.getElem_mem hi'))]

/-- The last of two writes of all the state elements is the one that stays. -/
theorem withValues_withValues (s : State) {l l' : List Nat} (h : l.length = l'.length) :
    (s.withValues l).withValues l' = s.withValues l' := by
  refine eq_of_reg rfl fun r => ?_
  simp only [reg_withValues]
  split
  · rfl
  · next hr => rw [dif_neg (h ▸ hr)]

/-- Writing the values the state elements hold changes nothing. -/
theorem withValues_elemVals {s : State} (h : s.RegsBelowP) (t : Nat) : s.withValues (s.elemVals t) = s := by
  refine eq_of_reg rfl fun r => ?_
  rw [reg_withValues]
  split
  · next hr =>
    have hr' : elemReg r.val = r := Fin.ext (elemReg_val r.isLt)
    simp only [State.elemVals, List.getElem_map, List.getElem_range, hr', State.regVal, mont_val (h r)]
  · rfl

theorem Inv.keep_withValues {s : State} (h : Inv s) (l : List Nat) : Inv (s.withValues l) :=
  h.keep_setElems (allBelowP_map mont_lt l)

/-- Writing `f[0]` is writing the state elements with another element 0. -/
theorem setReg_zero_eq_withValues {s : State} (h : s.RegsBelowP) {t : Nat} (h0 : 0 < t) (g : Nat → Nat) :
    s.setReg 0 (mont (g (s.regVal 0))) = s.withValues (onHead g (s.elemVals t)) := by
  refine eq_of_reg rfl fun r => ?_
  have hr0 : elemReg 0 = 0 := rfl
  have hrr : elemReg r.val = r := Fin.ext (elemReg_val r.isLt)
  simp only [State.elemVals, onHead_map_range, reg_withValues, length_map_range, List.getElem_map,
    List.getElem_range, hr0, hrr]
  by_cases hr : r = 0
  · subst hr
    rw [reg_setReg_self (mont_lt _), dif_pos (by simpa using h0), if_pos (by simp)]
  · have hr' : r.val ≠ 0 := fun e => hr (Fin.ext e)
    rw [reg_setReg_ne _ hr, if_neg hr', State.regVal, mont_val (h r), dite_eq_ite, ite_self]

/- ARC, ARCP and SBOX f0, f0 as changes of the list of values. -/

/-- The constants of the committed table are words below p (10_state.md R38). -/
theorem rcWord_lt {s : State} (h : Inv s) (row col : Nat) : s.rcWord row col < Config.p := by
  unfold State.rcWord State.rcAt?
  split
  · cases hg : Store.get? s.rc (rcKey row col) with
    | none => exact p_pos
    | some w => exact h.rcBelow _ (Store.mem_of_get? hg)
  · exact p_pos

/-- Adding two words below p is adding their values. -/
theorem fadd_eq_mont {a b : Nat} (ha : a < Config.p) (hb : b < Config.p) : fadd a b = mont (fadd (val a) (val b)) := by
  rw [mont_fadd, mont_val ha, mont_val hb]

theorem exec_arc_values {s : State} (h : Inv s) (hr : s.run = true) {row : Nat} (hrow : row < s.rows) :
    exec (.arc row) s = .next (s.withValues (addRow s.permParams row (s.elemVals s.t))) := by
  rw [exec_arc_of_lt h hr hrow, State.withValues, State.elemVals, addRow, mapIdx_map_range, List.map_map]
  refine congrArg (fun ws => Host.Outcome.next (s.setElems ws)) (map_range_congr fun i _ => ?_)
  rw [Function.comp_apply, permParams_rc]
  exact fadd_eq_mont (h.regs _) (rcWord_lt h row i)

theorem exec_arcp_values {s : State} (h : Inv s) (hr : s.run = true) {row : Nat} (hrow : row < s.rows) :
    exec (.arcp row) s = .next (s.withValues (onHead (fun x => fadd x (s.permParams.rc row 0)) (s.elemVals s.t))) := by
  rw [exec_arcp_of_lt h hr hrow, ← setReg_zero_eq_withValues h.regs (t_pos_of_run h hr), permParams_rc,
    fadd_eq_mont (h.regs 0) (rcWord_lt h row 0), State.regVal]

theorem exec_sbox_zero_values {s : State} (h : Inv s) (hr : s.run = true) :
    exec (.sbox 0 0) s = .next (s.withValues (onHead (sboxPow s.permParams.d) (s.elemVals s.t))) :=
  (exec_sbox_of_run h hr 0 0).trans (congrArg _ (setReg_zero_eq_withValues h.regs (t_pos_of_run h hr) _))

/- The schedule. -/

/-- The command words of `ops`, with the values `l` in the state elements of `s`, leave the values `l'` there. -/
def State.RunsTo (s : State) (ops : List Instr) (l l' : List Nat) : Prop :=
  writeCmds (ops.map encode) (s.withValues l) = .next (s.withValues l')

theorem State.RunsTo.append {s : State} {a b : List Instr} {l l' l'' : List Nat} (ha : s.RunsTo a l l')
    (hb : s.RunsTo b l' l'') : s.RunsTo (a ++ b) l l'' := by
  unfold State.RunsTo
  rw [List.map_append, writeCmds_append _ ha]
  exact hb

/-- The micro-operations of full round `r` (43_poseidon2.md R196). -/
def fullRoundOps (r : Nat) : List Instr := [.arc r, .sboxf, .mext]

/-- The micro-operations of partial round `r` (43_poseidon2.md R196). -/
def partialRoundOps (r : Nat) : List Instr := [.arcp r, .sbox 0 0, .mint]

section Schedule

variable {s : State} (h : Inv s) (hr : s.run = true) (he : s.err = false)
include h hr he

omit h hr in
/-- A command that replaces the values of the state elements, on the values `l`. -/
theorem runsTo_command {i : Instr} {l : List Nat} {g : List Nat → List Nat} (hi : i.wellFormed = true)
    (hl : IsValues s.t l) (hg : (g l).length = s.t)
    (hex : exec i (s.withValues l) = .next ((s.withValues l).withValues (g ((s.withValues l).elemVals s.t)))) :
    s.RunsTo [i] l (g l) := by
  rw [elemVals_withValues s hl (t_lt s), withValues_withValues s (hl.length.trans hg.symm)] at hex
  exact writeCmds_encode he hi hex

theorem runsTo_mext {l : List Nat} (hl : IsValues s.t l) : s.RunsTo [.mext] l (extLayer s.t l) :=
  runsTo_command he rfl hl (length_extLayer (t_mem_tset_of_run h hr) hl.length)
    (exec_mext_of_run (h.keep_withValues l) hr)

omit he in
/-- A row of the table fits the field of ARC and ARCP (42_params.md R165). -/
theorem row_lt_two_pow_of_run {r : Nat} (hrow : r < s.rows) : r < 2 ^ 16 := by
  obtain ⟨-, -, -, hrows, -, -⟩ := (committable_iff s).mp (h.runStore hr)
  have hmax : Config.nrMax = 128 := rfl
  omega

theorem runsTo_fullRound {r : Nat} (hrow : r < s.rows) {l : List Nat} (hl : IsValues s.t l) :
    s.RunsTo (fullRoundOps r) l (fullRound s.permParams r l) := by
  have hadd : IsValues s.t (addRow s.permParams r l) :=
    ⟨by rw [addRow, List.length_mapIdx, hl.length], allBelowP_mapIdx (fun _ _ => fadd_lt _ _) l⟩
  have hpow : IsValues s.t ((addRow s.permParams r l).map (sboxPow s.d)) :=
    ⟨by rw [List.length_map, hadd.length], allBelowP_map (sboxPow_lt s.d) _⟩
  have harc : s.RunsTo [.arc r] l (addRow s.permParams r l) :=
    runsTo_command he (decide_eq_true (row_lt_two_pow_of_run h hr hrow)) hl hadd.length
      (exec_arc_values (h.keep_withValues l) hr hrow)
  have hsboxf : s.RunsTo [.sboxf] (addRow s.permParams r l) ((addRow s.permParams r l).map (sboxPow s.d)) :=
    runsTo_command he rfl hadd hpow.length (exec_sboxf_of_run (h.keep_withValues _) hr)
  exact (harc.append hsboxf).append (runsTo_mext h hr he hpow)

theorem runsTo_partialRound {r : Nat} (hrow : r < s.rows) {l : List Nat} (hl : IsValues s.t l) :
    s.RunsTo (partialRoundOps r) l (partialRound s.permParams r l) := by
  have hadd := hl.onHead fun x => fadd_lt x (s.permParams.rc r 0)
  have hpow := hadd.onHead (sboxPow_lt s.d)
  have harcp : s.RunsTo [.arcp r] l (onHead (fun x => fadd x (s.permParams.rc r 0)) l) :=
    runsTo_command he (decide_eq_true (row_lt_two_pow_of_run h hr hrow)) hl hadd.length
      (exec_arcp_values (h.keep_withValues l) hr hrow)
  have hsbox := runsTo_command he rfl hadd hpow.length (exec_sbox_zero_values (h.keep_withValues _) hr)
  have hmint : s.RunsTo [.mint] _ (partialRound s.permParams r l) :=
    runsTo_command (g := intLayer s.t s.permParams.dg) he rfl hpow ((length_intLayer _ _ _).trans hpow.length)
      (exec_mint_of_run (h.keep_withValues _) hr)
  exact (harcp.append hsbox).append hmint

omit h hr he in
/-- The micro-operations of a run of rounds are those of its rounds, one after another. -/
theorem runsTo_runRounds {round : Nat → List Nat → List Nat} {ops : Nat → List Instr} {start n : Nat}
    (hkeep : ∀ r l, IsValues s.t l → IsValues s.t (round r l))
    (hround : ∀ j, j < n → ∀ l, IsValues s.t l → s.RunsTo (ops (start + j)) l (round (start + j) l))
    {l : List Nat} (hl : IsValues s.t l) :
    s.RunsTo ((List.range n).flatMap fun j => ops (start + j)) l (runRounds round start n l) := by
  induction n with
  | zero => rfl
  | succ k ih =>
    rw [List.range_succ, List.flatMap_append, List.flatMap_singleton, runRounds_succ]
    have hrun := ih fun j hj => hround j (hj.trans k.lt_succ_self)
    exact hrun.append (hround k k.lt_succ_self _ (runRounds_induct hkeep start k hl))

/-- The micro-operations of PERM permute the values (43_poseidon2.md R196). -/
theorem runsTo_permMicroOps {l : List Nat} (hl : IsValues s.t l) :
    s.RunsTo (permMicroOps s.roundsF s.roundsP) l (perm s.permParams l) := by
  have ht := t_mem_tset_of_run h hr
  have hhalf : s.roundsF / 2 ≤ s.roundsF := Nat.div_le_self _ _
  have hrows : s.rows = s.roundsF + s.roundsP := rfl
  have hfull (r : Nat) (l : List Nat) (hl : IsValues s.t l) : IsValues s.t (fullRound s.permParams r l) :=
    hl.fullRound (c := s.permParams) ht r
  have hpartial (r : Nat) (l : List Nat) (hl : IsValues s.t l) : IsValues s.t (partialRound s.permParams r l) :=
    hl.partialRound (c := s.permParams) r
  have hfirst := hl.extLayer ht
  have hbegin := runsTo_runRounds (ops := fullRoundOps) (start := 0) (n := s.roundsF / 2) hfull
    (fun j hj _ => runsTo_fullRound h hr he (by omega)) hfirst
  have hmid := runRounds_induct hfull 0 (s.roundsF / 2) hfirst
  have hmiddle := runsTo_runRounds (ops := partialRoundOps) (start := s.roundsF / 2) (n := s.roundsP) hpartial
    (fun j hj _ => runsTo_partialRound h hr he (by omega)) hmid
  have hend := runsTo_runRounds (ops := fullRoundOps) (start := s.roundsF / 2 + s.roundsP)
    (n := s.roundsF - s.roundsF / 2) hfull (fun j hj _ => runsTo_fullRound h hr he (by omega))
    (runRounds_induct hpartial (s.roundsF / 2) s.roundsP hmid)
  simp only [Nat.zero_add] at hbegin
  exact (((runsTo_mext h hr he hl).append hbegin).append hmiddle).append hend

end Schedule

/-- Settles O51: PERM writes the permuted values, and so do the words of its micro-operations one after another. -/
theorem permEqualsItsMicroOperations : Obligations.PermEqualsItsMicroOperations := by
  intro s h hr he
  have hrun := runsTo_permMicroOps h hr he (isValues_elemVals s s.t)
  rw [State.RunsTo, withValues_elemVals h.regs] at hrun
  exact ⟨_, exec_perm_of_width h hr, hrun⟩

end Sys2Proof.Machine
end

section
/-! The known answers of the reference parameters (45_reference_params.md R230 to R232). -/

namespace Sys2Proof.Machine

theorem perm_refParams : (perm refParams [0, 1, 2]).headD 0 =
    0x0bb61d24daca55eebcb1929a82650f328134334da98ea4f847f760054f4a3033 := by decide +kernel

theorem compress_refParams : compress refParams 1 2 =
    0x2afac3bdc3663b71eefeecdf21b147d0ba7dd7a169a7757c05ed6bfb065bffd2 := by decide +kernel

/-- Settles O53: both values are computed, with 64 rounds each. -/
theorem referenceKnownAnswer : Obligations.ReferenceKnownAnswer := ⟨perm_refParams, compress_refParams⟩

end Sys2Proof.Machine
end

section
/-! The Merkle accumulator (44_merkle.md R214): the padding doubles to the least power of two, and the levels are the
nodes of the tree over the padded leaves. -/

namespace Sys2Proof.Machine

/- The bound. -/

/-- Doubling stops at the first power that is not below `n`. -/
theorem boundFrom_eq {n fuel b : Nat} (h : n ≤ b * 2 ^ fuel) :
    ∃ k, boundFrom n fuel b = b * 2 ^ k ∧ n ≤ b * 2 ^ k ∧ ∀ j, n ≤ b * 2 ^ j → k ≤ j := by
  induction fuel generalizing b with
  | zero => exact ⟨0, (Nat.mul_one b).symm, h, fun j _ => j.zero_le⟩
  | succ fuel ih =>
    have double (j : Nat) : 2 * b * 2 ^ j = b * 2 ^ (j + 1) := by ring
    by_cases hb : b < n
    · rw [← double] at h
      obtain ⟨k, hk, hle, hleast⟩ := ih h
      refine ⟨k + 1, by rw [boundFrom, if_pos hb, hk, double], double k ▸ hle, fun j hj => ?_⟩
      cases j with
      | zero => omega
      | succ j => exact Nat.succ_le_succ (hleast j (double j ▸ hj))
    · exact ⟨0, by rw [boundFrom, if_neg hb, Nat.pow_zero, Nat.mul_one], by omega, fun j _ => j.zero_le⟩

/-- The bound is the power of two to the least positive depth that holds `n` leaves (44_merkle.md R214). -/
theorem bound_eq (n : Nat) : ∃ k, bound n = 2 ^ k ∧ IsLeast {k | 0 < k ∧ n ≤ 2 ^ k} k := by
  have double (j : Nat) : 2 * 2 ^ j = 2 ^ (j + 1) := (Nat.pow_succ').symm
  have hfuel : n ≤ 2 * 2 ^ n := (Nat.lt_two_pow_self (n := n)).le.trans (by omega)
  obtain ⟨k, hk, hle, hleast⟩ := boundFrom_eq hfuel
  refine ⟨k + 1, hk.trans (double k), ⟨k.succ_pos, double k ▸ hle⟩, fun j ⟨hj, hn⟩ => ?_⟩
  obtain ⟨j, rfl⟩ := Nat.exists_eq_add_one.mpr hj
  exact Nat.succ_le_succ (hleast j (double j ▸ hn))

theorem le_bound (n : Nat) : n ≤ bound n := by
  obtain ⟨k, hk, ⟨-, hle⟩, -⟩ := bound_eq n
  exact hk ▸ hle

/-- More leaves within the same bound have the same bound (44_merkle.md R214). -/
theorem bound_eq_of_le {m n : Nat} (hmn : m ≤ n) (hn : n ≤ bound m) : bound n = bound m := by
  obtain ⟨j, hj, ⟨hj0, -⟩, hjleast⟩ := bound_eq m
  obtain ⟨k, hk, ⟨hk0, hnk⟩, hkleast⟩ := bound_eq n
  have hkj : k = j := le_antisymm (hkleast ⟨hj0, hj ▸ hn⟩) (hjleast ⟨hk0, hmn.trans hnk⟩)
  rw [hj, hk, hkj]

/- The padded list. -/

/-- A list that ends in copies of one leaf is padded with that leaf (44_merkle.md R214). -/
theorem padLeaves_append_replicate (l : List Nat) (x k : Nat) : padLeaves (l ++ List.replicate (k + 1) x) =
    l ++ List.replicate (bound (l.length + (k + 1)) - l.length) x := by
  have hlast : (l ++ List.replicate (k + 1) x).getLastD 0 = x := by
    rw [List.replicate_succ', ← List.append_assoc, List.getLastD_concat]
  have hcount : k + 1 + (bound (l.length + (k + 1)) - (l.length + (k + 1))) =
      bound (l.length + (k + 1)) - l.length := by
    have := le_bound (l.length + (k + 1))
    omega
  rw [padLeaves, hlast, List.length_append, List.length_replicate, List.append_assoc, List.replicate_append_replicate,
    hcount]

/-- Place `i` of the padded list holds leaf `i`, or the last leaf beyond it. -/
theorem padLeaves_map_range {n : Nat} (hn : 0 < n) (x : Nat → Nat) :
    padLeaves ((List.range n).map x) = (List.range (bound n)).map fun i => x (min i (n - 1)) := by
  obtain ⟨m, rfl⟩ := Nat.exists_eq_add_one.mpr hn
  have hpad := padLeaves_append_replicate ((List.range m).map x) (x m) 0
  simp only [Nat.zero_add, List.replicate_one, length_map_range] at hpad
  have hle := le_bound (m + 1)
  rw [List.range_succ, List.map_append, List.map_singleton, hpad]
  refine List.ext_getElem (by simp; omega) fun i hi _ => ?_
  simp only [List.getElem_append, length_map_range, List.getElem_map, List.getElem_range, List.getElem_replicate,
    Nat.add_sub_cancel]
  split
  · next him => rw [min_eq_left him.le]
  · next him => rw [min_eq_right (not_lt.mp him)]

/- The levels. -/

/-- One level pairs neighbours (44_merkle.md R214). -/
theorem pairUp_map_range (cmp : Nat → Nat → Nat) (n : Nat) (x : Nat → Nat) :
    pairUp cmp ((List.range (2 * n)).map x) = (List.range n).map fun i => cmp (x (2 * i)) (x (2 * i + 1)) := by
  induction n generalizing x with
  | zero => rfl
  | succ n ih =>
    have hpeel : (List.range (2 * (n + 1))).map x =
        x 0 :: x 1 :: (List.range (2 * n)).map fun i => x (i + 2) := by
      rw [Nat.mul_succ, List.range_succ_eq_map, List.range_succ_eq_map]
      simp [Function.comp_def]
    rw [hpeel, pairUp, ih, List.range_succ_eq_map, List.map_cons, List.map_map]
    rfl

/-- The levels above level `level` end in the node of depth `k` above it. -/
theorem foldNodes_treeNode (cmp : Nat → Nat → Nat) (leaf : Nat → Nat) {k fuel : Nat} (hk : k ≤ fuel) (level : Nat) :
    foldNodes cmp fuel ((List.range (2 ^ k)).map (treeNode cmp leaf level)) = [treeNode cmp leaf (level + k) 0] := by
  induction k generalizing fuel level with
  | zero => cases fuel <;> rfl
  | succ k ih =>
    obtain ⟨fuel, rfl⟩ := Nat.exists_eq_add_one.mpr (k.succ_pos.trans_le hk)
    have hmany : 1 < ((List.range (2 ^ (k + 1))).map (treeNode cmp leaf level)).length := by
      rw [length_map_range]
      exact Nat.one_lt_two_pow k.succ_ne_zero
    have hlevel : pairUp cmp ((List.range (2 ^ (k + 1))).map (treeNode cmp leaf level)) =
        (List.range (2 ^ k)).map (treeNode cmp leaf (level + 1)) := by
      rw [Nat.pow_succ', pairUp_map_range]
      rfl
    rw [foldNodes, if_pos hmany, hlevel, ih (Nat.le_of_succ_le_succ hk), Nat.add_right_comm, Nat.add_assoc]

/-- The accumulator is the root of the tree over the leaves, padded with the last one (44_merkle.md R214). -/
theorem accumulate_map_range (c : PermParams) {n k : Nat} (hn : 0 < n) (hk : bound n = 2 ^ k) (x : Nat → Nat) :
    accumulate c ((List.range n).map x) = treeNode (compress c) (fun i => x (min i (n - 1))) k 0 := by
  have hfuel : k ≤ 2 ^ k := Nat.lt_two_pow_self.le
  have hroot := foldNodes_treeNode (compress c) (fun i => x (min i (n - 1))) hfuel 0
  rw [Nat.zero_add] at hroot
  rw [accumulate, padLeaves_map_range hn, hk, length_map_range]
  exact congrArg (List.headD · 0) hroot

/-- Repeating the last leaf within the bound gives the same padded list, so the same root (44_merkle.md R216). -/
theorem accumulate_repeat_last (c : PermParams) {l : List Nat} {k : Nat} (x : Nat)
    (h : l.length + 1 + k ≤ bound (l.length + 1)) :
    accumulate c (l ++ [x] ++ List.replicate k x) = accumulate c (l ++ [x]) := by
  have hbound : bound (l.length + (k + 1)) = bound (l.length + 1) := bound_eq_of_le (by omega) (by omega)
  have hlist : l ++ [x] ++ List.replicate k x = l ++ List.replicate (k + 1) x := List.append_assoc l [x] _
  have hone : padLeaves (l ++ [x]) = l ++ List.replicate (bound (l.length + 1) - l.length) x :=
    padLeaves_append_replicate l x 0
  have hpad : padLeaves (l ++ [x] ++ List.replicate k x) = padLeaves (l ++ [x]) := by
    rw [hlist, padLeaves_append_replicate, hbound, hone]
  simp only [accumulate, hpad]

/-- Settles O57: one to three leaves make at most two levels, which are evaluated, and the repetition is the same
padded list. -/
theorem paddingRepeatsTheLastLeaf : Obligations.PaddingRepeatsTheLastLeaf := fun c a b x _ _ =>
  ⟨rfl, rfl, rfl, (accumulate_repeat_last c (l := [a, b]) (k := 1) x (le_refl 4)).symm, accumulate_repeat_last c x⟩

end Sys2Proof.Machine
end

section
/-! The Merkle commands (44_merkle.md section 2), each as its write behind its checks. -/

namespace Sys2Proof.Machine

/- CMPR. -/

theorem exec_cmpr_of_run {s : State} (hr : s.run = true) (fd a b : Reg) : exec (.cmpr fd a b) s =
    raiseIf (decide (s.t ≠ Config.merkleT)) (.cmpr fd a b) s .stateWidth
      (stopIf s.permStop (.next (s.setReg fd (mont (compress s.permParams (s.regVal a) (s.regVal b)))))) :=
  inRun_pass hr (.cmpr fd a b) _

theorem exec_cmpr_of_width {s : State} (h : Inv s) (hr : s.run = true) (ht : s.t = Config.merkleT) (fd a b : Reg) :
    exec (.cmpr fd a b) s = .next (s.setReg fd (mont (compress s.permParams (s.regVal a) (s.regVal b)))) := by
  rw [exec_cmpr_of_run hr, raiseIf_pass (decide_eq_false (not_not_intro ht)),
    stopIf_pass (permStop_none (h.runStore hr))]

/-- `s` with CMPR's own 3-element state in its state elements (44_merkle.md R211). -/
def State.withSources (s : State) (a b : Reg) : State := ((s.setReg 0 (s.reg a)).setReg 1 (s.reg b)).setReg 2 0

theorem Inv.keep_withSources {s : State} (h : Inv s) (a b : Reg) : Inv (s.withSources a b) :=
  ((h.keep_setReg 0 (h.regs a)).keep_setReg 1 (h.regs b)).keep_setReg 2 p_pos

theorem elemVals_withSources {s : State} (h : s.RegsBelowP) (a b : Reg) :
    (s.withSources a b).elemVals 3 = [s.regVal a, s.regVal b, 0] := by
  have h0 : (s.withSources a b).reg 0 = s.reg a := by
    rw [State.withSources, reg_setReg_ne 0 (by decide), reg_setReg_ne _ (by decide), reg_setReg_self (h a)]
  have h1 : (s.withSources a b).reg 1 = s.reg b := by
    rw [State.withSources, reg_setReg_ne 0 (by decide), reg_setReg_self (h b)]
  have h2 : (s.withSources a b).reg 2 = 0 := reg_setReg_self p_pos
  have hvals : (s.withSources a b).elemVals 3 = [val ((s.withSources a b).reg 0), val ((s.withSources a b).reg 1),
    val ((s.withSources a b).reg 2)] := rfl
  rw [hvals, h0, h1, h2, val_zero, State.regVal, State.regVal]

/-- Element 0 holds the first value that was written. -/
theorem reg_zero_withValues (s : State) {l : List Nat} (hl : 0 < l.length) :
    (s.withValues l).reg 0 = mont (l.headD 0) := by
  cases l with
  | nil => exact absurd hl (Nat.lt_irrefl 0)
  | cons x xs => exact (reg_withValues s (x :: xs) 0).trans (dif_pos hl)

/-- PERM on CMPR's own state leaves the compression of the two sources in `f[0]` (44_merkle.md R210). -/
theorem exec_perm_withSources {s : State} (h : Inv s) (hr : s.run = true) (ht : s.t = Config.merkleT) (a b : Reg) :
    ∃ u, exec (.perm 3) (s.withSources a b) = .next u ∧
      u.reg 0 = mont (compress s.permParams (s.regVal a) (s.regVal b)) := by
  have hwidth : (s.withSources a b).t = 3 := ht
  have hex := exec_perm_of_width (h.keep_withSources a b) hr
  rw [hwidth, elemVals_withSources h.regs] at hex
  have hlen : (perm (s.withSources a b).permParams [s.regVal a, s.regVal b, 0]).length = s.t :=
    length_perm (c := (s.withSources a b).permParams) (t_mem_tset_of_run (h.keep_withSources a b) hr) hwidth.symm
  exact ⟨_, hex, reg_zero_withValues _ (hlen ▸ t_pos_of_run h hr)⟩

/-- Settles O54: CMPR writes the compression, which PERM leaves in `f[0]` of CMPR's own state. -/
theorem cmprIsThePermutationOfAPrivateState : Obligations.CmprIsThePermutationOfAPrivateState := by
  refine fun fd a b s => ⟨decodeOfEncode (.cmpr fd a b) rfl, faultsWith_paramsNotCommitted rfl, fun hr ht => ?_,
    fun h hr ht => ?_⟩
  · exact faultsWith_of_check (exec_cmpr_of_run hr fd a b) (decide_eq_true ht)
  · obtain ⟨u, hu, hhead⟩ := exec_perm_withSources h hr ht a b
    exact ⟨_, u, exec_cmpr_of_width h hr ht fd a b, hu, (reg_setReg_self (mont_lt _)).trans hhead.symm,
      onlyReg_setReg s fd _⟩

/- ACCUM. -/

theorem exec_accum_of_run {s : State} (hr : s.run = true) (fd : Reg) (n : Nat) : exec (.accum fd n) s =
    raiseIf (decide (s.t ≠ Config.merkleT)) (.accum fd n) s .stateWidth
      (raiseIf (decide (n = 0 ∨ Config.lmax < n)) (.accum fd n) s .leafCount
        (stopIf s.permStop (.next (s.setReg fd (mont (accumulate s.permParams (s.leafVals n))))))) :=
  inRun_pass hr (.accum fd n) _

theorem exec_accum_of_width {s : State} (hr : s.run = true) (ht : s.t = Config.merkleT) (fd : Reg) (n : Nat) :
    exec (.accum fd n) s = raiseIf (decide (n = 0 ∨ Config.lmax < n)) (.accum fd n) s .leafCount
      (stopIf s.permStop (.next (s.setReg fd (mont (accumulate s.permParams (s.leafVals n)))))) := by
  rw [exec_accum_of_run hr, raiseIf_pass (decide_eq_false (not_not_intro ht))]

theorem exec_accum_of_count {s : State} (h : Inv s) (hr : s.run = true) (ht : s.t = Config.merkleT) (fd : Reg)
    {n : Nat} (h0 : 0 < n) (hn : n ≤ Config.lmax) :
    exec (.accum fd n) s = .next (s.setReg fd (mont (accumulate s.permParams (s.leafVals n)))) := by
  rw [exec_accum_of_width hr ht, raiseIf_pass (decide_eq_false (not_or.mpr ⟨h0.ne', hn.not_gt⟩)),
    stopIf_pass (permStop_none (h.runStore hr))]

/-- Settles O56: ACCUM writes the encoded root of the padded tree, whose depth is that of the bound. -/
theorem accumIsTheTreeRoot : Obligations.AccumIsTheTreeRoot := by
  refine fun fd n s => ⟨fun hw => decodeOfEncode (.accum fd n) (decide_eq_true hw), faultsWith_paramsNotCommitted rfl,
    fun hr ht => ?_, fun hr ht hn => ?_, fun h hr ht h0 hn => ?_⟩
  · exact faultsWith_of_check (exec_accum_of_run hr fd n) (decide_eq_true ht)
  · exact faultsWith_of_check (exec_accum_of_width hr ht fd n) (decide_eq_true hn)
  · obtain ⟨k, hk, ⟨hk0, hnk⟩, hleast⟩ := bound_eq n
    have hbelow : AllBelowP (s.leafVals n) := allBelowP_map (fun _ => val_lt _) _
    have hval : (s.setReg fd (mont (accumulate s.permParams (s.leafVals n)))).regVal fd =
        accumulate s.permParams (s.leafVals n) := by
      rw [regVal_setReg_self (mont_lt _), val_mont (accumulate_lt _ hbelow)]
    refine ⟨_, k, exec_accum_of_count h hr ht fd h0 hn, hk0, hnk, fun j hj hnj => hleast ⟨hj, hnj⟩,
      hval.trans (accumulate_map_range _ h0 hk _), ?_, onlyReg_setReg s fd _⟩
    rw [hval, reg_setReg_self (mont_lt _), mont_eq]

/- LWR and LRD. -/

theorem exec_lwr (fs : Reg) (idx : Nat) (s : State) : exec (.lwr fs idx) s =
    raiseIf (decide (Config.lmax ≤ idx)) (.lwr fs idx) s .indexRange (.next (s.setLeaf idx s.f[fs.val])) := rfl

theorem exec_lrd (fd : Reg) (idx : Nat) (s : State) : exec (.lrd fd idx) s =
    raiseIf (decide (Config.lmax ≤ idx)) (.lrd fd idx) s .indexRange (.next (s.setReg fd (s.leafAt idx).toNat)) := rfl

theorem exec_lwr_of_lt (fs : Reg) {idx : Nat} (h : idx < Config.lmax) (s : State) :
    exec (.lwr fs idx) s = .next (s.setLeaf idx s.f[fs.val]) := by
  rw [exec_lwr, raiseIf_pass (decide_eq_false h.not_ge)]

theorem exec_lrd_of_lt (fd : Reg) {idx : Nat} (h : idx < Config.lmax) (s : State) :
    exec (.lrd fd idx) s = .next (s.setReg fd (s.leafAt idx).toNat) := by
  rw [exec_lrd, raiseIf_pass (decide_eq_false h.not_ge)]

/-- A register holds any word written to it, whatever its number (10_state.md R21). -/
theorem reg_setReg_word (s : State) (r : Reg) (w : Word) : (s.setReg r w.toNat).reg r = w.toNat := by
  rw [reg_setReg, if_pos rfl, Nat.mod_eq_of_lt w.isLt]

/-- Settles O55: behind the check of the index stands one write, of a leaf or of a register. -/
theorem lwrAndLrdAccessOneLeaf : Obligations.LwrAndLrdAccessOneLeaf := by
  refine ⟨fun fs idx s => ⟨fun hw => decodeOfEncode (.lwr fs idx) (decide_eq_true hw), fun hge => ?_,
      fun hlt hwf => ?_⟩,
    fun fd idx s => ⟨fun hw => decodeOfEncode (.lrd fd idx) (decide_eq_true hw), fun hge => ?_, fun hlt => ?_⟩,
    fun _ => rfl⟩
  · exact faultsWith_of_check (exec_lwr fs idx s) (decide_eq_true hge)
  · exact ⟨_, exec_lwr_of_lt fs hlt s, fun i => leafAt_setLeaf hwf idx i _, Memory.wf_write hwf idx _,
      fun _ _ => rfl, fun _ => rfl, rfl⟩
  · exact faultsWith_of_check (exec_lrd fd idx s) (decide_eq_true hge)
  · exact ⟨_, exec_lrd_of_lt fd hlt s, reg_setReg_word s fd _, onlyReg_setReg s fd _⟩

end Sys2Proof.Machine
end

section
/-! Faults (60_exceptions.md): what a faulting command leaves, the return from a fault, and the modes. -/

namespace Sys2Proof.Machine

/- The idle step. -/

/-- Settles O8: the step takes an input only where there is one. -/
theorem stepWithoutInputIsIdle : Obligations.StepWithoutInputIsIdle := fun _ => step_nil

/- The writes the host makes while a fault is pending, by the register they name. -/

theorem busStep_writeCtrl (v : Word32) (s : State) : busStep (.write 0x10 4 v) s = .next (writeCtrl v s) :=
  busStep_write rfl (by decide) v s

theorem busStep_writeCmd (w : Word32) (s : State) : busStep (.write 0x18 4 w) s = writeCmd w s :=
  busStep_write rfl (by decide) w s

theorem busStep_writeDin (k : Fin 8) (v : Word32) (s : State) :
    busStep (.write (0x20 + 4 * k.val) 4 v) s = .next (writeDin k v s) := by
  rw [busStep_write (by omega) (by omega), memWrite_din]

theorem busStep_errclr {v : Word32} (h0 : v.getLsbD 0 = false) (h1 : v.getLsbD 1 = true) (s : State) :
    busStep (.write 0x10 4 v) s = .next s.clearFault := by
  rw [busStep_writeCtrl, writeCtrl_errclr h0 h1]

/-- Settles O16: of the accesses only the CMD write looks at ERR, and it is dropped. -/
theorem commandsAreDroppedWhileAFaultIsPending : Obligations.CommandsAreDroppedWhileAFaultIsPending := by
  intro s he
  refine ⟨fun w => ?_, fun off ha hl => busStep_read ha hl s, fun k v => ?_, fun v h0 => ?_,
    fun v h0 h1 => busStep_errclr h0 h1 s, fun v h0 h1 => ?_⟩
  · rw [busStep_writeCmd, writeCmd_dropped he]
  · exact ⟨_, busStep_writeDin k v s, rfl, fun j => writeDin_din_entry k j v s, fun j => writeDin_dinm_bit k j v s⟩
  · rw [busStep_writeCtrl, writeCtrl_srst h0]
    rfl
  · rw [busStep_writeCtrl, writeCtrl_neither h0 h1]

/- What a faulting command leaves. -/

section

variable {i : Instr} {s t : State} {c : Cause} {w : Word32}

theorem Raises.eq_raise (h : Raises c w s t) : t = s.raise c w := by
  obtain ⟨herr, hcode, hcmd, -, ht⟩ := h
  rw [ht, herr, hcode, hcmd]
  rfl

/-- A command that leaves ERR set made no other write than the fault (60_exceptions.md R244). -/
theorem exec_raises (hs : s.err = false) (h : exec i s = .next t) (ht : t.err = true) :
    ∃ c ∈ causesOf i, Raises c (encode i) s t :=
  (exec_effect h).raises_of_ne (.inl fun he => Bool.false_ne_true (hs.symm.trans (he.symm.trans ht)))

/-- A faulting CMD write records the word written: a command's encoding is the word it was decoded from
(30_encoding.md R95), and an illegal word is recorded as it is (R96). -/
theorem writeCmd_raises (hs : s.err = false) (h : writeCmd w s = .next t) (ht : t.err = true) :
    ∃ c, Raises c w s t := by
  rw [writeCmd_execute hs] at h
  by_cases hd : ∃ i, decode w = .ok i
  · obtain ⟨i, hd⟩ := hd
    rw [execute_command hd] at h
    obtain ⟨c, -, hc⟩ := exec_raises hs h ht
    exact ⟨c, encode_of_decode hd ▸ hc⟩
  · rw [execute_illegal (not_exists.mp hd)] at h
    obtain rfl := Host.Outcome.next.inj h
    exact ⟨_, raises_raise .illegalCommand w s⟩

end

/-- Settles O18: the fault of a CMD write is its whole effect. -/
theorem faultingCommandsAreAllOrNothing : Obligations.FaultingCommandsAreAllOrNothing := by
  intro s t w hs h ht
  obtain ⟨c, hc⟩ := writeCmd_raises hs h ht
  exact ⟨c, mem_causes c, hc⟩

/-- Settles O19: a command that leaves ERR set raised a cause of its row. -/
theorem commandsRaiseOnlyTheirListedFaults : Obligations.CommandsRaiseOnlyTheirListedFaults := by
  intro i s t hs h ht
  obtain ⟨c, hmem, -, hcode, -⟩ := exec_raises hs h ht
  exact ⟨c, hmem, hcode⟩

/- The return from a fault. -/

theorem clearFault_raise (s : State) (c : Cause) (w : Word32) : (s.raise c w).clearFault = s.clearFault := rfl

/-- Without a fault the fault registers read 0 already (10_state.md R32, R33). -/
theorem clearFault_of_no_fault {s : State} (h : Inv s) (he : s.err = false) : s.clearFault = s := by
  obtain ⟨hcode, hcmd⟩ := h.noFault he
  rw [State.clearFault, ← he, ← hcode, ← hcmd]

/-- Settles O17: ERRCLR undoes all that a fault wrote, so the retry starts from the state the command faulted in. -/
theorem errclrReturnsFromAFault : Obligations.ErrclrReturnsFromAFault := by
  refine ⟨fun s v h0 h1 => ⟨busStep_errclr h0 h1 s, fun hI he => ?_⟩, fun s t w hI he h ht => ?_⟩
  · rw [busStep_errclr h0 h1, clearFault_of_no_fault hI he]
  · obtain ⟨c, hc⟩ := writeCmd_raises he h ht
    have hback : t.clearFault = s := by rw [hc.eq_raise, clearFault_raise, clearFault_of_no_fault hI he]
    rw [busStep_errclr (by decide) (by decide), hback]
    exact ⟨rfl, h⟩

/- The modes. -/

/-- The state in the mode `b`. -/
def State.withRun (s : State) (b : Bool) : State := { s with run := b }

theorem raiseIf_withRun {bad : Bool} {i : Instr} {s : State} {c : Cause} {b : Bool} {k k' : Result}
    (hk : k' = mapNext (·.withRun b) k) :
    raiseIf bad i (s.withRun b) c k' = mapNext (·.withRun b) (raiseIf bad i s c k) := by
  cases bad with
  | true => rfl
  | false => exact hk

/-- A command of no mode neither reads nor writes RUN (60_exceptions.md R252). -/
theorem exec_withRun {i : Instr} (hrun : needsRun i = false) (hconfig : needsConfig i = false) (s : State) (b : Bool) :
    exec i (s.withRun b) = mapNext (·.withRun b) (exec i s) := by
  cases i with
  | nop | stc | str | ldi | mov | tomont | frommont | add | sub | mul | neg | dbl | sqr | eq => rfl
  | ldc | inv | lwr | lrd => exact raiseIf_withRun rfl
  | ldr => exact raiseIf_withRun (raiseIf_withRun rfl)
  | psettd | psetrnd | psetrc | psetdg | pcommit => exact absurd hconfig.symm Bool.false_ne_true
  | arc | arcp | sbox | sboxf | mext | mint | perm | cmpr | accum => exact absurd hrun.symm Bool.false_ne_true

/-- Settles O20: the mode check stands before every other check of a command that has one, and the rest have none. -/
theorem modeFaultsComeFirst : Obligations.ModeFaultsComeFirst := by
  refine fun i s => ⟨faultsWith_paramsNotCommitted, faultsWith_paramsLocked, fun hrun hconfig t h => ?_⟩
  have hmode := exec_withRun hrun hconfig s (!s.run)
  rw [h] at hmode
  exact hmode

end Sys2Proof.Machine
end

section
/-! Reset (70_reset_and_hazards.md R280, R281, R282): the two sources and their common effect. -/

namespace Sys2Proof.Machine

/-- A CTRL write with SRST set is the reset and nothing else: its other bits and the fault flag play no part (R282). -/
theorem busStep_srst {v : Word32} (h0 : v.getLsbD 0 = true) (s : State) :
    busStep (.write 0x10 4 v) s = .next s.resetUnit := by
  rw [busStep_writeCtrl, writeCtrl_srst h0]

theorem busStep_hardReset (s : State) : busStep .hardReset s = .next s.resetUnit := rfl

/-- Settles O15: both sources run `resetUnit`, which keeps of the old state the host's two fields alone. -/
theorem bothResetsGiveTheResetState : Obligations.BothResetsGiveTheResetState :=
  fun s _ h0 => ⟨busStep_hardReset s, busStep_srst h0 s⟩

end Sys2Proof.Machine
end
